-- ==== Sys2Proof/Word.lean ====
section
/-! DEFINITION. The word types of HXIC-PDM. Bit 0 is the least significant bit (R8); the widths are
the constants of R6. -/

namespace Sys2Proof

/-- A command word or a response word: WORD_W = 32 bits (R6, R51, R52). -/
abbrev Word := BitVec 32

/-- A count, a duration, TOTAL, an ARG field or a VAL field: CNT_W = DUR_W = 24 bits (R6). -/
abbrev U24 := BitVec 24

/-- An OP field, a TAG field, a CAUSE code or FOP: 8 bits (R51, R52, R26, R27). -/
abbrev Byte := BitVec 8

/-- A sample, a Q2.14 number in two's complement: SAMPLE_W = 16 bits (R6, R55). -/
abbrev Sample := BitVec 16

/-- The accumulator QE, two's complement: ACC_W = 32 bits (R6, R14). -/
abbrev Acc := BitVec 32

end Sys2Proof
end

