-- ==== Sys2Proof/Config.lean ====
section
/-! DEFINITION. The constants of R6, the implementation parameters of R5, and the constants the spec
leaves open. The parameters of one instance are plain data that the state carries (log 1). -/

namespace Sys2Proof

/-- ONE = 2^14, the integer that stands for the real value 1.0 (R6). -/
def Config.one : Int := 16384

/-- FRAC_BITS (R6), read back in CONFIG[19:16] (R30). -/
def Config.fracBits : BitVec 4 := 14

/-- The revision of the specification, read back in CONFIG[23:20] (R2, R30). -/
def Config.specRev : BitVec 4 := 1

/-- SIDESET_COUNT: the executor is started with exactly one side-set pin (R6, R99). -/
def Config.sidesetCount : Nat := 1

/-- SIDESET_BASE: the side-set base offset is fixed at 0 (R6, R99). -/
def Config.sidesetBase : Nat := 0

/-- P_PROGRAM (R5, R49): a black-box blob that only the executor reads. OPEN in the spec, so it has
no value here; that it is held as bytes is a DESIGN CHOICE (log 4, safe). -/
opaque Config.program : List Byte

/-- The reference sample source P_REF (R5, R39, R91), as data. -/
inductive RefSource where
  /-- The default: the quantised unit sine of R92. -/
  | unitSine
  /-- Any other total table: `rows[N - 1][n]` is the sample REF(n, N) (log 2). -/
  | table (rows : List (List Sample))
deriving DecidableEq, Repr

/-- The implementation parameters of one instance (R5): fixed for its life, and written by no step. -/
structure Params where
  /-- P_TSWITCH, 0 to 255. -/
  tSwitch : BitVec 8
  /-- P_MAXN_LOG2, legal from 1 to 16 (`Params.wf`). -/
  maxNLog2 : Nat
  /-- P_REF. -/
  ref : RefSource
deriving DecidableEq, Repr

/-- The default parameters of R5. -/
def Params.default : Params := { tSwitch := 3, maxNLog2 := 12, ref := .unitSine }

/-- MAX_N = 2^P_MAXN_LOG2 − 1, the largest N that PIPE.RUN accepts (R6). -/
def Params.maxN (p : Params) : Nat := 2 ^ p.maxNLog2 - 1

/-- MAX_SEG = MAX_N + 1, the number of entries of SEG_BUF (R6). -/
def Params.maxSeg (p : Params) : Nat := 2 ^ p.maxNLog2

end Sys2Proof
end

