-- ==== Sys2Proof/Machine/Rounding.lean ====
section
/-! DEFINITION. Rounding half away from zero, and the fixed-point sine that gives the default
reference table (R92). -/

namespace Sys2Proof.Machine

/-- round(num / den), a half rounded up: for a value that is not negative this is rounding half away
from zero (R68, R92). -/
def roundHalfUp (num den : Nat) : Nat := (2 * num + den) / (2 * den)

/-- ±num / den rounded half away from zero. -/
def roundHalfAway (negative : Bool) (num den : Nat) : Int :=
  if negative then -(roundHalfUp num den : Int) else (roundHalfUp num den : Int)

/-- The number of fractional bits of the fixed-point sine. -/
def sineBits : Nat := 60

/-- ⌊(π/2) · 2^60⌋. -/
def halfPi : Nat := 1811004864519280710

/-- The alternating tail t − t·x²/((k+1)(k+2)) + … of the sine series in 60-bit fixed point, `fuel`
terms long: `x2` is x², `t` the term x^k / k!. -/
def sineTail (x2 : Nat) : (fuel k t : Nat) → Int
  | 0, _, _ => 0
  | fuel + 1, k, t =>
    (t : Int) - sineTail x2 fuel (k + 2) (t * x2 / 2 ^ sineBits / ((k + 1) * (k + 2)))

/-- sin((π/2) · r/N) in 60-bit fixed point, for 0 ≤ r ≤ N: 13 terms of the series. -/
def sineFixed (r N : Nat) : Nat :=
  let x := halfPi * r / N
  (sineTail (x * x / 2 ^ sineBits) 13 1 x).toNat

/-- The quarter wave, sin((π/2) · r/N) · 16384 rounded half away from zero, for 0 ≤ r ≤ N. The bound
16384 is the sine's own (R92: every value lies in [−16384, 16384]). -/
def quarterSine (r N : Nat) : Nat :=
  min 16384 (roundHalfUp (sineFixed r N * 16384) (2 ^ sineBits))

/-- REF_default(n, N) of R92: sin(2π·n/N) · 16384 rounded half away from zero, by the quarter wave
and its symmetries, so that it is exact wherever 4·n is a multiple of N. DEDUCED (log 3): the spec
gives the formula and the values for ten N; this computes them. -/
def unitSine (n N : Nat) : Int :=
  let r := 4 * n % N
  match 4 * n / N % 4 with
  | 0 => (quarterSine r N : Int)
  | 1 => (quarterSine (N - r) N : Int)
  | 2 => -(quarterSine r N : Int)
  | _ => -(quarterSine (N - r) N : Int)

/-- The sample that `DSM.INF ±digits/10^places` stands for, r · 16384 rounded half away from zero
(R68). -/
def dsmInfValue (negative : Bool) (digits places : Nat) : Int :=
  roundHalfAway negative (digits * 16384) (10 ^ places)

end Sys2Proof.Machine
end

