-- ==== Sys2Proof/Syntax.lean ====
section
/-! DEFINITION. The commands (one constructor per row of the opcode table, R58), the operand formats
(R53), and the statements of the command assembly language (R66 to R68). -/

namespace Sys2Proof

/-- The 13 commands of R58. Each operand has exactly the width its format gives it, so every term is
well formed as a command. A symbol code is a Bool: true is code 1, the symbol +1 (R61). -/
inductive Instr where
  /-- NOP, format Z (R111). -/
  | nop
  /-- DSM.CLR, format Z (R72). -/
  | dsmClr
  /-- DSM.IN s, format S (R73). -/
  | dsmIn (s : Sample)
  /-- RLE.CLR, format Z (R79). -/
  | rleClr
  /-- RLE.IN c, format B (R80). -/
  | rleIn (c : Bool)
  /-- RLE.END, format Z (R81). -/
  | rleEnd
  /-- LC.IN n, format U (R85). -/
  | lcIn (n : U24)
  /-- PM.IN x, format U (R89). -/
  | pmIn (x : U24)
  /-- PIPE.RUN N, format U (R93 to R102). -/
  | pipeRun (n : U24)
  /-- STAT.RD, format Z (R112). -/
  | statRd
  /-- CFG.RD, format Z (R113). -/
  | cfgRd
  /-- QE.RD, format Z (R114). -/
  | qeRd
  /-- CNT.RD, format Z (R115). -/
  | cntRd
deriving DecidableEq, Repr

/-- The operand formats of R53. -/
inductive Format where
  | z | s | b | u
deriving DecidableEq, Repr

/-- A DSM.IN operand as written in assembly: a decimal integer or a 16-bit pattern (R67). -/
inductive SampleOperand where
  | dec (v : Int)
  | pattern (p : Nat)
deriving DecidableEq, Repr

/-- A statement of the command assembly language: the 13 mnemonics of R58 with operands as written
(R67), and the pseudo-instructions of R68. -/
inductive Stmt where
  | nop
  | dsmClr
  | dsmIn (s : SampleOperand)
  | rleClr
  /-- `RLE.IN +1` is `rleIn true`, `RLE.IN -1` is `rleIn false`. -/
  | rleIn (plus : Bool)
  | rleEnd
  | lcIn (n : Nat)
  | pmIn (x : Nat)
  | pipeRun (n : Nat)
  | statRd
  | cfgRd
  | qeRd
  | cntRd
  /-- `DSM.INF r` with r = ±digits / 10^places. -/
  | dsmInf (negative : Bool) (digits places : Nat)
  | dsmSeq (xs : List SampleOperand)
  | rleSeq (vs : List Bool)
  | lcSeq (ns : List Nat)
  | pmSeq (xs : List Nat)
  | run (n : Nat)
  | clrAll
deriving DecidableEq, Repr

end Sys2Proof
end

