-- ==== Sys2Proof/WellFormed.lean ====
section
/-! DEFINITION. What is well formed: a command word (R53, R58, R64), an assembly statement (R67, R68),
the parameters of an instance (R5). A term of `Instr` is well formed by its type. -/

namespace Sys2Proof

/-- The format of an assigned OP value, none for each of the 243 unassigned ones (R58, R64). -/
def formatOf (op : Byte) : Option Format :=
  if op = 0x00 ∨ op = 0x01 ∨ op = 0x10 ∨ op = 0x12 ∨ op = 0xF0 ∨ op = 0xF1 ∨ op = 0xF2 ∨ op = 0xF3
  then some .z
  else if op = 0x02 then some .s
  else if op = 0x11 then some .b
  else if op = 0x20 ∨ op = 0x30 ∨ op = 0x40 then some .u
  else none

/-- The ARG bits that are reserved in each format (R53). -/
def Format.reserved : Format → U24
  | .z => 0xFFFFFF
  | .s => 0xFF0000
  | .b => 0xFFFFFE
  | .u => 0x000000

/-- A word is legal: its OP is assigned and no reserved ARG bit is set (R53, R64). -/
def wordWf (w : Word) : Bool :=
  match formatOf (w.extractLsb' 24 8) with
  | none => false
  | some f => w.extractLsb' 0 24 &&& f.reserved == 0

/-- The operand of DSM.IN is in range: an int16, or a 16-bit pattern (R67). -/
def SampleOperand.wf : SampleOperand → Bool
  | .dec v => decide (-32768 ≤ v) && decide (v ≤ 32767)
  | .pattern p => decide (p ≤ 0xFFFF)

/-- A format U operand is in range: [0, 16777215] (R67). -/
def u24Wf (n : Nat) : Bool := decide (n ≤ 16777215)

/-- A statement is well formed: every operand is in range (R67), a sequence has m ≥ 1 operands, and
the sample of a `DSM.INF` is an int16 (R68). What is not well formed is an assembly error. -/
def Stmt.wf : Stmt → Bool
  | .dsmIn s => s.wf
  | .lcIn n | .pmIn n | .pipeRun n | .run n => u24Wf n
  | .dsmInf neg digits places => (SampleOperand.dec (Machine.dsmInfValue neg digits places)).wf
  | .dsmSeq xs => !xs.isEmpty && xs.all SampleOperand.wf
  | .rleSeq vs => !vs.isEmpty
  | .lcSeq ns | .pmSeq ns => !ns.isEmpty && ns.all u24Wf
  | .nop | .dsmClr | .rleClr | .rleIn _ | .rleEnd | .statRd | .cfgRd | .qeRd | .cntRd | .clrAll =>
    true

/-- One row of a P_REF table is legal for N: N + 1 samples, each in [−ONE, +ONE] (R5). -/
def refRowWf (N : Nat) (row : List Sample) : Bool :=
  row.length == N + 1 &&
    row.all (fun x => decide (-Config.one ≤ x.toInt) && decide (x.toInt ≤ Config.one))

/-- Rows N, N + 1, … of a P_REF table are legal. -/
def refRowsWf : Nat → List (List Sample) → Bool
  | _, [] => true
  | N, row :: rows => refRowWf N row && refRowsWf (N + 1) rows

/-- A reference source is total on 1 ≤ N ≤ MAX_N and 0 ≤ n ≤ N, with every value in [−ONE, +ONE]
(R5). -/
def RefSource.wf (maxN : Nat) : RefSource → Bool
  | .unitSine => true
  | .table rows => rows.length == maxN && refRowsWf 1 rows

/-- The parameters of an instance are in their legal ranges (R5). P_TSWITCH is in range by its type. -/
def Params.wf (p : Params) : Bool :=
  decide (1 ≤ p.maxNLog2) && decide (p.maxNLog2 ≤ 16) && p.ref.wf p.maxN

end Sys2Proof
end

