-- ==== Sys2Proof/Decode.lean ====
section
/-! DEFINITION. Decoding a command word by the rows of R58 (R59), the encoder, and the byte order of a
byte-wide link (R40). -/

namespace Sys2Proof

/-- Why a word is ILLEGAL (R64, R117). -/
inductive Illegal where
  /-- The OP value is not in the table of R58. -/
  | unassignedOp (op : Byte)
  /-- The OP value is assigned and a reserved ARG bit is set. -/
  | reservedBits (op : Byte)
  /-- Fewer than four bytes came over a byte-wide link: no word (R51, R65). -/
  | truncated
deriving DecidableEq, Repr

/-- The OP field of a word (R51). -/
def opField (w : Word) : Byte := w.extractLsb' 24 8

/-- The ARG field of a word (R51). -/
def argField (w : Word) : U24 := w.extractLsb' 0 24

/-- One row of R58: `w` is a word of the row when `w &&& mask = pattern`, and then it is the command
`build w`. -/
structure Row where
  pattern : Word
  mask : Word
  build : Word → Instr

/-- The rows of R58, in its order, with the operand fields of R53 to R57. -/
def rows : List Row :=
  [ ⟨0x00000000, 0xFFFFFFFF, fun _ => .nop⟩,
    ⟨0x01000000, 0xFFFFFFFF, fun _ => .dsmClr⟩,
    ⟨0x02000000, 0xFFFF0000, fun w => .dsmIn (w.extractLsb' 0 16)⟩,
    ⟨0x10000000, 0xFFFFFFFF, fun _ => .rleClr⟩,
    ⟨0x11000000, 0xFFFFFFFE, fun w => .rleIn (w.getLsbD 0)⟩,
    ⟨0x12000000, 0xFFFFFFFF, fun _ => .rleEnd⟩,
    ⟨0x20000000, 0xFF000000, fun w => .lcIn (argField w)⟩,
    ⟨0x30000000, 0xFF000000, fun w => .pmIn (argField w)⟩,
    ⟨0x40000000, 0xFF000000, fun w => .pipeRun (argField w)⟩,
    ⟨0xF0000000, 0xFFFFFFFF, fun _ => .statRd⟩,
    ⟨0xF1000000, 0xFFFFFFFF, fun _ => .cfgRd⟩,
    ⟨0xF2000000, 0xFFFFFFFF, fun _ => .qeRd⟩,
    ⟨0xF3000000, 0xFFFFFFFF, fun _ => .cntRd⟩ ]

/-- R59: the first row that matches, or ILLEGAL with the reason of R64. Total over all words. -/
def decode (w : Word) : Except Illegal Instr :=
  match rows.find? (fun r => w &&& r.mask == r.pattern) with
  | some r => .ok (r.build w)
  | none =>
    if (formatOf (opField w)).isSome then .error (.reservedBits (opField w))
    else .error (.unassignedOp (opField w))

/-- The OP value of a command (R58). -/
def Instr.op : Instr → Byte
  | .nop => 0x00
  | .dsmClr => 0x01
  | .dsmIn _ => 0x02
  | .rleClr => 0x10
  | .rleIn _ => 0x11
  | .rleEnd => 0x12
  | .lcIn _ => 0x20
  | .pmIn _ => 0x30
  | .pipeRun _ => 0x40
  | .statRd => 0xF0
  | .cfgRd => 0xF1
  | .qeRd => 0xF2
  | .cntRd => 0xF3

/-- The ARG field of a command, laid out by its format with every reserved bit 0 (R53 to R57). -/
def Instr.arg : Instr → U24
  | .dsmIn s => 0#8 ++ s
  | .rleIn c => 0#23 ++ BitVec.ofBool c
  | .lcIn n => n
  | .pmIn x => x
  | .pipeRun n => n
  | .nop | .dsmClr | .rleClr | .rleEnd | .statRd | .cfgRd | .qeRd | .cntRd => 0

/-- The word of a command, {OP, ARG} (R51). -/
def encode (i : Instr) : Word := i.op ++ i.arg

/-- A word as the bytes of a byte-wide link: byte 0 is bits [7:0] (R40). -/
def bytesOfWord (w : Word) : List Byte :=
  [w.extractLsb' 0 8, w.extractLsb' 8 8, w.extractLsb' 16 8, w.extractLsb' 24 8]

/-- Decode the first word of a byte stream whose byte 0 is bits [7:0] (R40), with the bytes left. -/
def decodeBytes : List Byte → Except Illegal (Instr × List Byte)
  | b0 :: b1 :: b2 :: b3 :: rest => (decode (b3 ++ b2 ++ b1 ++ b0)).map (·, rest)
  | _ => .error .truncated

/-- The instruction the decoder reads from a table word: its low `nbits` bits, as one 32-bit word. -/
def decodeTableWord (nbits w : Nat) : Option Instr :=
  (decode (BitVec.ofNat 32 (w % 2 ^ nbits))).toOption

end Sys2Proof
end

