-- ==== Sys2Proof/Machine/State.lean ====
section
/-! DEFINITION. The architectural state of the CORE (R13 to R30), its interface state (R34), the
command port (R36), the instance's parameters (R5), and the outside world's coming moves; the state
after reset (R35); what stops the model itself. -/

namespace Sys2Proof.Machine

/-- PHASE, the state of the command sequencer (R18). The encodings 4, 5 and 6 are never held, and no
value of this type has one (log 16). -/
inductive Phase where
  | idle | compute | handoff | observe | faulted
deriving DecidableEq, Repr

/-- The 3-bit encoding of PHASE (R18). -/
def Phase.code : Phase → BitVec 3
  | .idle => 0
  | .compute => 1
  | .handoff => 2
  | .observe => 3
  | .faulted => 7

/-- CAUSE, the fault causes of R116. The codes 0x0A to 0xFF are never recorded, and no value of this
type has one (log 16). -/
inductive Cause where
  | none | illegalCommand | rleEmpty | accOverflow | countOverflow | durOverflow | badN | capacity
  | execError | execProtocol
deriving DecidableEq, Repr

/-- The 8-bit code of a cause (R116). -/
def Cause.code : Cause → Byte
  | .none => 0x00
  | .illegalCommand => 0x01
  | .rleEmpty => 0x02
  | .accOverflow => 0x03
  | .countOverflow => 0x04
  | .durOverflow => 0x05
  | .badN => 0x06
  | .capacity => 0x07
  | .execError => 0x08
  | .execProtocol => 0x09

/-- A move of the outside world (R7, R109, R127), taken between or as steps of the CORE (log 7). -/
inductive Event where
  /-- Nothing happens outside: the CORE takes its own step. -/
  | quiet
  /-- HOST writes a word to the command port (R36). -/
  | hostWrite (w : Word)
  /-- HOST removes the word at the front of RSP (R34). -/
  | hostTake
  /-- `rst` is asserted (R131). -/
  | rst
  /-- EXEC offers a pin state (R100). -/
  | pin (b : Bool)
  /-- EXEC signals that it has terminated (R101). -/
  | done
  /-- EXEC signals a failure (R102). -/
  | execError
deriving DecidableEq, Repr

/-- The segment buffer SEG_BUF: (index, entry) pairs, indices strictly rising (`Memory.wf`). An index
that is not listed has no value (R35, R38; log 5). -/
abbrev Memory := List (Nat × U24)

/-- Everything the spec gives the machine, as plain data. -/
structure State where
  /-- The parameters of the instance (R5); no step writes them (log 1). CONFIG (R30) is made of them. -/
  params : Params
  /-- QE (R14). -/
  qe : Acc
  /-- RLE_STARTED (R15). -/
  rleStarted : Bool
  /-- RLE_LAST, a symbol code (R16). -/
  rleLast : Bool
  /-- RLE_COUNT (R17). -/
  rleCount : U24
  /-- PHASE (R18). -/
  phase : Phase
  /-- SMP_N (R19). -/
  smpN : U24
  /-- SMP_IDX, a natural in [0, MAX_N + 1] (R20; log 15). -/
  smpIdx : Nat
  /-- SEG_K, a natural in [0, MAX_SEG] (R21; log 15). -/
  segK : Nat
  /-- SEG_BUF (R22). -/
  segBuf : Memory
  /-- TOTAL (R23). -/
  total : U24
  /-- HND_IDX, a natural in [0, MAX_SEG] (R24; log 15). -/
  hndIdx : Nat
  /-- TICKS (R25). -/
  ticks : U24
  /-- CAUSE (R26). -/
  cause : Cause
  /-- FOP (R27). -/
  fop : Byte
  /-- RSP, the response stream, oldest word first; unbounded (R34; log 8). -/
  rsp : List Word
  /-- EXEC_H, the words delivered to the executor, in delivery order (R34). -/
  execH : List U24
  /-- EXEC_STARTED (R34). -/
  execStarted : Bool
  /-- EXEC_DUR (R34). -/
  execDur : U24
  /-- The command port: the words HOST wrote and the CORE has not accepted, oldest first (R36, R45). -/
  cmd : List Word
  /-- The MODEL's own field: the outside world's coming moves, oldest first; each step reads at most
  one (log 7). -/
  env : List Event
deriving DecidableEq, Repr

/-- Why the MODEL stops. No machine fault is here: the faults of R116 are taken, and the step goes on
to a next state in FAULTED (R118). Each of these is unreachable from a state that satisfies
`State.Inv`. -/
inductive Fault where
  /-- A SEG_BUF index outside [0, MAX_SEG − 1], raised by a PIPE.RUN step (R37: "It should fault, not
  wrap"; log 6). Safe. -/
  | segIndex
  /-- A read of a SEG_BUF entry that was never written, raised by the flush and handoff steps (R38: "A
  model may give them no value and fault on a read of one"; log 5). Safe. -/
  | segUnwritten
  /-- REF(n, N) where the instance's table has no entry, raised by the sample step: the table is not a
  P_REF of R5, which is total (log 2). Safe. -/
  | refMissing
  /-- TICKS + 1 does not fit 24 bits, raised by the pin-state step (R9: nothing wraps; log 14). Safe. -/
  | ticksRange
deriving DecidableEq, Repr

/-- Why the model gives an instruction no meaning. -/
inductive Refusal where
  /-- The instruction has no meaning yet, raised by `exec`'s arm for it. No arm answers it. Safe. -/
  | notModelled (mnemonic : String)
deriving DecidableEq, Repr

/-- What a step of the machine answers. -/
abbrev Outcome := Host.Outcome State Fault Refusal

/-- The machine right after reset, with the default parameters (R35, R131). SEG_BUF has nothing listed
(log 5); no word waits in the command port, so the first word HOST writes is the first executed (R132;
log 10); nothing is pending outside (log 7). -/
def State.reset : State where
  params := Params.default
  qe := 0
  rleStarted := false
  rleLast := false
  rleCount := 0
  phase := .idle
  smpN := 0
  smpIdx := 0
  segK := 0
  segBuf := []
  total := 0
  hndIdx := 0
  ticks := 0
  cause := .none
  fop := 0
  rsp := []
  execH := []
  execStarted := false
  execDur := 0
  cmd := []
  env := []

end Sys2Proof.Machine
end

