-- ==== Sys2Proof/Machine/Flags.lean ====
section
/-! DEFINITION. The views that are computed from the state: FAULT, STATUS, CONFIG, and the level
signals a platform may expose. The machine has no other flags (R32). -/

namespace Sys2Proof.Machine

/-- FAULT, the 1-bit value (PHASE = 7) (R28); also the level signal `fault_o` (R123). -/
def State.faultBit (s : State) : Bool := s.phase == .faulted

/-- The level signal `busy_o`: PHASE is COMPUTE, HANDOFF or OBSERVE (R123). -/
def State.busy (s : State) : Bool :=
  s.phase == .compute || s.phase == .handoff || s.phase == .observe

/-- STATUS (R29): FOP, CAUSE, a reserved 0, PHASE, a reserved 0, RLE_LAST, RLE_STARTED, FAULT. -/
def State.statusWord (s : State) : U24 :=
  s.fop ++ s.cause.code ++ 0#1 ++ s.phase.code ++ 0#1 ++ BitVec.ofBool s.rleLast ++
    BitVec.ofBool s.rleStarted ++ BitVec.ofBool s.faultBit

/-- CONFIG (R30): SPEC_REV, FRAC_BITS, three reserved 0, MAXN_LOG2, TSWITCH. -/
def configWord (p : Params) : U24 :=
  Config.specRev ++ Config.fracBits ++ 0#3 ++ BitVec.ofNat 5 p.maxNLog2 ++ p.tSwitch

/-- QE[23:0], what QE.RD returns (R114). -/
def State.qeLow (s : State) : U24 := s.qe.extractLsb' 0 24

end Sys2Proof.Machine
end

