-- ==== Sys2Proof/Machine/Operands.lean ====
section
/-! DEFINITION. The operand forms of R53 to R57, the symbol and drive codes of R61 and R62, and the
ranges of R9. -/

namespace Sys2Proof.Machine

/-- z is in int_n (R9). -/
def inInt (n : Nat) (z : Int) : Prop := -2 ^ (n - 1) ≤ z ∧ z ≤ 2 ^ (n - 1) - 1

/-- The largest uint24 value (R9). -/
def maxU24 : Nat := 2 ^ 24 - 1

/-- Format S: the sample s = sval(ARG[15:0]), an int16 in units of 2^−14 (R55). -/
def sampleOperand (s : Sample) : Int := s.toInt

/-- Format U: the value u = uval(ARG[23:0]) (R57). -/
def valueOperand (u : U24) : Nat := u.toNat

/-- sym(c) = 2·c − 1: the symbol a code denotes (R56, R61). -/
def sym (c : Bool) : Int := if c then 1 else -1

/-- The code (y + 1) / 2 of a symbol y (R61). -/
def symCode (y : Int) : Bool := (y + 1) / 2 == 1

/-- The VAL field of DSM.Y: bit 0 is the symbol code, the others are 0 (R60). -/
def symVal (c : Bool) : U24 := 0#23 ++ BitVec.ofBool c

/-- The 2-bit two's-complement drive code of a drive value (R62), as a VAL field (R60). -/
def driveVal (v : Int) : U24 := 0#22 ++ BitVec.ofInt 2 v

end Sys2Proof.Machine
end

