-- ==== Sys2Proof/Machine/Ops.lean ====
section
/-! DEFINITION. The named operations over the state: the response stream, taking a fault (R118) and
leaving FAULTED by reset (R131), command acceptance (R110), the segment buffer (R37), the reference
sample source (R39, R91, R92), the executor's channel (R98, R99), and register updates. -/

namespace Sys2Proof.Machine

/-! ### The response stream -/

/-- `emit(tag, val)`: append the response word {tag, val} to RSP (R10, R52). -/
def emit (tag : Byte) (val : U24) (s : State) : State := { s with rsp := s.rsp ++ [tag ++ val] }

/-- HOST removes the word at the front of RSP; there may be none (R34). -/
def takeResponse (s : State) : State := { s with rsp := s.rsp.tail }

/-- HOST writes a word, which waits in the command port behind the words before it (R36, R45). -/
def writeCommand (w : Word) (s : State) : State := { s with cmd := s.cmd ++ [w] }

/-! ### Taking a fault, and reset -/

/-- The VAL field of a FAULT response: VAL[7:0] = CAUSE, VAL[15:8] = FOP, VAL[23:16] = 0 (R63). -/
def faultVal (c : Cause) (fop : Byte) : U24 := 0#8 ++ fop ++ c.code

/-- Fault entry (R118): CAUSE, FOP and PHASE are written, the FAULT word is emitted, and no other
register is written. -/
def enterFault (c : Cause) (op : Byte) (s : State) : State :=
  emit 0xFF (faultVal c op) { s with cause := c, fop := op, phase := .faulted }

/-- `raise Fault(c)` in a command or step whose OP is `op`: the step ends in FAULTED (R118). -/
def raise (c : Cause) (op : Byte) (s : State) : Outcome := .next (enterFault c op s)

/-- A word that FAULTED refuses: the recorded FAULT word again, and no state changes (R110, R122). -/
def refuseFaulted (s : State) : State := emit 0xFF (faultVal s.cause s.fop) s

/-- Reset (R131), the only way out of FAULTED: the reset values of R35, in one step, in any PHASE.
No state is kept, the words that wait in the command port neither (R131, R132; log 10), so that a warm
reset is the cold one. The parameters are no state and stay (R134), and so do the outside world's
coming moves, which are not the CORE's (log 11). -/
def State.rst (s : State) : State := { State.reset with params := s.params, env := s.env }

/-! ### Command acceptance (R110) -/

/-- A command that only IDLE performs: FAULTED answers it with the recorded FAULT word; in the other
phases the port accepts nothing, and nothing happens (R110; log 13). -/
def whenIdle (body : State → Outcome) (s : State) : Outcome :=
  match s.phase with
  | .idle => body s
  | .faulted => .next (refuseFaulted s)
  | .compute | .handoff | .observe => .next s

/-- A command that IDLE and FAULTED both perform: NOP and the four reads (R110). -/
def whenIdleOrFaulted (body : State → Outcome) (s : State) : Outcome :=
  match s.phase with
  | .idle | .faulted => body s
  | .compute | .handoff | .observe => .next s

/-! ### The segment buffer -/

/-- The entry at index i, none where nothing was written (R37, R38). -/
def Memory.read : Memory → Nat → Option U24
  | [], _ => none
  | (j, x) :: m, i => if i = j then some x else Memory.read m i

/-- Set the entry at index i, keeping the indices strictly rising (R37). -/
def Memory.write : Memory → Nat → U24 → Memory
  | [], i, v => [(i, v)]
  | (j, x) :: m, i, v =>
    if i < j then (i, v) :: (j, x) :: m
    else if i = j then (i, v) :: m
    else (j, x) :: Memory.write m i v

/-- The indices rise strictly, and the first is at least `lo`. -/
def Memory.wfFrom : Nat → Memory → Bool
  | _, [] => true
  | lo, (j, _) :: m => decide (lo ≤ j) && Memory.wfFrom (j + 1) m

/-- The canonical form of the segment buffer: indices strictly rising. (An unlisted entry has no
value, so no listed entry equals what an unlisted one reads as.) -/
def Memory.wf (m : Memory) : Bool := Memory.wfFrom 0 m

/-- MemRead(SEG, i): requires i < MAX_SEG and a written entry (R37, R38). -/
def segRead (i : Nat) (s : State) : Except Fault U24 :=
  if i < s.params.maxSeg then
    match s.segBuf.read i with
    | some v => .ok v
    | none => .error .segUnwritten
  else .error .segIndex

/-- MemRead(SEG, 0), …, MemRead(SEG, k − 1), in index order. -/
def segReadAll (s : State) : Nat → Except Fault (List U24)
  | 0 => .ok []
  | k + 1 =>
    match segReadAll s k with
    | .error f => .error f
    | .ok ds =>
      match segRead k s with
      | .error f => .error f
      | .ok d => .ok (ds ++ [d])

/-- MemWrite(SEG, SEG_K, d); SEG_K <- SEG_K + 1. Requires SEG_K < MAX_SEG (R37, R95). -/
def segAppend (d : U24) (s : State) : Except Fault State :=
  if s.segK < s.params.maxSeg then
    .ok { s with segBuf := s.segBuf.write s.segK d, segK := s.segK + 1 }
  else .error .segIndex

/-! ### The reference sample source -/

/-- P_REF(n, N) of a source, none where a table has no entry (R5, R39). -/
def RefSource.sample : RefSource → Nat → Nat → Option Sample
  | .unitSine, n, N => some (BitVec.ofInt 16 (unitSine n N))
  | .table rows, n, N => (rows[N - 1]?).bind (fun row => row[n]?)

/-- REF(n, N) (R39, R91): a read of the instance's sample source, with no side effect. -/
def refRead (n N : Nat) (s : State) : Except Fault Sample :=
  match RefSource.sample s.params.ref n N with
  | some x => .ok x
  | none => .error .refMissing

/-! ### The executor's channel -/

/-- `exec_push(w)`: EXEC_H <- EXEC_H ++ [w] (R98). -/
def execPush (w : U24) (s : State) : State := { s with execH := s.execH ++ [w] }

/-- `exec_start(d)`: EXEC_STARTED <- true, EXEC_DUR <- d (R99). -/
def execStart (d : U24) (s : State) : State := { s with execStarted := true, execDur := d }

/-! ### Register updates -/

/-- QE <- q, for q in int32 (R14). -/
def setQe (q : Int) (s : State) : State := { s with qe := BitVec.ofInt 32 q }

/-- The run-length encoder's registers (RLE_STARTED, RLE_LAST, RLE_COUNT) together (R77). -/
structure RleRegs where
  started : Bool
  last : Bool
  count : U24
deriving DecidableEq, Repr

/-- The encoder's registers with no sequence started: (0, 0, 0) (R78, R79). -/
def RleRegs.clear : RleRegs := { started := false, last := false, count := 0 }

/-- The encoder's registers in the state. -/
def State.rle (s : State) : RleRegs :=
  { started := s.rleStarted, last := s.rleLast, count := s.rleCount }

/-- Write the encoder's three registers. -/
def setRle (r : RleRegs) (s : State) : State :=
  { s with rleStarted := r.started, rleLast := r.last, rleCount := r.count }

end Sys2Proof.Machine
end

