-- ==== Sys2Proof/Machine/Blocks.lean ====
section
/-! DEFINITION. The pure functions of the blocks: dsm_step (R70), rle_step and rle_end (R77, R78), lc
(R84), pm (R88). The direct commands and PIPE.RUN share them. Each computes on unbounded integers and
then checks the range (R9). -/

namespace Sys2Proof.Machine

/-- dsm_step(qe, s) of R70: the symbol code of y and the new accumulator, none for OVERFLOW. When the
exact sum is 0 the symbol is −1 (R71). -/
def dsmStep (qe s : Int) : Option (Bool × Int) :=
  let pre := qe + s
  if pre < -2 ^ 31 ∨ 2 ^ 31 - 1 < pre then none
  else
    let y : Int := if 0 < pre then 1 else -1
    some (symCode y, pre - y * Config.one)

/-- rle_step(st, c) of R77: the emitted count, if a run ended, and the new registers, none for
OVERFLOW. -/
def rleStep (st : RleRegs) (c : Bool) : Option (Option U24 × RleRegs) :=
  let ended : Bool := st.started && (c != st.last)
  let emitted : Option U24 := if ended then some st.count else none
  let count : Nat := if ended then 0 else st.count.toNat
  if maxU24 < count + 1 then none
  else some (emitted, { started := true, last := c, count := BitVec.ofNat 24 (count + 1) })

/-- rle_end(st) of R78: the final count and the cleared registers, none for EMPTY. -/
def rleEnd (st : RleRegs) : Option (U24 × RleRegs) :=
  if st.started then some (st.count, RleRegs.clear) else none

/-- lc(n) of R84 with T_SWITCH = t: max(0, t·(n − 1)), none for OVERFLOW. -/
def lc (t : BitVec 8) (n : U24) : Option U24 :=
  let d : Int := max 0 ((t.toNat : Int) * ((n.toNat : Int) - 1))
  if (maxU24 : Int) < d then none else some (BitVec.ofInt 24 d)

/-- pm(x) of R88: truthy to +1, falsy to −1. -/
def pm (x : Nat) : Int := if x ≠ 0 then 1 else -1

end Sys2Proof.Machine
end

