-- ==== Sys2Proof/Machine/Control.lean ====
section
/-! DEFINITION. NOP and the four reads (R111 to R115): performed in IDLE and in FAULTED (R110). -/

namespace Sys2Proof.Machine

/-- NOP does nothing (R111). -/
def execNop (s : State) : Outcome := whenIdleOrFaulted (fun s => .next s) s

/-- STAT.RD: emit(0xF0, STATUS) (R112). -/
def execStatRd (s : State) : Outcome :=
  whenIdleOrFaulted (fun s => .next (emit 0xF0 s.statusWord s)) s

/-- CFG.RD: emit(0xF1, CONFIG) (R113). -/
def execCfgRd (s : State) : Outcome :=
  whenIdleOrFaulted (fun s => .next (emit 0xF1 (configWord s.params) s)) s

/-- QE.RD: emit(0xF2, QE[23:0]) (R114). -/
def execQeRd (s : State) : Outcome :=
  whenIdleOrFaulted (fun s => .next (emit 0xF2 s.qeLow s)) s

/-- CNT.RD: emit(0xF3, RLE_COUNT) (R115). -/
def execCntRd (s : State) : Outcome :=
  whenIdleOrFaulted (fun s => .next (emit 0xF3 s.rleCount s)) s

end Sys2Proof.Machine
end

