-- ==== Sys2Proof/Machine/Dsm.lean ====
section
/-! DEFINITION. The delta-sigma modulator's commands (R72, R73). -/

namespace Sys2Proof.Machine

/-- DSM.CLR: QE <- 0, no response (R72). -/
def execDsmClr (s : State) : Outcome := whenIdle (fun s => .next (setQe 0 s)) s

/-- DSM.IN s: one step of the modulator, one DSM.Y response; ACC_OVERFLOW leaves QE and emits no
DSM.Y (R73). -/
def execDsmIn (x : Sample) (s : State) : Outcome :=
  whenIdle (fun s =>
    match dsmStep s.qe.toInt (sampleOperand x) with
    | none => raise .accOverflow (Instr.dsmIn x).op s
    | some (c, q') => .next (emit 0x02 (symVal c) (setQe q' s))) s

end Sys2Proof.Machine
end

