-- ==== Sys2Proof/Machine/Lc.lean ====
section
/-! DEFINITION. The latency compensator's command (R85). -/

namespace Sys2Proof.Machine

/-- LC.IN n: the compensated duration as LC.D, or DUR_OVERFLOW (R85). -/
def execLcIn (n : U24) (s : State) : Outcome :=
  whenIdle (fun s =>
    match lc s.params.tSwitch n with
    | none => raise .durOverflow (Instr.lcIn n).op s
    | some d => .next (emit 0x20 d s)) s

end Sys2Proof.Machine
end

