-- ==== Sys2Proof/Machine/Pipe.lean ====
section
/-! DEFINITION. PIPE.RUN: acceptance and the start step (R93, R94), and one definition per kind of step
that follows (R95 to R102). Each is one atomic step, and every check comes before every write. -/

namespace Sys2Proof.Machine

/-- The OP that every fault of a PIPE.RUN records (R27, R118). -/
def pipeOp : Byte := 0x40

/-- The start step of an accepted PIPE.RUN N (R94). -/
def startRun (n : U24) (s : State) : State :=
  { setRle RleRegs.clear (setQe 0 s) with
    smpN := n
    smpIdx := 0
    segK := 0
    total := 0
    hndIdx := 0
    ticks := 0
    execH := []
    execStarted := false
    execDur := 0
    phase := .compute }

/-- PIPE.RUN N: BAD_N when N = 0, CAPACITY when N > MAX_N, else the start step (R93, R94). -/
def execPipeRun (n : U24) (s : State) : Outcome :=
  whenIdle (fun s =>
    if valueOperand n = 0 then raise .badN (Instr.pipeRun n).op s
    else if s.params.maxN < valueOperand n then raise .capacity (Instr.pipeRun n).op s
    else .next (startRun n s)) s

/-- The writes of a sample step that are not to SEG_BUF: QE, the encoder's registers, SMP_IDX (R95). -/
def sampleWrites (q : Int) (r : RleRegs) (s : State) : State :=
  { setRle r (setQe q s) with smpIdx := s.smpIdx + 1 }

/-- The sample step (R95): sample, modulate, encode, and compensate a run that ended. -/
def sampleStep (s : State) : Outcome :=
  match refRead s.smpIdx s.smpN.toNat s with
  | .error f => .fault f
  | .ok x =>
    match dsmStep s.qe.toInt x.toInt with
    | none => raise .accOverflow pipeOp s
    | some (c, q') =>
      match rleStep s.rle c with
      | none => raise .countOverflow pipeOp s
      | some (none, r) => .next (sampleWrites q' r s)
      | some (some n, r) =>
        match lc s.params.tSwitch n with
        | none => raise .durOverflow pipeOp s
        | some d =>
          match segAppend d (sampleWrites q' r s) with
          | .error f => .fault f
          | .ok s' => .next s'

/-- The sum of R97: the entries of SEG_BUF below SEG_K, plus P_TSWITCH for each segment, in ℤ. -/
def totalSum (t : BitVec 8) (ds : List U24) : Nat :=
  (ds.map BitVec.toNat).sum + t.toNat * ds.length

/-- The flush step (R96), with TOTAL formed inside it (R97): a fault undoes the whole step. -/
def flushStep (s : State) : Outcome :=
  match rleEnd s.rle with
  | none => raise .rleEmpty pipeOp s
  | some (n, r) =>
    match lc s.params.tSwitch n with
    | none => raise .durOverflow pipeOp s
    | some d =>
      match segAppend d (setRle r s) with
      | .error f => .fault f
      | .ok s' =>
        match segReadAll s' s'.segK with
        | .error f => .fault f
        | .ok ds =>
          if maxU24 < totalSum s.params.tSwitch ds then raise .durOverflow pipeOp s
          else .next { s' with
            total := BitVec.ofNat 24 (totalSum s.params.tSwitch ds)
            hndIdx := s'.segK
            phase := .handoff }

/-- The handoff step (R98), for HND_IDX > 0: deliver the entry at HND_IDX − 1. -/
def handoffStep (s : State) : Outcome :=
  match segRead (s.hndIdx - 1) s with
  | .error f => .fault f
  | .ok w => .next (execPush w { s with hndIdx := s.hndIdx - 1 })

/-- The start step of the executor (R99). -/
def launchStep (s : State) : Outcome := .next { execStart s.total s with phase := .observe }

/-- The pin-state step (R100), enabled in OBSERVE; a pin state in another phase is not accepted
(log 12). -/
def pinStep (b : Bool) (s : State) : Outcome :=
  match s.phase with
  | .observe =>
    if s.ticks = s.total then raise .execProtocol pipeOp s
    else if maxU24 < s.ticks.toNat + 1 then .fault .ticksRange
    else .next { emit 0x40 (driveVal (pm b.toNat)) s with ticks := s.ticks + 1 }
  | .idle | .compute | .handoff | .faulted => .next s

/-- The completion step (R101), enabled in OBSERVE; termination in another phase is not accepted
(log 12). -/
def doneStep (s : State) : Outcome :=
  match s.phase with
  | .observe =>
    if s.ticks ≠ s.total then raise .execProtocol pipeOp s
    else .next { setQe 0 (emit 0x41 s.total s) with execStarted := false, phase := .idle }
  | .idle | .compute | .handoff | .faulted => .next s

/-- The executor-error step (R102), enabled in HANDOFF and OBSERVE; an error in another phase is not
taken (log 12). -/
def execErrorStep (s : State) : Outcome :=
  match s.phase with
  | .handoff | .observe => raise .execError pipeOp s
  | .idle | .compute | .faulted => .next s

end Sys2Proof.Machine
end

