-- ==== Sys2Proof/Machine/Pm.lean ====
section
/-! DEFINITION. The polarity mapper's command (R89). -/

namespace Sys2Proof.Machine

/-- PM.IN x: the drive value of the operand as PM.D (R89). -/
def execPmIn (x : U24) (s : State) : Outcome :=
  whenIdle (fun s => .next (emit 0x30 (driveVal (pm (valueOperand x))) s)) s

end Sys2Proof.Machine
end

