-- ==== Sys2Proof/Machine/Rle.lean ====
section
/-! DEFINITION. The run-length encoder's commands (R79 to R81). -/

namespace Sys2Proof.Machine

/-- RLE.CLR: the encoder's registers become (0, 0, 0), no response (R79). -/
def execRleClr (s : State) : Outcome := whenIdle (fun s => .next (setRle RleRegs.clear s)) s

/-- RLE.IN c: one symbol; an RLE.RUN response exactly when a run ends; COUNT_OVERFLOW leaves the
registers and emits no RLE.RUN (R80). -/
def execRleIn (c : Bool) (s : State) : Outcome :=
  whenIdle (fun s =>
    match rleStep s.rle c with
    | none => raise .countOverflow (Instr.rleIn c).op s
    | some (none, r) => .next (setRle r s)
    | some (some n, r) => .next (emit 0x11 n (setRle r s))) s

/-- RLE.END: the last run as RLE.LAST, and the registers cleared; RLE_EMPTY when no symbol was taken
(R81). -/
def execRleEnd (s : State) : Outcome :=
  whenIdle (fun s =>
    match rleEnd s.rle with
    | none => raise .rleEmpty Instr.rleEnd.op s
    | some (n, r) => .next (emit 0x12 n (setRle r s))) s

end Sys2Proof.Machine
end

