-- ==== Sys2Proof/Machine/Dispatch.lean ====
section
/-! DEFINITION. One arm per command of R58. -/

namespace Sys2Proof.Machine

def exec (i : Instr) (s : State) : Host.Outcome State Fault Refusal :=
  match i with
  | .nop => Sys2Proof.Machine.execNop s
  | .dsmClr => Sys2Proof.Machine.execDsmClr s
  | .dsmIn x => Sys2Proof.Machine.execDsmIn x s
  | .rleClr => Sys2Proof.Machine.execRleClr s
  | .rleIn c => Sys2Proof.Machine.execRleIn c s
  | .rleEnd => Sys2Proof.Machine.execRleEnd s
  | .lcIn n => Sys2Proof.Machine.execLcIn n s
  | .pmIn x => Sys2Proof.Machine.execPmIn x s
  | .pipeRun n => Sys2Proof.Machine.execPipeRun n s
  | .statRd => Sys2Proof.Machine.execStatRd s
  | .cfgRd => Sys2Proof.Machine.execCfgRd s
  | .qeRd => Sys2Proof.Machine.execQeRd s
  | .cntRd => Sys2Proof.Machine.execCntRd s

end Sys2Proof.Machine
end

