-- ==== Sys2Proof/Machine/Sequencer.lean ====
section
/-! DEFINITION. The command sequencer: taking a word from the command port (R110), the CORE's own step
by PHASE (R18, R42), and the outside world's moves (R7, R121). -/

namespace Sys2Proof.Machine

/-- A word that decodes to ILLEGAL: ILLEGAL_COMMAND with FOP = w[31:24] in IDLE, the recorded FAULT
word in FAULTED (R110, R117, R122). -/
def illegalWord (w : Word) (s : State) : Outcome := whenIdle (raise .illegalCommand (opField w)) s

/-- Perform an accepted word (R110). -/
def runWord (w : Word) (s : State) : Outcome :=
  match decode w with
  | .ok i => exec i s
  | .error _ => illegalWord w s

/-- IDLE and FAULTED: accept the next word of the command port and perform it. While none waits, the
CORE waits (R43, R132; log 9). -/
def commandStep (s : State) : Outcome :=
  match s.cmd with
  | [] => .next s
  | w :: rest => runWord w { s with cmd := rest }

/-- COMPUTE: the sample step while SMP_IDX ≤ SMP_N, the flush step at SMP_IDX = SMP_N + 1 (R95, R96).
Past that no step is enabled (log 19). -/
def computeStep (s : State) : Outcome :=
  if s.smpIdx ≤ s.smpN.toNat then sampleStep s
  else if s.smpIdx = s.smpN.toNat + 1 then flushStep s
  else .next s

/-- The CORE's own step, by PHASE. In OBSERVE it waits for the executor (R103). -/
def coreStep (s : State) : Outcome :=
  match s.phase with
  | .idle | .faulted => commandStep s
  | .compute => computeStep s
  | .handoff => if 0 < s.hndIdx then handoffStep s else launchStep s
  | .observe => .next s

/-- The step that a move of the outside world makes. -/
def eventStep (e : Event) (s : State) : Outcome :=
  match e with
  | .quiet => coreStep s
  | .hostWrite w => .next (writeCommand w s)
  | .hostTake => .next (takeResponse s)
  | .rst => .next s.rst
  | .pin b => pinStep b s
  | .done => doneStep s
  | .execError => execErrorStep s

/-- One step: the outside world's next move where one is pending, else the CORE's own step (R121;
log 7). -/
def agentStep (s : State) : Outcome :=
  match s.env with
  | [] => coreStep s
  | e :: rest => eventStep e { s with env := rest }

/-- The state in which a word stands first in the command port and the next step accepts it: no
outside move is pending, and a PIPE.RUN in progress is not (log 18). -/
def State.withWordFirst (s : State) (w : Word) : State :=
  { s with
    cmd := w :: s.cmd
    env := []
    phase := if s.phase = .faulted then .faulted else .idle }

end Sys2Proof.Machine
end

