-- ==== Sys2Proof/Machine/Step.lean ====
section
/-! DEFINITION. The step function, and where it fetches. -/

namespace Sys2Proof.Machine

/-- One atomic step of the machine (R12, R42). -/
def step (s : State) : Host.Outcome State Fault Refusal := agentStep s

/-- `s` with the word of a command at the front of the command port, where the next step takes it
(R45, R110; log 18). -/
def State.withFetchWord (s : State) (nbits w : Nat) : State :=
  s.withWordFirst (BitVec.ofNat 32 (w % 2 ^ nbits))

end Sys2Proof.Machine
end

