-- ==== Sys2Proof/Machine/Assembler.lean ====
section
/-! DEFINITION. The command assembler (R66 to R69): the expansion of statements, and the text grammar.
Text is a list of characters. Where R66 and R67 leave the text open (which blanks separate, the case of
hexadecimal digits and of pseudo-instruction names) the choice is in log 20. -/

namespace Sys2Proof.Machine

/-- The sample an operand of DSM.IN stands for: s[15:0] of a decimal, or the pattern itself (R67). -/
def operandSample : SampleOperand → Sample
  | .dec v => BitVec.ofInt 16 v
  | .pattern p => BitVec.ofNat 16 p

/-- The commands of a well-formed statement, each pseudo-instruction replaced by its expansion, in
order (R68). -/
def expandStmt : Stmt → List Instr
  | .nop => [.nop]
  | .dsmClr => [.dsmClr]
  | .dsmIn s => [.dsmIn (operandSample s)]
  | .rleClr => [.rleClr]
  | .rleIn plus => [.rleIn plus]
  | .rleEnd => [.rleEnd]
  | .lcIn n => [.lcIn (BitVec.ofNat 24 n)]
  | .pmIn x => [.pmIn (BitVec.ofNat 24 x)]
  | .pipeRun n => [.pipeRun (BitVec.ofNat 24 n)]
  | .statRd => [.statRd]
  | .cfgRd => [.cfgRd]
  | .qeRd => [.qeRd]
  | .cntRd => [.cntRd]
  | .dsmInf neg digits places => [.dsmIn (BitVec.ofInt 16 (dsmInfValue neg digits places))]
  | .dsmSeq xs => .dsmClr :: xs.map (fun s => .dsmIn (operandSample s))
  | .rleSeq vs => .rleClr :: vs.map .rleIn ++ [.rleEnd]
  | .lcSeq ns => ns.map (fun n => .lcIn (BitVec.ofNat 24 n))
  | .pmSeq xs => xs.map (fun x => .pmIn (BitVec.ofNat 24 x))
  | .run n => [.pipeRun (BitVec.ofNat 24 n)]
  | .clrAll => [.dsmClr, .rleClr]

/-- A statement to commands; none is an assembly error (R67, R68). -/
def assembleStmt (st : Stmt) : Option (List Instr) := if st.wf then some (expandStmt st) else none

/-- The word list of a program: the concatenation, in line order, of the words of its statements
(R66, R69). An assembly error anywhere and no word is emitted. -/
def assemble (ss : List Stmt) : Option (List Word) :=
  (ss.mapM assembleStmt).map (fun is => is.flatten.map encode)

/-! ### Text -/

/-- A blank inside a line. -/
def isBlank (c : Char) : Bool := c == ' ' || c == '\t' || c == '\r'

/-- A word without the blanks around it. -/
def trimBlanks (cs : List Char) : List Char :=
  ((cs.dropWhile isBlank).reverse.dropWhile isBlank).reverse

/-- The parts of a text between separators. -/
def splitAt (sep : Char) : List Char → List (List Char)
  | [] => [[]]
  | c :: cs =>
    if c = sep then [] :: splitAt sep cs
    else
      match splitAt sep cs with
      | [] => [[c]]
      | w :: ws => (c :: w) :: ws

/-- The value of a decimal digit. -/
def decDigit (c : Char) : Option Nat :=
  if '0'.toNat ≤ c.toNat ∧ c.toNat ≤ '9'.toNat then some (c.toNat - '0'.toNat) else none

/-- The value of a hexadecimal digit. -/
def hexDigit (c : Char) : Option Nat :=
  if 'a'.toNat ≤ c.toNat ∧ c.toNat ≤ 'f'.toNat then some (c.toNat - 'a'.toNat + 10)
  else if 'A'.toNat ≤ c.toNat ∧ c.toNat ≤ 'F'.toNat then some (c.toNat - 'A'.toNat + 10)
  else decDigit c

/-- The value of digits in a base, after a value already read. -/
def digitsFrom (base : Nat) (digit : Char → Option Nat) : Nat → List Char → Option Nat
  | acc, [] => some acc
  | acc, c :: cs =>
    match digit c with
    | none => none
    | some d => digitsFrom base digit (acc * base + d) cs

/-- An unsigned decimal integer: one or more digits. -/
def parseDec (cs : List Char) : Option Nat :=
  if cs.isEmpty then none else digitsFrom 10 decDigit 0 cs

/-- An unsigned decimal or `0x` hexadecimal integer (R67, format U). -/
def parseNat : List Char → Option Nat
  | '0' :: 'x' :: cs => if cs.isEmpty then none else digitsFrom 16 hexDigit 0 cs
  | cs => parseDec cs

/-- A sign, and what follows it: true for minus. -/
def parseSign : List Char → Bool × List Char
  | '-' :: cs => (true, cs)
  | '+' :: cs => (false, cs)
  | cs => (false, cs)

/-- A DSM.IN operand (R67, format S). -/
def parseSample : List Char → Option SampleOperand
  | '0' :: 'x' :: cs =>
    if cs.isEmpty then none else (digitsFrom 16 hexDigit 0 cs).map SampleOperand.pattern
  | cs =>
    match parseSign cs with
    | (neg, ds) => (parseDec ds).map (fun n : Nat => .dec (if neg then -(n : Int) else (n : Int)))

/-- An RLE.IN operand, `+1` or `-1` (R67, format B). -/
def parseSymbol (cs : List Char) : Option Bool :=
  if cs = ['+', '1'] then some true else if cs = ['-', '1'] then some false else none

/-- A decimal real, an optional sign, digits, and optional digits after a point (R68), as a sign, the
digits read as one number, and how many follow the point. -/
def parseReal (cs : List Char) : Option (Bool × Nat × Nat) :=
  match parseSign cs with
  | (neg, ds) =>
    match splitAt '.' ds with
    | [whole] => (parseDec whole).map (fun n => (neg, n, 0))
    | [whole, frac] =>
      if whole.isEmpty || frac.isEmpty then none
      else (parseDec (whole ++ frac)).map (fun n => (neg, n, frac.length))
    | _ => none

/-- The operands of a line: separated by commas, none where the text is blank. -/
def parseOperands (cs : List Char) : List (List Char) :=
  let body := trimBlanks cs
  if body.isEmpty then [] else (splitAt ',' body).map trimBlanks

/-- A statement with no operand. -/
def noOperand (st : Stmt) : List (List Char) → Option Stmt
  | [] => some st
  | _ => none

/-- A statement with exactly one operand. -/
def oneOperand {α : Type} (parse : List Char → Option α) (mk : α → Stmt) :
    List (List Char) → Option Stmt
  | [x] => (parse x).map mk
  | _ => none

/-- A statement with a list of operands. -/
def listOperand {α : Type} (parse : List Char → Option α) (mk : List α → Stmt)
    (xs : List (List Char)) : Option Stmt := (xs.mapM parse).map mk

/-- A mnemonic of R58 or a pseudo-instruction of R68, in capitals, with its operands. -/
def parseStmt (m : List Char) (xs : List (List Char)) : Option Stmt :=
  if m = "NOP".toList then noOperand .nop xs
  else if m = "DSM.CLR".toList then noOperand .dsmClr xs
  else if m = "DSM.IN".toList then oneOperand parseSample .dsmIn xs
  else if m = "RLE.CLR".toList then noOperand .rleClr xs
  else if m = "RLE.IN".toList then oneOperand parseSymbol .rleIn xs
  else if m = "RLE.END".toList then noOperand .rleEnd xs
  else if m = "LC.IN".toList then oneOperand parseNat .lcIn xs
  else if m = "PM.IN".toList then oneOperand parseNat .pmIn xs
  else if m = "PIPE.RUN".toList then oneOperand parseNat .pipeRun xs
  else if m = "STAT.RD".toList then noOperand .statRd xs
  else if m = "CFG.RD".toList then noOperand .cfgRd xs
  else if m = "QE.RD".toList then noOperand .qeRd xs
  else if m = "CNT.RD".toList then noOperand .cntRd xs
  else if m = "DSM.INF".toList then
    oneOperand parseReal (fun r => .dsmInf r.1 r.2.1 r.2.2) xs
  else if m = "DSM.SEQ".toList then listOperand parseSample .dsmSeq xs
  else if m = "RLE.SEQ".toList then listOperand parseSymbol .rleSeq xs
  else if m = "LC.SEQ".toList then listOperand parseNat .lcSeq xs
  else if m = "PM.SEQ".toList then listOperand parseNat .pmSeq xs
  else if m = "RUN".toList then oneOperand parseNat .run xs
  else if m = "CLR.ALL".toList then noOperand .clrAll xs
  else none

/-- A line: an optional statement, then an optional comment after `;` (R66). No statement is
`some []`; an assembly error is none. Mnemonics are case-insensitive. -/
def parseLine (line : List Char) : Option (List Stmt) :=
  let body := trimBlanks (line.takeWhile (· != ';'))
  if body.isEmpty then some []
  else
    let m := (body.takeWhile (fun c => !isBlank c)).map Char.toUpper
    let rest := body.dropWhile (fun c => !isBlank c)
    (parseStmt m (parseOperands rest)).map (fun st => [st])

/-- A program's text to its word list (R66, R69). -/
def assembleText (text : List Char) : Option (List Word) :=
  match (splitAt '\n' text).mapM parseLine with
  | none => none
  | some ls => assemble ls.flatten

end Sys2Proof.Machine
end

