-- ==== Sys2Proof/Machine/Executor.lean ====
section
/-! DEFINITION. What the executor is started with (R99, R127), and the reference executor REFEXEC of
the spec's test vectors (R107). REFEXEC is not part of the machine: no step uses it. -/

namespace Sys2Proof.Machine

/-- The inputs `exec_start` gives the executor (R99). -/
structure ExecInputs where
  program : List Byte
  duration : U24
  fifo : List U24
  sidesetCount : Nat
  sidesetBase : Nat
deriving DecidableEq, Repr

/-- The inputs the executor was started with, as the state holds them: P_PROGRAM, EXEC_DUR, EXEC_H,
one side-set pin, base 0 (R99). -/
def State.execInputs (s : State) : ExecInputs :=
  { program := Config.program
    duration := s.execDur
    fifo := s.execH
    sidesetCount := Config.sidesetCount
    sidesetBase := Config.sidesetBase }

/-- The pin levels of REFEXEC over durations in consumption order, from a level: each segment holds
d_j + P_TSWITCH ticks, and the level toggles per segment (R107). -/
def refexecLevels (t : BitVec 8) : Bool → List U24 → List Bool
  | _, [] => []
  | level, d :: ds => List.replicate (d.toNat + t.toNat) level ++ refexecLevels t (!level) ds

/-- REFEXEC's pin states for EXEC_H: the last word delivered is consumed first, the first level is 0
(R104, R107). -/
def refexecPins (t : BitVec 8) (execH : List U24) : List Bool := refexecLevels t false execH.reverse

/-- What REFEXEC signals: its pin states, then termination (R107). -/
def refexecEvents (t : BitVec 8) (execH : List U24) : List Event :=
  (refexecPins t execH).map Event.pin ++ [Event.done]

end Sys2Proof.Machine
end

