-- ==== Sys2Proof/Machine/HostView.lean ====
section
/-! DEFINITION. How the host reads response words: tags and values (R52, R60), drive values (R62), the
result of a PIPE.RUN (R108, R138), the accumulator (R139). -/

namespace Sys2Proof.Machine

/-- The TAG of a response word (R52). -/
def respTag (w : Word) : Byte := w.extractLsb' 24 8

/-- The VAL of a response word (R52). -/
def respVal (w : Word) : U24 := w.extractLsb' 0 24

/-- The drive value a PM.D or PIPE.DRIVE response carries: sval(VAL[1:0]) (R62). -/
def driveValue (w : Word) : Int := ((respVal w).extractLsb' 0 2).toInt

/-- What a response carries in VAL is laid out as its tag says, and the tag is one of R60: in a DSM.Y
only bit 0, in a PM.D or PIPE.DRIVE one of the two drive codes that are produced (R62), in an RLE.RUN
or RLE.LAST at least 1, in a FAULT word VAL[23:16] = 0 and a cause that can be recorded (R63, R116). -/
def legalResponse (w : Word) : Bool :=
  let v := respVal w
  if respTag w = 0x02 then v == 0 || v == 1
  else if respTag w = 0x11 || respTag w = 0x12 then v != 0
  else if respTag w = 0x30 || respTag w = 0x40 then v == 1 || v == 3
  else if respTag w = 0xFF then
    v.extractLsb' 16 8 == 0 && decide (1 ≤ v.extractLsb' 0 8) && decide (v.extractLsb' 0 8 ≤ 9)
  else
    respTag w == 0x20 || respTag w == 0x41 || respTag w == 0xF0 || respTag w == 0xF1 ||
      respTag w == 0xF2 || respTag w == 0xF3

/-- The result of a PIPE.RUN from the response words after it: the drive values of the PIPE.DRIVE words
before its PIPE.DONE. Where no PIPE.DONE ends them the run has no result, and the drive words are
discarded (R108, R138). -/
def pipeResult : List Word → Option (List Int)
  | [] => none
  | w :: ws =>
    if respTag w = 0x40 then (pipeResult ws).map (driveValue w :: ·)
    else if respTag w = 0x41 then some []
    else none

/-- The accumulator a host recovers from a QE response, sval(VAL): exact for |QE| < 2^23 (R139). -/
def qeFromResponse (w : Word) : Int := (respVal w).toInt

end Sys2Proof.Machine
end

