-- ==== Sys2Proof/Machine/Stages.lean ====
section
/-! DEFINITION. The source's stages over whole sequences (R1, R91): samples, modulation, run lengths,
compensated durations, polarity mapping. PIPE.RUN interleaves them per sample (R95). -/

namespace Sys2Proof.Machine

/-- The Sampler: [REF(0, N), …, REF(N, N)], N + 1 samples (R91). -/
def sampleAll (ref : RefSource) (N : Nat) : Option (List Sample) :=
  (List.range (N + 1)).mapM (fun n => RefSource.sample ref n N)

/-- The modulator over a sequence of samples from accumulator q (R70): the symbol codes and the last
accumulator, none for OVERFLOW. -/
def modulate : Int → List Int → Option (List Bool × Int)
  | q, [] => some ([], q)
  | q, s :: ss =>
    match dsmStep q s with
    | none => none
    | some (c, q') => (modulate q' ss).map (fun r => (c :: r.1, r.2))

/-- The run-length encoder over a sequence of symbol codes (R77): the counts emitted and the last
registers, none for OVERFLOW. -/
def encodeRuns : RleRegs → List Bool → Option (List U24 × RleRegs)
  | r, [] => some ([], r)
  | r, c :: cs =>
    match rleStep r c with
    | none => none
    | some (e, r') => (encodeRuns r' cs).map (fun x => (e.toList ++ x.1, x.2))

/-- `run_lengths`: the counts of the scan, then the trailing one (R77, R78); none for OVERFLOW and for
an empty sequence. -/
def runLengths (v : List Bool) : Option (List U24) :=
  match encodeRuns RleRegs.clear v with
  | none => none
  | some (ns, r) => (rleEnd r).map (fun x => ns ++ [x.1])

/-- `pad_durations`: lc of each run length (R84), none for OVERFLOW. -/
def padDurations (t : BitVec 8) (ns : List U24) : Option (List U24) := ns.mapM (lc t)

/-- `invert`: pm of each value (R88). -/
def invert (xs : List Nat) : List Int := xs.map pm

/-- The symbols of a PIPE.RUN N: the modulator over the reference samples from QE = 0 (R94, R95). -/
def pipeSymbols (p : Params) (N : Nat) : Option (List Bool) :=
  match sampleAll p.ref N with
  | none => none
  | some xs => (modulate 0 (xs.map BitVec.toInt)).map Prod.fst

/-- The compensated-duration sequence D of a PIPE.RUN N (R96): the stages one after the other. -/
def pipeDurations (p : Params) (N : Nat) : Option (List U24) :=
  match pipeSymbols p N with
  | none => none
  | some v =>
    match runLengths v with
    | none => none
    | some ns => padDurations p.tSwitch ns

/-- Run lengths expanded from the first symbol: r_1 copies of it, then r_2 of the other, and so on
(R82). -/
def expandRuns : Bool → List Nat → List Bool
  | _, [] => []
  | c, n :: ns => List.replicate n c ++ expandRuns (!c) ns

end Sys2Proof.Machine
end

