-- ==== Sys2Proof/Safety.lean ====
section
/-! DEFINITION. The terms the statements use: what a safe outcome is, the invariant that every step
keeps, sequences of commands, and the faults that can be recorded. -/

namespace Sys2Proof.Machine

/-- The model goes on: neither a fault of the model nor a refusal. -/
def goesOn (o : Outcome) : Prop := ∃ t, o = .next t

/-- k steps of the machine, stopping where it stops. -/
def runSteps : Nat → State → Outcome
  | 0, s => .next s
  | k + 1, s =>
    match step s with
    | .next t => runSteps k t
    | .fault f => .fault f
    | .refused r => .refused r

/-- Several commands, each to completion, in order (R45); for commands other than PIPE.RUN, which only
starts here. -/
def execAll : List Instr → State → Outcome
  | [], s => .next s
  | i :: is, s =>
    match exec i s with
    | .next t => execAll is t
    | .fault f => .fault f
    | .refused r => .refused r

/-- The FOP that a recorded cause comes with (R116), less the pairs the spec calls unreachable. -/
def legalFault : Cause → Byte → Bool
  | .none, f => f == 0
  | .illegalCommand, _ => true
  | .rleEmpty, f => f == 0x12
  | .accOverflow, f => f == 0x02
  | .countOverflow, f => f == 0x11
  | .durOverflow, f => f == 0x20
  | .badN, f => f == 0x40
  | .capacity, f => f == 0x40
  | .execError, f => f == 0x40
  | .execProtocol, f => f == 0x40

/-- What holds in every PHASE. -/
structure State.BaseInv (s : State) : Prop where
  /-- The parameters are in the ranges of R5. -/
  params : s.params.wf = true
  /-- SEG_BUF is in canonical form. -/
  segWf : s.segBuf.wf = true
  /-- Every written index is below MAX_SEG (R37). -/
  segBound : ∀ e ∈ s.segBuf, e.1 < s.params.maxSeg
  /-- RLE_STARTED = 0 comes with RLE_LAST = 0 and RLE_COUNT = 0 (R17). -/
  rleFresh : s.rleStarted = false → s.rle = RleRegs.clear
  /-- RLE_STARTED = 1 comes with RLE_COUNT ≥ 1 (R17). -/
  rleRun : s.rleStarted = true → 1 ≤ s.rleCount.toNat
  /-- SMP_N is 0 or an accepted N (R19, R93). -/
  smpNRange : s.smpN.toNat ≤ s.params.maxN
  /-- SMP_IDX ∈ [0, MAX_N + 1] (R20). -/
  smpIdxRange : s.smpIdx ≤ s.params.maxN + 1
  /-- SEG_K ∈ [0, MAX_SEG] (R21). -/
  segKRange : s.segK ≤ s.params.maxSeg
  /-- HND_IDX ∈ [0, MAX_SEG] (R24). -/
  hndIdxRange : s.hndIdx ≤ s.params.maxSeg
  /-- CAUSE is none exactly outside FAULTED (R26). -/
  causePhase : s.phase = .faulted ↔ s.cause ≠ .none
  /-- FOP is the OP that can raise CAUSE, and 0 with no fault (R27, R116). -/
  faultPair : legalFault s.cause s.fop = true

/-- What holds in COMPUTE (R95, R105): the durations so far and the run so far account for the samples
taken, T_SWITCH ticks each. -/
structure State.ComputeInv (s : State) : Prop where
  nPos : 1 ≤ s.smpN.toNat
  idxRange : s.smpIdx ≤ s.smpN.toNat + 1
  qeLow : -Config.one ≤ s.qe.toInt
  qeHigh : s.qe.toInt ≤ Config.one
  started : s.rleStarted = decide (0 < s.smpIdx)
  runs : s.segK + s.rleCount.toNat ≤ s.smpIdx
  notStarted : s.execStarted = false
  noWords : s.execH = []
  noTicks : s.ticks = 0
  durations : ∃ ds, segReadAll s s.segK = .ok ds ∧
    totalSum s.params.tSwitch ds + s.params.tSwitch.toNat * s.rleCount.toNat =
      s.params.tSwitch.toNat * s.smpIdx

/-- What holds in HANDOFF (R96 to R98): TOTAL is formed, and EXEC_H is the reverse of the entries from
HND_IDX on. -/
structure State.HandoffInv (s : State) : Prop where
  nPos : 1 ≤ s.smpN.toNat
  idx : s.smpIdx = s.smpN.toNat + 1
  rleDone : s.rle = RleRegs.clear
  segKPos : 1 ≤ s.segK
  segKBound : s.segK ≤ s.smpN.toNat + 1
  hndRange : s.hndIdx ≤ s.segK
  notStarted : s.execStarted = false
  noTicks : s.ticks = 0
  total : s.total.toNat = s.params.tSwitch.toNat * (s.smpN.toNat + 1)
  durations : ∃ ds, segReadAll s s.segK = .ok ds ∧
    totalSum s.params.tSwitch ds = s.total.toNat ∧ s.execH = (ds.drop s.hndIdx).reverse

/-- What holds in OBSERVE (R99, R100): the executor was started with TOTAL and with the reverse of all
entries, and no more pin states were taken than TOTAL. -/
structure State.ObserveInv (s : State) : Prop where
  nPos : 1 ≤ s.smpN.toNat
  idx : s.smpIdx = s.smpN.toNat + 1
  rleDone : s.rle = RleRegs.clear
  handedOff : s.hndIdx = 0
  started : s.execStarted = true
  duration : s.execDur = s.total
  ticksRange : s.ticks.toNat ≤ s.total.toNat
  total : s.total.toNat = s.params.tSwitch.toNat * (s.smpN.toNat + 1)
  durations : ∃ ds, segReadAll s s.segK = .ok ds ∧
    totalSum s.params.tSwitch ds = s.total.toNat ∧ s.execH = ds.reverse

/-- The machine's invariant. -/
structure State.Inv (s : State) : Prop where
  base : s.BaseInv
  idle : s.phase = .idle → s.execStarted = false
  compute : s.phase = .compute → s.ComputeInv
  handoff : s.phase = .handoff → s.HandoffInv
  observe : s.phase = .observe → s.ObserveInv

end Sys2Proof.Machine
end

