-- ==== Sys2Proof/Certificates/Slice0/Obligations.lean ====
section
/-! DEFINITION. The statements for the provers. Each names the rule of spec/ it formalises; a clause
that rests on a choice of the model names its log entry. -/

open Sys2Proof Sys2Proof.Machine

/-! ### Encoding -/

/-- Decoding the word of a command gives that command, for every command and every operand. -/
def Obligations.DecodeOfEncodeIsTheCommand : Prop := ∀ i : Instr, decode (encode i) = .ok i

/-- R53, R58, R64: a word decodes exactly when its OP is assigned and no reserved ARG bit is set, and a
word that decodes is the encoding of the command it decodes to, so every legal word has one meaning. -/
def Obligations.LegalWordsAreExactlyTheEncodings : Prop :=
  ∀ w : Word, (wordWf w = true ↔ ∃ i, decode w = .ok i) ∧ ∀ i, decode w = .ok i → encode i = w

/-- R59: the rows are pairwise disjoint, each mask covers bits [31:24], decoding answers the row that
matches, and a word that no row matches is ILLEGAL. -/
def Obligations.RowsAreDisjointAndDecide : Prop :=
  rows.Pairwise (fun a b => ∀ w : Word, ¬(w &&& a.mask = a.pattern ∧ w &&& b.mask = b.pattern)) ∧
  (∀ r ∈ rows, r.mask &&& 0xFF000000 = 0xFF000000) ∧
  (∀ w : Word, ∀ r ∈ rows, w &&& r.mask = r.pattern → decode w = .ok (r.build w)) ∧
  (∀ w : Word, (∀ r ∈ rows, w &&& r.mask ≠ r.pattern) → ∃ e, decode w = .error e)

/-- Words written out from R58 decode to the commands they stand for (one per family). -/
def Obligations.KnownWordsDecode : Prop :=
  decode 0x00000000 = .ok .nop ∧ decode 0x0200C000 = .ok (.dsmIn 0xC000) ∧
  decode 0x11000001 = .ok (.rleIn true) ∧ decode 0x20000004 = .ok (.lcIn 4) ∧
  decode 0x30800000 = .ok (.pmIn 0x800000) ∧ decode 0x40000FFF = .ok (.pipeRun 4095) ∧
  decode 0xF3000000 = .ok .cntRd ∧ decode 0x02FFC000 = .error (.reservedBits 0x02) ∧
  decode 0xF4000000 = .error (.unassignedOp 0xF4)

/-! ### Control and status commands -/

/-- R111: NOP does nothing, in IDLE and in FAULTED; its word is 0x00000000, and a nonzero ARG makes the
word illegal. -/
def Obligations.NopDoesNothing : Prop :=
  decode 0x00000000 = .ok .nop ∧
  (∀ w : Word, opField w = 0x00 → w ≠ 0 → decode w = .error (.reservedBits 0x00)) ∧
  ∀ s : State, s.phase = .idle ∨ s.phase = .faulted → exec .nop s = .next s

/-- R112, R29: STAT.RD emits STATUS and changes nothing else, in IDLE and in FAULTED; each STATUS field
stands at its bits and the reserved bits read 0. -/
def Obligations.StatRdEmitsStatus : Prop :=
  decode 0xF0000000 = .ok .statRd ∧
  ∀ s : State, s.phase = .idle ∨ s.phase = .faulted →
    ∃ v : U24, exec .statRd s = .next { s with rsp := s.rsp ++ [(0xF0 : Byte) ++ v] } ∧
      v.getLsbD 0 = decide (s.phase = .faulted) ∧ v.getLsbD 1 = s.rleStarted ∧
      v.getLsbD 2 = s.rleLast ∧ v.getLsbD 3 = false ∧ v.extractLsb' 4 3 = s.phase.code ∧
      v.getLsbD 7 = false ∧ v.extractLsb' 8 8 = s.cause.code ∧ v.extractLsb' 16 8 = s.fop

/-- R113, R30: CFG.RD emits CONFIG, whose fields stand at their bits, and changes nothing else, in IDLE
and in FAULTED; with the default parameters it emits 0xF11E0C03. -/
def Obligations.CfgRdEmitsConfig : Prop :=
  decode 0xF1000000 = .ok .cfgRd ∧
  (∀ s : State, s.phase = .idle ∨ s.phase = .faulted →
    ∃ v : U24, exec .cfgRd s = .next { s with rsp := s.rsp ++ [(0xF1 : Byte) ++ v] } ∧
      v.extractLsb' 0 8 = s.params.tSwitch ∧
      (s.params.wf = true → (v.extractLsb' 8 5).toNat = s.params.maxNLog2) ∧
      v.extractLsb' 13 3 = 0 ∧ v.extractLsb' 16 4 = 14 ∧ v.extractLsb' 20 4 = 1) ∧
  ∀ s : State, s.phase = .idle ∨ s.phase = .faulted → s.params = Params.default →
    exec .cfgRd s = .next { s with rsp := s.rsp ++ [0xF11E0C03] }

/-- R114, R139: QE.RD emits QE[23:0] and changes nothing else, in IDLE and in FAULTED; the host recovers
QE from it exactly when QE is in int24, and always when every sample since a clear was in
[−16384, 16384]. -/
def Obligations.QeRdEmitsTheLowBits : Prop :=
  decode 0xF2000000 = .ok .qeRd ∧
  (∀ s : State, s.phase = .idle ∨ s.phase = .faulted →
    exec .qeRd s = .next { s with rsp := s.rsp ++ [(0xF2 : Byte) ++ s.qe.extractLsb' 0 24] }) ∧
  (∀ q : Acc, qeFromResponse ((0xF2 : Byte) ++ q.extractLsb' 0 24) = q.toInt ↔
    -2 ^ 23 ≤ q.toInt ∧ q.toInt < 2 ^ 23) ∧
  ∀ (xs : List Sample) (s t : State), s.phase = .idle → s.qe = 0 →
    (∀ x ∈ xs, -16384 ≤ x.toInt ∧ x.toInt ≤ 16384) →
    execAll (xs.map Instr.dsmIn) s = .next t →
    qeFromResponse ((0xF2 : Byte) ++ t.qe.extractLsb' 0 24) = t.qe.toInt

/-- R115: CNT.RD emits RLE_COUNT and changes nothing else, in IDLE and in FAULTED; it reads 0 when
RLE_STARTED = 0 in every state of the invariant. -/
def Obligations.CntRdEmitsTheRunCount : Prop :=
  decode 0xF3000000 = .ok .cntRd ∧
  (∀ s : State, s.phase = .idle ∨ s.phase = .faulted →
    exec .cntRd s = .next { s with rsp := s.rsp ++ [(0xF3 : Byte) ++ s.rleCount] }) ∧
  ∀ s : State, s.Inv → s.rleStarted = false → s.rleCount = 0

/-! ### Delta-sigma modulator -/

/-- R72: DSM.CLR writes QE = 0 and nothing else in IDLE; FAULTED answers it with the recorded FAULT
word. -/
def Obligations.DsmClrClearsTheAccumulator : Prop :=
  decode 0x01000000 = .ok .dsmClr ∧
  (∀ s : State, s.phase = .idle → exec .dsmClr s = .next { s with qe := 0 }) ∧
  ∀ s : State, s.phase = .faulted →
    exec .dsmClr s = .next (emit 0xFF (0#8 ++ s.fop ++ s.cause.code) s)

/-- R70, R71: dsm_step adds the sample exactly, overflows exactly outside int32, answers +1 exactly for
a positive sum, and leaves the sum less the symbol, which is again in int32. -/
def Obligations.DsmStepIsTheRecurrence : Prop :=
  ∀ q x : Int,
    (q + x < -2 ^ 31 ∨ 2 ^ 31 - 1 < q + x → dsmStep q x = none) ∧
    (-2 ^ 31 ≤ q + x → q + x ≤ 0 →
      dsmStep q x = some (false, q + x + 16384) ∧ -2 ^ 31 ≤ q + x + 16384 ∧
        q + x + 16384 ≤ 16384) ∧
    (0 < q + x → q + x ≤ 2 ^ 31 - 1 →
      dsmStep q x = some (true, q + x - 16384) ∧ 1 - 16384 ≤ q + x - 16384 ∧
        q + x - 16384 ≤ 2 ^ 31 - 1)

/-- R73: DSM.IN takes one sample and emits one symbol; out of int32 it faults and leaves QE; FAULTED
answers the recorded FAULT word; a word with ARG[23:16] ≠ 0 is illegal; the first reachable overflows
are the 131080th sample 32767 and the 131072nd sample −32768 after a clear. -/
def Obligations.DsmInTakesOneSample : Prop :=
  (∀ x : Sample, decode ((0x02 : Byte) ++ 0#8 ++ x) = .ok (.dsmIn x)) ∧
  (∀ w : Word, opField w = 0x02 → (argField w).extractLsb' 16 8 ≠ 0 →
    decode w = .error (.reservedBits 0x02)) ∧
  (∀ (x : Sample) (s : State), s.phase = .idle →
    s.qe.toInt + x.toInt < -2 ^ 31 ∨ 2 ^ 31 - 1 < s.qe.toInt + x.toInt →
    exec (.dsmIn x) s = .next { s with
      cause := .accOverflow, fop := 0x02, phase := .faulted, rsp := s.rsp ++ [0xFF000203] }) ∧
  (∀ (x : Sample) (s : State), s.phase = .idle →
    -2 ^ 31 ≤ s.qe.toInt + x.toInt → s.qe.toInt + x.toInt ≤ 0 →
    exec (.dsmIn x) s = .next { s with
      qe := BitVec.ofInt 32 (s.qe.toInt + x.toInt + 16384), rsp := s.rsp ++ [0x02000000] } ∧
    s.qe.toInt + x.toInt + 16384 ≤ 2 ^ 31 - 1 - 16384) ∧
  (∀ (x : Sample) (s : State), s.phase = .idle →
    0 < s.qe.toInt + x.toInt → s.qe.toInt + x.toInt ≤ 2 ^ 31 - 1 →
    exec (.dsmIn x) s = .next { s with
      qe := BitVec.ofInt 32 (s.qe.toInt + x.toInt - 16384), rsp := s.rsp ++ [0x02000001] } ∧
    -2 ^ 31 + 16384 ≤ s.qe.toInt + x.toInt - 16384) ∧
  (∀ (x : Sample) (s : State), s.phase = .faulted →
    exec (.dsmIn x) s = .next (emit 0xFF (0#8 ++ s.fop ++ s.cause.code) s)) ∧
  (∀ s : State, s.phase = .idle → s.qe = 0 →
    ∃ t, execAll (List.replicate 131079 (.dsmIn 0x7FFF)) s = .next t ∧ t.phase = .idle ∧
      t.qe.toInt = 2147467257 ∧ ∃ u, exec (.dsmIn 0x7FFF) t = .next u ∧ u.cause = .accOverflow) ∧
  ∀ s : State, s.phase = .idle → s.qe = 0 →
    ∃ t, execAll (List.replicate 131071 (.dsmIn 0x8000)) s = .next t ∧ t.phase = .idle ∧
      t.qe.toInt = -2147467264 ∧ ∃ u, exec (.dsmIn 0x8000) t = .next u ∧ u.cause = .accOverflow

/-- R74: samples in [−ONE, ONE] from QE in [−ONE, ONE] never overflow and keep QE in [−ONE, ONE]. -/
def Obligations.BoundedSamplesKeepTheAccumulatorBounded : Prop :=
  ∀ (xs : List Sample) (s : State), s.phase = .idle →
    -16384 ≤ s.qe.toInt → s.qe.toInt ≤ 16384 →
    (∀ x ∈ xs, -16384 ≤ x.toInt ∧ x.toInt ≤ 16384) →
    ∃ t, execAll (xs.map Instr.dsmIn) s = .next t ∧ t.phase = .idle ∧ t.cause = s.cause ∧
      -16384 ≤ t.qe.toInt ∧ t.qe.toInt ≤ 16384

/-- R75: after m samples from QE = 0 with no overflow, QE is the sum of the samples less ONE times the
sum of the symbols, which are the ones the DSM.Y responses carry. -/
def Obligations.AccumulatorTelescopes : Prop :=
  ∀ (xs : List Sample) (s t : State), s.phase = .idle → s.qe = 0 →
    execAll (xs.map Instr.dsmIn) s = .next t → t.phase = .idle →
    ∃ ys : List Bool, ys.length = xs.length ∧
      t.rsp = s.rsp ++ ys.map (fun c => (0x02 : Byte) ++ (0#23 ++ BitVec.ofBool c)) ∧
      t.qe.toInt = (xs.map BitVec.toInt).sum - 16384 * (ys.map sym).sum

/-- R76: for a constant sample c with |c| ≤ ONE and P symbols +1 in m steps from QE = 0,
|P − m·(1 + c/ONE)/2| ≤ 1/2, and so |P/m − (c/ONE + 1)/2| ≤ 1/(2m). -/
def Obligations.SymbolDensityFollowsTheSample : Prop :=
  ∀ (c : Sample) (m : Nat) (s : State), s.phase = .idle → s.qe = 0 →
    -16384 ≤ c.toInt → c.toInt ≤ 16384 →
    ∃ (t : State) (ys : List Bool),
      execAll (List.replicate m (.dsmIn c)) s = .next t ∧ ys.length = m ∧
      t.rsp = s.rsp ++ ys.map (fun c => (0x02 : Byte) ++ (0#23 ++ BitVec.ofBool c)) ∧
      |(ys.count true : ℚ) - m * (1 + (c.toInt : ℚ) / 16384) / 2| ≤ 1 / 2 ∧
      (0 < m →
        |(ys.count true : ℚ) / m - ((c.toInt : ℚ) / 16384 + 1) / 2| ≤ 1 / (2 * (m : ℚ)))

/-! ### Run-length encoder -/

/-- R79: RLE.CLR makes the encoder's registers (0, 0, 0) and emits nothing, in IDLE; FAULTED answers it
with the recorded FAULT word. -/
def Obligations.RleClrAbandonsTheSequence : Prop :=
  decode 0x10000000 = .ok .rleClr ∧
  (∀ s : State, s.phase = .idle →
    exec .rleClr s = .next { s with rleStarted := false, rleLast := false, rleCount := 0 }) ∧
  ∀ s : State, s.phase = .faulted →
    exec .rleClr s = .next (emit 0xFF (0#8 ++ s.fop ++ s.cause.code) s)

/-- R77: rle_step emits the count exactly when a started sequence's symbol changes, restarts the count
at 1 there, counts on otherwise, and overflows exactly when a run would reach 2^24 symbols. -/
def Obligations.RleStepCountsRuns : Prop :=
  ∀ (st : RleRegs) (c : Bool),
    (st.started = true ∧ c ≠ st.last →
      rleStep st c = some (some st.count, { started := true, last := c, count := 1 })) ∧
    (st.started = false ∨ c = st.last → st.count.toNat + 1 ≤ 2 ^ 24 - 1 →
      rleStep st c = some (none, { started := true, last := c, count := st.count + 1 })) ∧
    (st.started = false ∨ c = st.last → 2 ^ 24 - 1 < st.count.toNat + 1 → rleStep st c = none)

/-- R80: RLE.IN emits the run that ended and starts a new one, or counts on, or faults at 2^24 symbols
and leaves the registers; FAULTED answers the recorded FAULT word; a word with ARG[23:1] ≠ 0 is
illegal; an emitted value is at least 1 in every state of the invariant. -/
def Obligations.RleInTakesOneSymbol : Prop :=
  (∀ c : Bool, decode ((0x11 : Byte) ++ 0#23 ++ BitVec.ofBool c) = .ok (.rleIn c)) ∧
  (∀ w : Word, opField w = 0x11 → (argField w).extractLsb' 1 23 ≠ 0 →
    decode w = .error (.reservedBits 0x11)) ∧
  (∀ (c : Bool) (s : State), s.phase = .idle → s.rleStarted = true → c ≠ s.rleLast →
    exec (.rleIn c) s = .next { s with
      rleLast := c, rleCount := 1, rsp := s.rsp ++ [(0x11 : Byte) ++ s.rleCount] }) ∧
  (∀ (c : Bool) (s : State), s.phase = .idle → s.rleStarted = false ∨ c = s.rleLast →
    s.rleCount.toNat < 2 ^ 24 - 1 →
    exec (.rleIn c) s = .next { s with
      rleStarted := true, rleLast := c, rleCount := s.rleCount + 1 }) ∧
  (∀ (c : Bool) (s : State), s.phase = .idle → s.rleStarted = false ∨ c = s.rleLast →
    s.rleCount.toNat = 2 ^ 24 - 1 →
    exec (.rleIn c) s = .next { s with
      cause := .countOverflow, fop := 0x11, phase := .faulted, rsp := s.rsp ++ [0xFF001104] }) ∧
  (∀ (c : Bool) (s : State), s.phase = .faulted →
    exec (.rleIn c) s = .next (emit 0xFF (0#8 ++ s.fop ++ s.cause.code) s)) ∧
  ∀ s : State, s.Inv → s.rleStarted = true → 1 ≤ s.rleCount.toNat

/-- R78, R81: RLE.END emits the last run and clears the encoder, or faults where no symbol was taken, so
that a second RLE.END faults; FAULTED answers the recorded FAULT word. -/
def Obligations.RleEndEmitsTheLastRun : Prop :=
  decode 0x12000000 = .ok .rleEnd ∧
  (∀ s : State, s.phase = .idle → s.rleStarted = true →
    exec .rleEnd s = .next { s with
      rleStarted := false, rleLast := false, rleCount := 0,
      rsp := s.rsp ++ [(0x12 : Byte) ++ s.rleCount] }) ∧
  (∀ s : State, s.phase = .idle → s.rleStarted = false →
    exec .rleEnd s = .next { s with
      cause := .rleEmpty, fop := 0x12, phase := .faulted, rsp := s.rsp ++ [0xFF001202] }) ∧
  (∀ s : State, s.phase = .idle → s.rleStarted = true →
    ∃ t u, exec .rleEnd s = .next t ∧ exec .rleEnd t = .next u ∧ u.cause = .rleEmpty) ∧
  ∀ s : State, s.phase = .faulted →
    exec .rleEnd s = .next (emit 0xFF (0#8 ++ s.fop ++ s.cause.code) s)

/-- R82: RLE.CLR, a non-empty symbol sequence, RLE.END, with no fault, emits k − 1 RLE.RUN words and
one RLE.LAST word whose values expand to the sequence and sum to its length. -/
def Obligations.RunLengthsReconstructTheSymbols : Prop :=
  ∀ (v₁ : Bool) (v : List Bool) (s t : State), s.phase = .idle →
    execAll (.rleClr :: (v₁ :: v).map .rleIn ++ [.rleEnd]) s = .next t → t.phase = .idle →
    ∃ (rs : List U24) (r : U24),
      t.rsp = s.rsp ++ rs.map (fun n => (0x11 : Byte) ++ n) ++ [(0x12 : Byte) ++ r] ∧
      expandRuns v₁ ((rs ++ [r]).map BitVec.toNat) = v₁ :: v ∧
      ((rs ++ [r]).map BitVec.toNat).sum = (v₁ :: v).length

/-- R83: for every symbol sequence whose run-length encoding raises no fault, every run length is at
least 1, there is one more of them than there are changes of symbol, and at least one and at most one per
symbol; for a sequence of 1 to 2^24 − 1 symbols there is no fault. -/
def Obligations.RunLengthBounds : Prop :=
  (∀ (v₁ : Bool) (v : List Bool) (s t : State), s.phase = .idle →
    execAll (.rleClr :: (v₁ :: v).map .rleIn ++ [.rleEnd]) s = .next t → t.phase = .idle →
    ∃ (rs : List U24) (r : U24),
      t.rsp = s.rsp ++ rs.map (fun n => (0x11 : Byte) ++ n) ++ [(0x12 : Byte) ++ r] ∧
      (∀ n ∈ rs ++ [r], 1 ≤ n.toNat) ∧
      rs.length = ((v₁ :: v).zip v).countP (fun p => p.1 != p.2) ∧
      rs.length + 1 ≤ (v₁ :: v).length) ∧
  ∀ (v₁ : Bool) (v : List Bool) (s : State), s.phase = .idle → (v₁ :: v).length ≤ 2 ^ 24 - 1 →
    ∃ t, execAll (.rleClr :: (v₁ :: v).map .rleIn ++ [.rleEnd]) s = .next t ∧ t.phase = .idle

/-! ### Latency compensator -/

/-- R84: lc(n) is max(0, P_TSWITCH·(n − 1)), OVERFLOW exactly above 2^24 − 1; with P_TSWITCH 0 or 1
nothing overflows, with 3 the largest n is 5592406, with 255 it is 65794. -/
def Obligations.LcIsTheCompensationFormula : Prop :=
  (∀ (t : BitVec 8) (n d : U24), lc t n = some d ↔
    (d.toNat : Int) = max 0 ((t.toNat : Int) * ((n.toNat : Int) - 1))) ∧
  (∀ (t : BitVec 8) (n : U24), lc t n = none ↔
    2 ^ 24 - 1 < max 0 ((t.toNat : Int) * ((n.toNat : Int) - 1))) ∧
  (∀ n : U24, lc 0 n ≠ none ∧ lc 1 n ≠ none) ∧
  (∀ n : U24, lc 3 n = none ↔ 5592406 < n.toNat) ∧
  (∀ n : U24, lc 255 n = none ↔ 65794 < n.toNat) ∧
  lc 3 5592406 = some 16777215 ∧ lc 255 65794 = some 16777215

/-- R85: LC.IN emits the compensated duration and writes no register, or faults where it does not fit
24 bits; no word with OP 0x20 is illegal; FAULTED answers the recorded FAULT word. -/
def Obligations.LcInCompensatesOneRun : Prop :=
  (∀ n : U24, decode ((0x20 : Byte) ++ n) = .ok (.lcIn n)) ∧
  (∀ (n : U24) (s : State), s.phase = .idle → s.params.tSwitch.toNat * (n.toNat - 1) < 2 ^ 24 →
    exec (.lcIn n) s = .next { s with
      rsp := s.rsp ++
        [(0x20 : Byte) ++ BitVec.ofNat 24 (s.params.tSwitch.toNat * (n.toNat - 1))] }) ∧
  (∀ (n : U24) (s : State), s.phase = .idle → 2 ^ 24 ≤ s.params.tSwitch.toNat * (n.toNat - 1) →
    exec (.lcIn n) s = .next { s with
      cause := .durOverflow, fop := 0x20, phase := .faulted, rsp := s.rsp ++ [0xFF002005] }) ∧
  ∀ (n : U24) (s : State), s.phase = .faulted →
    exec (.lcIn n) s = .next (emit 0xFF (0#8 ++ s.fop ++ s.cause.code) s)

/-- R86, R87: lc(0) = lc(1) = 0, a step of n from n ≥ 1 adds P_TSWITCH, and lc is non-decreasing, wherever
nothing overflows; a run of length n ≥ 1 costs lc(n) + P_TSWITCH = P_TSWITCH·n ticks, so that for run
lengths that are all at least 1 the compensated durations and P_TSWITCH per segment sum to P_TSWITCH
times the sum of the run lengths. -/
def Obligations.CompensationLaws : Prop :=
  (∀ t : BitVec 8, lc t 0 = some 0 ∧ lc t 1 = some 0) ∧
  (∀ (t : BitVec 8) (n m d e : U24), 1 ≤ n.toNat → m.toNat = n.toNat + 1 →
    lc t n = some d → lc t m = some e → e.toNat = d.toNat + t.toNat) ∧
  (∀ (t : BitVec 8) (n m d e : U24), n.toNat ≤ m.toNat →
    lc t n = some d → lc t m = some e → d.toNat ≤ e.toNat) ∧
  (∀ (t : BitVec 8) (n d : U24), 1 ≤ n.toNat → lc t n = some d →
    d.toNat + t.toNat = t.toNat * n.toNat) ∧
  ∀ (t : BitVec 8) (ns ds : List U24), (∀ n ∈ ns, 1 ≤ n.toNat) → padDurations t ns = some ds →
    (ds.map BitVec.toNat).sum + t.toNat * ns.length = t.toNat * (ns.map BitVec.toNat).sum

/-! ### Polarity mapper -/

/-- R89: PM.IN emits drive code 0b11 for 0 and 0b01 for every other operand and writes no register; no
word with OP 0x30 is illegal; FAULTED answers the recorded FAULT word. -/
def Obligations.PmInMapsTruthiness : Prop :=
  (∀ x : U24, decode ((0x30 : Byte) ++ x) = .ok (.pmIn x)) ∧
  (∀ (x : U24) (s : State), s.phase = .idle →
    exec (.pmIn x) s = .next { s with
      rsp := s.rsp ++ [if x = 0 then 0x30000003 else 0x30000001] }) ∧
  ∀ (x : U24) (s : State), s.phase = .faulted →
    exec (.pmIn x) s = .next (emit 0xFF (0#8 ++ s.fop ++ s.cause.code) s)

/-- R88, R90: pm answers −1 or +1, +1 exactly for a nonzero value, and the drive value a PM.D or
PIPE.DRIVE word carries is read back as that value. -/
def Obligations.PmRangeAndPairing : Prop :=
  ∀ x : Nat, (pm x = -1 ∨ pm x = 1) ∧ (pm x = 1 ↔ x ≠ 0) ∧
    driveValue ((0x30 : Byte) ++ driveVal (pm x)) = pm x ∧
    driveValue ((0x40 : Byte) ++ driveVal (pm x)) = pm x

/-! ### Command acceptance, faults, reset -/

/-- R110, R45, R132: with no outside move pending, in IDLE or FAULTED, a step takes the first word of
the command port, and where it decodes the step is that command, performed on the state without the
word. -/
def Obligations.StepRunsTheDecodedCommand : Prop :=
  ∀ (s : State) (w : Word) (ws : List Word) (i : Instr),
    s.env = [] → s.phase = .idle ∨ s.phase = .faulted → s.cmd = w :: ws → decode w = .ok i →
    step s = exec i { s with cmd := ws }

/-- R110, R117: a step on an illegal word records ILLEGAL_COMMAND with FOP = w[31:24] in IDLE, and in
FAULTED answers the recorded FAULT word and changes nothing else. -/
def Obligations.IllegalWordsFault : Prop :=
  ∀ (s : State) (w : Word) (ws : List Word) (e : Illegal),
    s.env = [] → s.cmd = w :: ws → decode w = .error e →
    (s.phase = .idle → step s = .next { s with
      cmd := ws, cause := .illegalCommand, fop := w.extractLsb' 24 8, phase := .faulted,
      rsp := s.rsp ++ [(0xFF : Byte) ++ (0#8 ++ w.extractLsb' 24 8 ++ (0x01 : Byte))] }) ∧
    (s.phase = .faulted → step s = .next { s with
      cmd := ws, rsp := s.rsp ++ [(0xFF : Byte) ++ (0#8 ++ s.fop ++ s.cause.code)] })

/-- R110, R135: while a PIPE.RUN is in progress no step takes a word from the command port; words wait
in order, and HOST may only write behind them. -/
def Obligations.BusyPortAcceptsNothing : Prop :=
  ∀ s t : State, s.busy = true → step s = .next t → s.env.head? ≠ some .rst →
    t.cmd = s.cmd ∨ ∃ w, s.env.head? = some (.hostWrite w) ∧ t.cmd = s.cmd ++ [w]

/-- R122: in FAULTED every step that is not a reset changes only RSP, the command port and the pending
outside moves, so only reset leaves FAULTED and the first fault's cause is kept. -/
def Obligations.OnlyResetLeavesFaulted : Prop :=
  ∀ s t : State, s.phase = .faulted → step s = .next t → s.env.head? ≠ some .rst →
    t = { s with rsp := t.rsp, cmd := t.cmd, env := t.env }

/-- R118, R119: whatever faults, a command in IDLE or a step of a PIPE.RUN, writes CAUSE, FOP and PHASE,
emits the FAULT word, and writes nothing else; FOP is the command's OP, 0x40 for a PIPE.RUN. -/
def Obligations.FaultEntryIsPrecise : Prop :=
  (∀ (i : Instr) (s t : State), s.phase = .idle → exec i s = .next t → t.phase = .faulted →
    ∃ c, c ≠ Cause.none ∧ t = { s with
      cause := c, fop := i.op, phase := .faulted,
      rsp := s.rsp ++ [(0xFF : Byte) ++ (0#8 ++ i.op ++ c.code)] }) ∧
  ∀ s t : State, s.busy = true → step s = .next t → t.phase = .faulted →
    ∃ c, c ≠ Cause.none ∧ t = { s with
      env := t.env, cause := c, fop := 0x40, phase := .faulted,
      rsp := s.rsp ++ [(0xFF : Byte) ++ (0#8 ++ (0x40 : Byte) ++ c.code)] }

/-- R105, R116: in a state of the invariant, a step of a PIPE.RUN in progress faults only by EXEC_ERROR,
in HANDOFF or OBSERVE, or by EXEC_PROTOCOL, in OBSERVE. -/
def Obligations.AcceptedRunFaultsOnlyByTheExecutor : Prop :=
  ∀ s t : State, s.Inv → s.busy = true → step s = .next t → t.phase = .faulted →
    (t.cause = .execError ∧ (s.phase = .handoff ∨ s.phase = .observe)) ∨
      (t.cause = .execProtocol ∧ s.phase = .observe)

/-- R131, R132: a reset gives, in one step and from every state, the state of R35 with the instance's
parameters, and the first command word HOST writes after it is the first command executed. That SEG_BUF
then lists nothing is the model's choice where R35 leaves its entries unspecified (log 5); that no word
waits in the command port is read from R131 and R132, since the table of R35 does not name the port
(log 10); that the other pending outside moves stay is the model's choice (log 11). -/
def Obligations.ResetFromEveryState : Prop :=
  (∀ (s : State) (es : List Event), s.env = .rst :: es →
    step s = .next { State.reset with params := s.params, env := es }) ∧
  ∀ (s : State) (w : Word) (i : Instr), s.env = [.rst, .hostWrite w] → decode w = .ok i →
    runSteps 3 s = exec i { State.reset with params := s.params }

/-- R35: every register's reset value, and STATUS reads 0 after reset. -/
def Obligations.ResetValues : Prop :=
  State.reset.qe = 0 ∧ State.reset.rleStarted = false ∧ State.reset.rleLast = false ∧
  State.reset.rleCount = 0 ∧ State.reset.phase = .idle ∧ State.reset.smpN = 0 ∧
  State.reset.smpIdx = 0 ∧ State.reset.segK = 0 ∧ State.reset.total = 0 ∧ State.reset.hndIdx = 0 ∧
  State.reset.ticks = 0 ∧ State.reset.cause = .none ∧ State.reset.fop = 0 ∧
  configWord State.reset.params = 0x1E0C03 ∧ State.reset.rsp = [] ∧ State.reset.execH = [] ∧
  State.reset.execStarted = false ∧ State.reset.execDur = 0 ∧ State.reset.statusWord = 0

/-- R10, R34, R45: HOST's moves: a word is written behind the ones that wait, a response is taken from
the front, and nothing else changes. That taking from an empty RSP changes nothing is the model's choice
(log 25). While no move is pending and no word waits, IDLE and FAULTED wait (the model's stutter,
log 9). -/
def Obligations.HostMovesOnlyTouchTheStreams : Prop :=
  (∀ (s : State) (w : Word) (es : List Event), s.env = .hostWrite w :: es →
    step s = .next { s with env := es, cmd := s.cmd ++ [w] }) ∧
  (∀ (s : State) (r : Word) (rs : List Word) (es : List Event), s.env = .hostTake :: es →
    s.rsp = r :: rs → step s = .next { s with env := es, rsp := rs }) ∧
  (∀ (s : State) (es : List Event), s.env = .hostTake :: es → s.rsp = [] →
    step s = .next { s with env := es }) ∧
  ∀ s : State, s.env = [] → s.phase = .idle ∨ s.phase = .faulted → s.cmd = [] → step s = .next s

/-- The model's choice (log 7): that the outside world's moves stand in a list, that one of them is `quiet`,
in which nothing happens outside, and that such a move leaves the step to the CORE. R7 and R121 say that
three agents take steps one at a time and name no such move; every interleaving they admit runs through
it. The step at `quiet` is the step the CORE takes with no move pending, whatever that step is, and the
later moves stay pending: what is stated of a step with no pending move holds of every such step. -/
def Obligations.QuietMovesLeaveTheStepToTheCore : Prop :=
  ∀ (s : State) (es : List Event), s.env = .quiet :: es →
    step s =
      match step { s with env := [] } with
      | .next t => .next { t with env := es }
      | .fault f => .fault f
      | .refused r => .refused r

/-! ### The pipeline -/

/-- R93, R94: PIPE.RUN N faults with BAD_N for N = 0 and CAPACITY for N > MAX_N, and otherwise starts a
fresh run; no word with OP 0x40 is illegal; FAULTED answers the recorded FAULT word. -/
def Obligations.PipeRunChecksAndStarts : Prop :=
  (∀ n : U24, decode ((0x40 : Byte) ++ n) = .ok (.pipeRun n)) ∧
  (∀ s : State, s.phase = .idle →
    exec (.pipeRun 0) s = .next { s with
      cause := .badN, fop := 0x40, phase := .faulted, rsp := s.rsp ++ [0xFF004006] }) ∧
  (∀ (n : U24) (s : State), s.phase = .idle → n ≠ 0 → s.params.maxN < n.toNat →
    exec (.pipeRun n) s = .next { s with
      cause := .capacity, fop := 0x40, phase := .faulted, rsp := s.rsp ++ [0xFF004007] }) ∧
  (∀ (n : U24) (s : State), s.phase = .idle → n ≠ 0 → n.toNat ≤ s.params.maxN →
    exec (.pipeRun n) s = .next { s with
      smpN := n, smpIdx := 0, qe := 0, rleStarted := false, rleLast := false, rleCount := 0,
      segK := 0, total := 0, hndIdx := 0, ticks := 0, execH := [], execStarted := false,
      execDur := 0, phase := .compute }) ∧
  ∀ (n : U24) (s : State), s.phase = .faulted →
    exec (.pipeRun n) s = .next (emit 0xFF (0#8 ++ s.fop ++ s.cause.code) s)

/-- R95, in the states of a run: the sample step reads REF(SMP_IDX, SMP_N), modulates, encodes, and
where a run ended appends its compensated duration at SEG_K; it emits no response and writes nothing
else. -/
def Obligations.SampleStepAdvancesTheRun : Prop :=
  ∀ s : State, s.Inv → s.phase = .compute → s.env = [] → s.smpIdx ≤ s.smpN.toNat →
    ∃ (x : Sample) (c : Bool) (q : Int) (e : Option U24) (r : RleRegs),
      RefSource.sample s.params.ref s.smpIdx s.smpN.toNat = some x ∧
      dsmStep s.qe.toInt x.toInt = some (c, q) ∧ rleStep s.rle c = some (e, r) ∧
      (e = none → step s = .next { s with
        qe := BitVec.ofInt 32 q, rleStarted := r.started, rleLast := r.last, rleCount := r.count,
        smpIdx := s.smpIdx + 1 }) ∧
      ∀ n, e = some n → ∃ d, lc s.params.tSwitch n = some d ∧ step s = .next { s with
        qe := BitVec.ofInt 32 q, rleStarted := r.started, rleLast := r.last, rleCount := r.count,
        smpIdx := s.smpIdx + 1, segBuf := s.segBuf.write s.segK d, segK := s.segK + 1 }

/-- R96, R97, in the states of a run: the flush step appends the trailing run's duration, forms TOTAL
from all entries and P_TSWITCH per segment, and enters HANDOFF. -/
def Obligations.FlushStepFormsTotal : Prop :=
  ∀ s : State, s.Inv → s.phase = .compute → s.env = [] → s.smpIdx = s.smpN.toNat + 1 →
    ∃ (d : U24) (ds : List U24),
      lc s.params.tSwitch s.rleCount = some d ∧ segReadAll s s.segK = .ok ds ∧
      (ds.map BitVec.toNat).sum + d.toNat + s.params.tSwitch.toNat * (s.segK + 1) < 2 ^ 24 ∧
      step s = .next { s with
        rleStarted := false, rleLast := false, rleCount := 0,
        segBuf := s.segBuf.write s.segK d, segK := s.segK + 1,
        total := BitVec.ofNat 24
          ((ds.map BitVec.toNat).sum + d.toNat + s.params.tSwitch.toNat * (s.segK + 1)),
        hndIdx := s.segK + 1, phase := .handoff }

/-- R95's claim and R105: a PIPE.RUN accepted in IDLE reaches HANDOFF after its N + 1 sample steps and
the flush step, and SEG_BUF then holds exactly what the stages give one after the other over the whole
sequence: sample, modulate, run-length encode, compensate. TOTAL = P_TSWITCH·(N + 1), and there are 1
to N + 1 segments. The statement is about a run in which no outside move is pending. -/
def Obligations.PipelineComputesTheStages : Prop :=
  ∀ (s s₀ : State) (n : U24), s.Inv → s.phase = .idle → s.env = [] → n ≠ 0 →
    n.toNat ≤ s.params.maxN → exec (.pipeRun n) s = .next s₀ →
    ∃ (v : List Bool) (ns ds : List U24) (t : State),
      pipeSymbols s.params n.toNat = some v ∧ v.length = n.toNat + 1 ∧ runLengths v = some ns ∧
      padDurations s.params.tSwitch ns = some ds ∧
      runSteps (n.toNat + 2) s₀ = .next t ∧ t.phase = .handoff ∧ t.rsp = s.rsp ∧
      t.segK = ds.length ∧ t.hndIdx = ds.length ∧ segReadAll t t.segK = .ok ds ∧
      1 ≤ ds.length ∧ ds.length ≤ n.toNat + 1 ∧
      t.total.toNat = s.params.tSwitch.toNat * (n.toNat + 1)

/-- R98 in the states of a run, and R99: a handoff step delivers the entry at HND_IDX − 1, and after SEG_K
of them EXEC_H is the reverse of D; at HND_IDX = 0 the executor is started with P_PROGRAM, TOTAL,
EXEC_H, one side-set pin and base 0, PHASE becomes OBSERVE, and nothing else is written. -/
def Obligations.HandoffDeliversInReverseAndStarts : Prop :=
  (∀ s : State, s.Inv → s.phase = .handoff → s.env = [] → 0 < s.hndIdx →
    ∃ w, segRead (s.hndIdx - 1) s = .ok w ∧
      step s = .next { s with hndIdx := s.hndIdx - 1, execH := s.execH ++ [w] }) ∧
  (∀ s : State, s.Inv → s.phase = .handoff → s.env = [] → s.hndIdx = s.segK →
    ∃ ds t, segReadAll s s.segK = .ok ds ∧ runSteps s.segK s = .next t ∧ t.hndIdx = 0 ∧
      t.phase = .handoff ∧ t.execH = ds.reverse) ∧
  ∀ s : State, s.phase = .handoff → s.env = [] → s.hndIdx = 0 →
    ∃ t, step s = .next t ∧
      t = { s with execStarted := true, execDur := s.total, phase := .observe } ∧
      t.execInputs = { program := Config.program, duration := s.total, fifo := s.execH,
                       sidesetCount := 1, sidesetBase := 0 }

/-- R100, R102: in OBSERVE a pin state is mapped, emitted as PIPE.DRIVE and counted, or faults with
EXEC_PROTOCOL at TICKS = TOTAL; an executor error in HANDOFF or OBSERVE faults with EXEC_ERROR. In every
other PHASE a pin state or termination is not accepted, and outside HANDOFF and OBSERVE an error is not
taken: nothing happens (that the offer is then gone is the model's choice, log 12). -/
def Obligations.ExecutorMovesActInTheirPhases : Prop :=
  (∀ (s : State) (b : Bool) (es : List Event), s.env = .pin b :: es → s.phase = .observe →
    s.ticks = s.total → step s = .next { s with
      env := es, cause := .execProtocol, fop := 0x40, phase := .faulted,
      rsp := s.rsp ++ [0xFF004009] }) ∧
  (∀ (s : State) (b : Bool) (es : List Event), s.env = .pin b :: es → s.phase = .observe →
    s.ticks.toNat < s.total.toNat → step s = .next { s with
      env := es, ticks := s.ticks + 1,
      rsp := s.rsp ++ [if b then 0x40000001 else 0x40000003] }) ∧
  (∀ (s : State) (b : Bool) (es : List Event), s.env = .pin b :: es → s.phase ≠ .observe →
    step s = .next { s with env := es }) ∧
  (∀ (s : State) (es : List Event), s.env = .done :: es → s.phase ≠ .observe →
    step s = .next { s with env := es }) ∧
  (∀ (s : State) (es : List Event), s.env = .execError :: es →
    s.phase = .handoff ∨ s.phase = .observe → step s = .next { s with
      env := es, cause := .execError, fop := 0x40, phase := .faulted,
      rsp := s.rsp ++ [0xFF004008] }) ∧
  ∀ (s : State) (es : List Event), s.env = .execError :: es →
    s.phase ≠ .handoff → s.phase ≠ .observe → step s = .next { s with env := es }

/-- R101: in OBSERVE, termination at TICKS = TOTAL emits PIPE.DONE with TOTAL, clears QE and
EXEC_STARTED and returns to IDLE, keeping every other register; at TICKS ≠ TOTAL it faults with
EXEC_PROTOCOL. -/
def Obligations.TerminationCompletesTheRun : Prop :=
  (∀ (s : State) (es : List Event), s.env = .done :: es → s.phase = .observe →
    s.ticks = s.total → step s = .next { s with
      env := es, qe := 0, execStarted := false, phase := .idle,
      rsp := s.rsp ++ [(0x41 : Byte) ++ s.total] }) ∧
  ∀ (s : State) (es : List Event), s.env = .done :: es → s.phase = .observe →
    s.ticks ≠ s.total → step s = .next { s with
      env := es, cause := .execProtocol, fop := 0x40, phase := .faulted,
      rsp := s.rsp ++ [0xFF004009] }

/-- R103: while the executor offers nothing and there is no reset, the CORE stays in OBSERVE for any
number of steps, whatever HOST writes and takes: only the streams change, as HOST changes them. That a
step in which the CORE waits answers the same state is the model's stutter (log 9), and that a response
taken from an empty RSP changes nothing is log 25. -/
def Obligations.SilentExecutorHangsTheCore : Prop :=
  ∀ (s : State) (k : Nat), s.phase = .observe →
    (∀ e ∈ s.env, e = .quiet ∨ (∃ w, e = .hostWrite w) ∨ e = .hostTake) →
    runSteps k s = .next { s with
      env := s.env.drop k
      cmd := s.cmd ++
        (s.env.take k).filterMap (fun e => match e with | .hostWrite w => some w | _ => none)
      rsp := s.rsp.drop ((s.env.take k).count .hostTake) }

/-- R105, R108: from the start of OBSERVE, exactly TOTAL pin states and then termination end the run in
IDLE with TOTAL PIPE.DRIVE words and one PIPE.DONE word; the run's result is the pin states mapped by
pm, and only −1 and +1 occur in it. The statement is about a run in which HOST makes no move between the
executor's. -/
def Obligations.ObservedRunGivesItsResult : Prop :=
  ∀ (s : State) (pins : List Bool) (es : List Event), s.Inv → s.phase = .observe → s.ticks = 0 →
    pins.length = s.total.toNat → s.env = pins.map Event.pin ++ .done :: es →
    ∃ (t : State) (ws : List Word), runSteps (pins.length + 1) s = .next t ∧ t.phase = .idle ∧
      t.qe = 0 ∧ t.rle = RleRegs.clear ∧ t.env = es ∧
      t.rsp = s.rsp ++ ws ++ [(0x41 : Byte) ++ s.total] ∧ ws.length = s.total.toNat ∧
      pipeResult (ws ++ [(0x41 : Byte) ++ s.total]) = some (invert (pins.map Bool.toNat)) ∧
      ∀ v ∈ invert (pins.map Bool.toNat), v = -1 ∨ v = 1

/-- R108, R119, R138: a run that fails in OBSERVE after some pin states (an executor error, a pin state
past TOTAL, a termination before TOTAL) has emitted exactly their PIPE.DRIVE words and then the FAULT
word, and writes nothing else; an executor error in HANDOFF leaves the FAULT word alone; and response
words with no PIPE.DONE among them, such as these, are no result. -/
def Obligations.FailedRunHasNoResult : Prop :=
  (∀ (s : State) (pins : List Bool) (e : Event) (c : Cause) (es : List Event),
    s.phase = .observe → s.ticks = 0 → s.env = pins.map Event.pin ++ e :: es →
    (e = .execError ∧ pins.length ≤ s.total.toNat ∧ c = .execError) ∨
      ((∃ b, e = .pin b) ∧ pins.length = s.total.toNat ∧ c = .execProtocol) ∨
      (e = .done ∧ pins.length < s.total.toNat ∧ c = .execProtocol) →
    let ws := pins.map (fun b => if b then 0x40000001 else 0x40000003) ++
      [(0xFF : Byte) ++ (0#8 ++ (0x40 : Byte) ++ c.code)]
    runSteps (pins.length + 1) s = .next { s with
      env := es, ticks := BitVec.ofNat 24 pins.length, cause := c, fop := 0x40, phase := .faulted,
      rsp := s.rsp ++ ws } ∧ pipeResult ws = none) ∧
  (∀ (s : State) (es : List Event), s.phase = .handoff → s.env = .execError :: es →
    step s = .next { s with
      env := es, cause := .execError, fop := 0x40, phase := .faulted,
      rsp := s.rsp ++ [0xFF004008] } ∧ pipeResult [0xFF004008] = none) ∧
  ∀ ws : List Word, (∀ w ∈ ws, respTag w ≠ 0x41) → pipeResult ws = none

/-- R105 end to end: a PIPE.RUN accepted in IDLE reaches OBSERVE with the reverse of the stages'
durations delivered and the duration P_TSWITCH·(N + 1), and then any executor that offers exactly that
many pin states and terminates ends it in IDLE with its pin states mapped as the result. The statement
is about a run in which HOST makes no move. -/
def Obligations.PipeRunEndToEnd : Prop :=
  ∀ (s s₀ : State) (n : U24), s.Inv → s.phase = .idle → s.env = [] → n ≠ 0 →
    n.toNat ≤ s.params.maxN → exec (.pipeRun n) s = .next s₀ →
    ∃ (ds : List U24) (k : Nat) (u : State),
      pipeDurations s.params n.toNat = some ds ∧ runSteps k s₀ = .next u ∧ u.phase = .observe ∧
      u.execInputs.fifo = ds.reverse ∧
      u.execInputs.duration.toNat = s.params.tSwitch.toNat * (n.toNat + 1) ∧
      ∀ pins : List Bool, pins.length = s.params.tSwitch.toNat * (n.toNat + 1) →
        ∃ t, runSteps (pins.length + 1) { u with env := pins.map Event.pin ++ [.done] } = .next t ∧
          t.phase = .idle ∧
          pipeResult (t.rsp.drop s.rsp.length) = some (invert (pins.map Bool.toNat))

/-- R106: with the default P_REF the first symbol of every accepted PIPE.RUN is −1. -/
def Obligations.DefaultRunStartsWithMinusOne : Prop :=
  ∀ (p : Params) (N : Nat), p.wf = true → p.ref = .unitSine → 1 ≤ N → N ≤ p.maxN →
    ∃ v, pipeSymbols p N = some (false :: v)

/-- R107: for a symbol sequence that starts with −1, REFEXEC on the reverse of its compensated durations
offers each symbol's level P_TSWITCH times, in order, which is TOTAL pin states. -/
def Obligations.ReferenceExecutorReplaysTheSymbols : Prop :=
  ∀ (t : BitVec 8) (v : List Bool) (ns ds : List U24),
    runLengths (false :: v) = some ns → padDurations t ns = some ds →
    refexecPins t ds.reverse = (false :: v).flatMap (List.replicate t.toNat) ∧
    (refexecPins t ds.reverse).length = totalSum t ds

/-- R39, R92: the default P_REF answers a sample for every 1 ≤ N and 0 ≤ n ≤ N, the default reference
`unitSine`; where 4·n = k·N, that is exactly 0, +16384, 0 or −16384 by k mod 4; so it is 0 at both ends; it
is everywhere in [−16384, 16384]; and the second half mirrors the first with the sign changed. The values
elsewhere are the model's computation of R92's formula (log 3). -/
def Obligations.DefaultReferenceIsExactAtTheQuarters : Prop :=
  (∀ n N : Nat, 1 ≤ N → n ≤ N →
    ∃ x, RefSource.sample .unitSine n N = some x ∧ x.toInt = unitSine n N) ∧
  (∀ N k n : Nat, 1 ≤ N → 4 * n = k * N →
    unitSine n N = if k % 4 = 1 then 16384 else if k % 4 = 3 then -16384 else 0) ∧
  (∀ N : Nat, 1 ≤ N → unitSine 0 N = 0 ∧ unitSine N N = 0) ∧
  (∀ n N : Nat, -16384 ≤ unitSine n N ∧ unitSine n N ≤ 16384) ∧
  ∀ n N : Nat, 1 ≤ N → n ≤ N → unitSine (N - n) N = -unitSine n N

/-- R92's formula and the model's computation of it (log 3): the default reference is an integer at most
1/2 + 2^−30 away from sin(2π·n/N)·16384, for every N and n. -/
def Obligations.DefaultReferenceRoundsTheSine : Prop :=
  ∀ n N : Nat, 1 ≤ N → n ≤ N →
    |(unitSine n N : ℝ) - Real.sin (2 * Real.pi * n / N) * 16384| ≤ 1 / 2 + 1 / 2 ^ 30

/-! ### Whole-machine rules -/

/-- The machine after reset satisfies the invariant. -/
def Obligations.ResetSatisfiesTheInvariant : Prop := State.reset.Inv

/-- The invariant, which R17, R20, R21, R24, R26, R37, R97, R98 and R105 give, is kept by every step. -/
def Obligations.StepKeepsTheInvariant : Prop :=
  ∀ s t : State, s.Inv → step s = .next t → t.Inv

/-- R37, R38, R105: from a state of the invariant the model never stops: no SEG_BUF index is out of
range, no unwritten entry is read, every sample is there, TICKS fits. Where the CORE waits, the step that
answers is the model's stutter (log 9), and where an offer is not accepted, log 12's. -/
def Obligations.InvariantStatesGoOn : Prop := ∀ s : State, s.Inv → goesOn (step s)

/-- R60, R62, R63: every response word in RSP carries one of R60's tags with its VAL laid out as the tag
says, in every step from a state of the invariant. -/
def Obligations.ResponsesStayLegal : Prop :=
  ∀ s t : State, s.Inv → (∀ w ∈ s.rsp, legalResponse w = true) → step s = .next t →
    ∀ w ∈ t.rsp, legalResponse w = true

/-- R45: a step that is neither a reset nor HOST taking a response appends at most one response word and
changes none before it. R5, R30, R134: no step changes the instance's parameters, so CONFIG never
changes. -/
def Obligations.StepsAppendResponsesAndKeepParameters : Prop :=
  (∀ s t : State, step s = .next t → s.env.head? ≠ some .rst → s.env.head? ≠ some .hostTake →
    t.rsp = s.rsp ∨ ∃ w, t.rsp = s.rsp ++ [w]) ∧
  ∀ s t : State, step s = .next t → t.params = s.params ∧ configWord t.params = configWord s.params

/-- R42: the pure commands (NOP, LC.IN, PM.IN and the four reads) change nothing but RSP where they do
not fault. No command changes the command port, SEG_BUF, the parameters or the pending moves; RSP only
grows, by one word at most, by none for NOP; a command that does not fault keeps CAUSE and FOP, and
PHASE too unless it is PIPE.RUN; R136: no command but PIPE.RUN writes the pipeline's registers. While a
PIPE.RUN is in progress the port accepts no command, and `exec` changes nothing there by the model's
choice (log 13). -/
def Obligations.CommandFrames : Prop :=
  ∀ (i : Instr) (s t : State), exec i s = .next t →
    t.params = s.params ∧ t.cmd = s.cmd ∧ t.env = s.env ∧ t.segBuf = s.segBuf ∧
    (t.rsp = s.rsp ∨ i ≠ .nop ∧ ∃ w, t.rsp = s.rsp ++ [w]) ∧
    ((∀ n, i ≠ .pipeRun n) →
      t.smpN = s.smpN ∧ t.smpIdx = s.smpIdx ∧ t.segK = s.segK ∧ t.total = s.total ∧
      t.hndIdx = s.hndIdx ∧ t.ticks = s.ticks ∧ t.execH = s.execH ∧
      t.execStarted = s.execStarted ∧ t.execDur = s.execDur) ∧
    ((∀ x, i ≠ .dsmIn x) → i ≠ .dsmClr → (∀ n, i ≠ .pipeRun n) → t.qe = s.qe) ∧
    ((∀ c, i ≠ .rleIn c) → i ≠ .rleClr → i ≠ .rleEnd → (∀ n, i ≠ .pipeRun n) → t.rle = s.rle) ∧
    ((s.phase = .idle → t.phase ≠ .faulted) →
      t.cause = s.cause ∧ t.fop = s.fop ∧ ((∀ n, i ≠ .pipeRun n) → t.phase = s.phase) ∧
      (i = .nop ∨ (∃ n, i = .lcIn n) ∨ (∃ x, i = .pmIn x) ∨ i = .statRd ∨ i = .cfgRd ∨ i = .qeRd ∨
        i = .cntRd → t = { s with rsp := t.rsp }))

/-! ### The assembler -/

/-- R66 to R69: the word list of a program is the concatenation, in order, of the words of its parts; a
statement that is not well formed is an assembly error and no word is emitted; a well-formed one gives
the words of its expansion, all of them legal; each real statement gives its one word, with its operand
where R67 puts it, or an error out of R67's range; each pseudo-instruction gives the words of the
statements R68 expands it to; DSM.INF gives DSM.IN of r·16384 rounded half away from zero, or an error
outside int16. -/
def Obligations.AssemblerEmitsTheWordList : Prop :=
  (∀ a b : List Stmt, assemble (a ++ b) =
    match assemble a, assemble b with
    | some x, some y => some (x ++ y)
    | _, _ => none) ∧
  (∀ (ss : List Stmt), (∃ st ∈ ss, st.wf = false) → assemble ss = none) ∧
  (∀ st : Stmt, st.wf = true → assemble [st] = some ((expandStmt st).map encode)) ∧
  (∀ (ss : List Stmt) (ws : List Word), assemble ss = some ws → ∀ w ∈ ws, wordWf w = true) ∧
  (assemble [.nop] = some [0x00000000] ∧ assemble [.dsmClr] = some [0x01000000] ∧
    assemble [.rleClr] = some [0x10000000] ∧ assemble [.rleEnd] = some [0x12000000] ∧
    assemble [.statRd] = some [0xF0000000] ∧ assemble [.cfgRd] = some [0xF1000000] ∧
    assemble [.qeRd] = some [0xF2000000] ∧ assemble [.cntRd] = some [0xF3000000]) ∧
  (∀ v : Int, assemble [.dsmIn (.dec v)] =
    if -32768 ≤ v ∧ v ≤ 32767 then some [(0x02 : Byte) ++ 0#8 ++ BitVec.ofInt 16 v] else none) ∧
  (∀ p : Nat, assemble [.dsmIn (.pattern p)] =
    if p ≤ 0xFFFF then some [(0x02 : Byte) ++ 0#8 ++ BitVec.ofNat 16 p] else none) ∧
  (assemble [.rleIn true] = some [0x11000001] ∧ assemble [.rleIn false] = some [0x11000000]) ∧
  (∀ n : Nat,
    assemble [.lcIn n] =
      (if n ≤ 16777215 then some [(0x20 : Byte) ++ BitVec.ofNat 24 n] else none) ∧
    assemble [.pmIn n] =
      (if n ≤ 16777215 then some [(0x30 : Byte) ++ BitVec.ofNat 24 n] else none) ∧
    assemble [.pipeRun n] =
      (if n ≤ 16777215 then some [(0x40 : Byte) ++ BitVec.ofNat 24 n] else none)) ∧
  (∀ (neg : Bool) (digits places : Nat) (q : Int),
    let x : ℚ := (if neg then -1 else 1) * digits / 10 ^ places * 16384
    |(q : ℚ) - x| ≤ 1 / 2 → (|(q : ℚ) - x| = 1 / 2 → |x| < |(q : ℚ)|) →
    assemble [.dsmInf neg digits places] =
      if -32768 ≤ q ∧ q ≤ 32767 then some [(0x02 : Byte) ++ 0#8 ++ BitVec.ofInt 16 q] else none) ∧
  (∀ xs, xs ≠ [] → assemble [.dsmSeq xs] = assemble (.dsmClr :: xs.map .dsmIn)) ∧
  (∀ vs, vs ≠ [] → assemble [.rleSeq vs] = assemble (.rleClr :: vs.map .rleIn ++ [.rleEnd])) ∧
  (∀ ns, ns ≠ [] → assemble [.lcSeq ns] = assemble (ns.map .lcIn)) ∧
  (∀ ns, ns ≠ [] → assemble [.pmSeq ns] = assemble (ns.map .pmIn)) ∧
  (∀ n, assemble [.run n] = assemble [.pipeRun n]) ∧
  assemble [.clrAll] = assemble [.dsmClr, .rleClr] ∧
  assemble [.dsmSeq []] = none ∧ assemble [.rleSeq []] = none ∧ assemble [.lcSeq []] = none ∧
  assemble [.pmSeq []] = none

/-- R66, R68, R69, on text: the words of lines go out in line order, and an error in any line leaves no
word; a comment changes nothing, and a blank line gives nothing; the case of a mnemonic of R58 does not
matter, with an operand or without, and a line whose first word is no mnemonic of R58 and no name of R68
is an error; a pseudo-instruction with its operands gives what the lines of its expansion give. The
model's choices (log 20), since R66 and R68 do not say them: that a line ends at a line feed; that the
blanks are space, tab and carriage return, any number of which may stand before and after a statement;
that at least one blank must stand between a name and its operands, and any number may, so that the first
word of a line reaches to the first blank or to the comment and a name run together with its operand, such
as LC.IN4 or RLE.IN+1, is an unknown word and an error; that the case of a pseudo-instruction's name does
not matter either; and that operands are separated by commas with blanks around them ignored. -/
def Obligations.AssemblerReadsLines : Prop :=
  let blanks := fun l : List Char => ∀ c ∈ l, c = ' ' ∨ c = '\t' ∨ c = '\r'
  let word := fun m : List Char => ∀ c ∈ m, c ∉ [' ', '\t', '\r', ';', '\n']
  let afterWord := fun l : List Char => '\n' ∉ l ∧ ∀ c ∈ l.head?, c ∈ [' ', '\t', '\r', ';']
  (∀ a b : List Char, assembleText (a ++ '\n' :: b) =
    match assembleText a, assembleText b with
    | some x, some y => some (x ++ y)
    | _, _ => none) ∧
  (∀ line comment : List Char, '\n' ∉ line → '\n' ∉ comment →
    assembleText (line ++ ';' :: comment) = assembleText line) ∧
  (∀ line, blanks line → assembleText line = some []) ∧
  (∀ l line r, blanks l → blanks r → '\n' ∉ line →
    assembleText (l ++ line ++ r) = assembleText line) ∧
  (∀ m l x, word m → m ≠ [] → blanks l → l ≠ [] → '\n' ∉ x →
    assembleText (m ++ l ++ x) = assembleText (m ++ ' ' :: x)) ∧
  (∀ m m' rest, word m → word m' → afterWord rest → m.map Char.toUpper = m'.map Char.toUpper →
    assembleText (m ++ rest) = assembleText (m' ++ rest)) ∧
  (∀ m rest, m ≠ [] → word m → afterWord rest →
    m.map Char.toUpper ∉ ["NOP".toList, "DSM.CLR".toList, "DSM.IN".toList, "RLE.CLR".toList,
      "RLE.IN".toList, "RLE.END".toList, "LC.IN".toList, "PM.IN".toList, "PIPE.RUN".toList,
      "STAT.RD".toList, "CFG.RD".toList, "QE.RD".toList, "CNT.RD".toList, "DSM.INF".toList,
      "DSM.SEQ".toList, "RLE.SEQ".toList, "LC.SEQ".toList, "PM.SEQ".toList, "RUN".toList,
      "CLR.ALL".toList] →
    assembleText (m ++ rest) = none) ∧
  (∀ parts : List (List Char × List Char × List Char), parts ≠ [] →
    (∀ p ∈ parts, blanks p.1 ∧ blanks p.2.2 ∧ (∀ c ∈ p.2.1, c ∉ [';', '\n', ',']) ∧
      (∀ c ∈ p.2.1.head?, c ∉ [' ', '\t', '\r']) ∧ ∀ c ∈ p.2.1.getLast?, c ∉ [' ', '\t', '\r']) →
    let operands := [','].intercalate (parts.map (fun p => p.1 ++ p.2.1 ++ p.2.2))
    let lines := fun m => parts.map (fun p => m ++ ' ' :: p.2.1)
    assembleText ("DSM.SEQ".toList ++ ' ' :: operands) =
      assembleText (['\n'].intercalate ("DSM.CLR".toList :: lines "DSM.IN".toList)) ∧
    assembleText ("RLE.SEQ".toList ++ ' ' :: operands) =
      assembleText (['\n'].intercalate
        ("RLE.CLR".toList :: lines "RLE.IN".toList ++ ["RLE.END".toList])) ∧
    assembleText ("LC.SEQ".toList ++ ' ' :: operands) =
      assembleText (['\n'].intercalate (lines "LC.IN".toList)) ∧
    assembleText ("PM.SEQ".toList ++ ' ' :: operands) =
      assembleText (['\n'].intercalate (lines "PM.IN".toList))) ∧
  (∀ x : List Char, '\n' ∉ x →
    assembleText ("RUN".toList ++ ' ' :: x) = assembleText ("PIPE.RUN".toList ++ ' ' :: x)) ∧
  assembleText "CLR.ALL".toList = assembleText "DSM.CLR\nRLE.CLR".toList

/-- R67, R68, on text, for every operand x a line can hold (x itself without the blanks around it): format
Z reads no operand; format U reads an unsigned decimal or hexadecimal integer up to 16777215; format S a
decimal with an optional sign in [−32768, 32767], or a hexadecimal pattern up to 0xFFFF; format B `+1`
and `-1`; DSM.INF a decimal real; a value out of range is an error, and so is every other text, and no
operand where one is due. The model's choices (log 20), since R67 and R68 do not say them: that a
hexadecimal integer of format U has the prefix 0x, which R67 gives format S; that a decimal real is an
optional sign, digits, and optional digits after a point; that a sign is + or −; that hexadecimal digits
may be of either case; that any number of digits is read; which characters are blanks. -/
def Obligations.AssemblerReadsOperands : Prop :=
  let decDigits := fun ds : List (Fin 10) => ds.map (fun d => Nat.digitChar d.val)
  let decValue := fun ds : List (Fin 10) => ds.foldl (fun v d => v * 10 + d.val) 0
  let hexDigits := fun ds : List (Fin 16 × Bool) => ds.map (fun d =>
    if d.2 then (Nat.digitChar d.1.val).toUpper else Nat.digitChar d.1.val)
  let hexValue := fun ds : List (Fin 16 × Bool) => ds.foldl (fun v d => v * 16 + d.1.val) 0
  let decimal := fun x : List Char => ∃ ds, ds ≠ [] ∧ x = decDigits ds
  let hexadecimal := fun x : List Char => ∃ ds, ds ≠ [] ∧ x = '0' :: 'x' :: hexDigits ds
  let real := fun x : List Char =>
    decimal x ∨ ∃ whole frac, decimal whole ∧ decimal frac ∧ x = whole ++ '.' :: frac
  let signed := fun (number : List Char → Prop) (x : List Char) =>
    number x ∨ ∃ t, number t ∧ (x = '+' :: t ∨ x = '-' :: t)
  let operand := fun x : List Char => ';' ∉ x ∧ '\n' ∉ x ∧
    (∀ c ∈ x.head?, c ∉ [' ', '\t', '\r']) ∧ ∀ c ∈ x.getLast?, c ∉ [' ', '\t', '\r']
  (∀ p ∈ [("NOP", (0x00000000 : Word)), ("DSM.CLR", 0x01000000), ("RLE.CLR", 0x10000000),
      ("RLE.END", 0x12000000), ("STAT.RD", 0xF0000000), ("CFG.RD", 0xF1000000),
      ("QE.RD", 0xF2000000), ("CNT.RD", 0xF3000000)],
    assembleText p.1.toList = some [p.2] ∧
    ∀ x, operand x → x ≠ [] → assembleText (p.1.toList ++ ' ' :: x) = none) ∧
  (∀ x, operand x → x ≠ [] → assembleText ("CLR.ALL".toList ++ ' ' :: x) = none) ∧
  (∀ p ∈ [("LC.IN", (0x20 : Byte)), ("PM.IN", 0x30), ("PIPE.RUN", 0x40)],
    (∀ ds, ds ≠ [] → assembleText (p.1.toList ++ ' ' :: decDigits ds) =
      if decValue ds ≤ 16777215 then some [p.2 ++ BitVec.ofNat 24 (decValue ds)] else none) ∧
    (∀ ds, ds ≠ [] → assembleText (p.1.toList ++ ' ' :: '0' :: 'x' :: hexDigits ds) =
      if hexValue ds ≤ 16777215 then some [p.2 ++ BitVec.ofNat 24 (hexValue ds)] else none) ∧
    ∀ x, operand x → ¬decimal x → ¬hexadecimal x →
      assembleText (p.1.toList ++ ' ' :: x) = none) ∧
  (∀ ds, ds ≠ [] → ∀ p ∈ [([], (1 : Int)), (['+'], 1), (['-'], -1)],
    assembleText ("DSM.IN".toList ++ ' ' :: (p.1 ++ decDigits ds)) =
      if -32768 ≤ p.2 * decValue ds ∧ p.2 * decValue ds ≤ 32767
      then some [(0x02 : Byte) ++ 0#8 ++ BitVec.ofInt 16 (p.2 * decValue ds)] else none) ∧
  (∀ ds, ds ≠ [] → assembleText ("DSM.IN".toList ++ ' ' :: '0' :: 'x' :: hexDigits ds) =
    if hexValue ds ≤ 0xFFFF then some [(0x02 : Byte) ++ 0#8 ++ BitVec.ofNat 16 (hexValue ds)]
    else none) ∧
  (∀ x, operand x → ¬signed decimal x → ¬hexadecimal x →
    assembleText ("DSM.IN".toList ++ ' ' :: x) = none) ∧
  assembleText "RLE.IN +1".toList = some [0x11000001] ∧
  assembleText "RLE.IN -1".toList = some [0x11000000] ∧
  (∀ x, operand x → x ≠ ['+', '1'] → x ≠ ['-', '1'] →
    assembleText ("RLE.IN".toList ++ ' ' :: x) = none) ∧
  (∀ ds fs, ds ≠ [] → fs ≠ [] → ∀ p ∈ [([], false), (['+'], false), (['-'], true)],
    assembleText ("DSM.INF".toList ++ ' ' :: (p.1 ++ decDigits ds)) =
      assemble [.dsmInf p.2 (decValue ds) 0] ∧
    assembleText ("DSM.INF".toList ++ ' ' :: (p.1 ++ decDigits ds ++ '.' :: decDigits fs)) =
      assemble [.dsmInf p.2 (decValue (ds ++ fs)) fs.length]) ∧
  (∀ x, operand x → ¬signed real x → assembleText ("DSM.INF".toList ++ ' ' :: x) = none) ∧
  ∀ m ∈ ["LC.IN", "PM.IN", "PIPE.RUN", "DSM.IN", "RLE.IN", "DSM.INF", "DSM.SEQ", "RLE.SEQ", "LC.SEQ",
      "PM.SEQ", "RUN"], assembleText m.toList = none
end

