-- ==== Sys2Proof/Laws/Assembler.lean ====
section
/-! SUPPORT. For each function of the assembler's text, once, what it does: splitting, trimming, digits,
a line's word and operands, the mnemonics (R66, R67; log 20). -/

namespace Sys2Proof.Machine

/-! ### Lists of results -/

/-- A list of partial results in two parts: all of them, or none. -/
theorem mapM_append_option {α β : Type} (f : α → Option β) (a b : List α) :
    (a ++ b).mapM f = match a.mapM f, b.mapM f with
      | some x, some y => some (x ++ y)
      | _, _ => none := by
  rw [List.mapM_append]
  cases a.mapM f <;> cases b.mapM f <;> rfl

/-- One statement more in front: its words come first, or there is an error (R69). -/
theorem assemble_cons (st : Stmt) (ss : List Stmt) :
    assemble (st :: ss) =
      if st.wf = true then (assemble ss).map (fun ws => (expandStmt st).map encode ++ ws) else none := by
  simp only [assemble, List.mapM_cons, assembleStmt]
  split
  · cases List.mapM assembleStmt ss <;> simp
  · rfl

/-! ### Splitting -/

/-- There is always at least one part. -/
theorem splitAt_ne_nil (sep : Char) (a : List Char) : splitAt sep a ≠ [] := by
  cases a with
  | nil => simp [splitAt]
  | cons c cs => simp only [splitAt]; split <;> (try split) <;> simp

/-- A separator ends the parts of the text before it. -/
theorem splitAt_append (sep : Char) (a b : List Char) :
    splitAt sep (a ++ sep :: b) = splitAt sep a ++ splitAt sep b := by
  induction a with
  | nil => simp [splitAt]
  | cons c cs ih =>
    simp only [List.cons_append, splitAt, ih]
    by_cases h : c = sep
    · simp [h]
    · simp only [h, if_false]
      cases hs : splitAt sep cs with
      | nil => exact absurd hs (splitAt_ne_nil _ _)
      | cons w ws => rfl

/-- A text without the separator is one part. -/
theorem splitAt_of_not_mem {sep : Char} {a : List Char} (h : sep ∉ a) : splitAt sep a = [a] := by
  induction a with
  | nil => rfl
  | cons c cs ih =>
    simp only [List.mem_cons, not_or] at h
    simp [splitAt, ih h.2, Ne.symm h.1]

/-- Parts put together with the separator between them come apart again. -/
theorem splitAt_intercalate {sep : Char} {ls : List (List Char)} (hne : ls ≠ [])
    (h : ∀ l ∈ ls, sep ∉ l) : splitAt sep ([sep].intercalate ls) = ls := by
  induction ls with
  | nil => exact absurd rfl hne
  | cons l ls ih =>
    cases ls with
    | nil => simpa [List.intercalate] using splitAt_of_not_mem (h l List.mem_cons_self)
    | cons l' ls =>
      have e : [sep].intercalate (l :: l' :: ls) = l ++ sep :: [sep].intercalate (l' :: ls) := by
        simp [List.intercalate]
      rw [e, splitAt_append, splitAt_of_not_mem (h l List.mem_cons_self),
        ih (by simp) (fun x hx => h x (List.mem_cons_of_mem _ hx))]
      rfl

/-! ### Blanks -/

/-- Trimming drops the blanks on the left, then those on the right. -/
theorem trimBlanks_eq (cs : List Char) :
    trimBlanks cs = (cs.dropWhile isBlank).rdropWhile isBlank := rfl

/-- Trimming on the right never reaches into a word without blanks. -/
theorem rdropWhile_append_word {m x : List Char} (hm : ∀ c ∈ m, isBlank c = false) :
    (m ++ x).rdropWhile isBlank = m ++ x.rdropWhile isBlank := by
  induction x using List.reverseRecOn with
  | nil =>
    simp only [List.append_nil, List.rdropWhile_nil]
    rcases List.eq_nil_or_concat m with rfl | ⟨l, b, rfl⟩
    · rfl
    · rw [List.concat_eq_append, List.rdropWhile_concat_neg]
      simp [hm b (by simp)]
  | append_singleton y c ih =>
    rw [← List.append_assoc]
    by_cases h : isBlank c = true
    · rw [List.rdropWhile_concat_pos _ _ _ h, List.rdropWhile_concat_pos _ _ _ h, ih]
    · rw [List.rdropWhile_concat_neg _ _ _ h, List.rdropWhile_concat_neg _ _ _ h,
        List.append_assoc]

/-- Trimming a text that is already trimmed on the right. -/
theorem trimBlanks_rdropWhile (x : List Char) : trimBlanks (x.rdropWhile isBlank) = trimBlanks x := by
  induction x using List.reverseRecOn with
  | nil => rfl
  | append_singleton y c ih =>
    by_cases h : isBlank c = true
    · rw [List.rdropWhile_concat_pos _ _ _ h, ih]
      simp only [trimBlanks_eq, List.dropWhile_append]
      split
      · rename_i hh
        rw [List.isEmpty_iff] at hh
        simp [hh, h]
      · rw [List.rdropWhile_concat_pos _ _ _ h]
    · rw [List.rdropWhile_concat_neg _ _ _ h]

/-- A text without blanks is its own trimming. -/
theorem trimBlanks_word {x : List Char} (h : ∀ c ∈ x, isBlank c = false) : trimBlanks x = x := by
  have hd : x.dropWhile isBlank = x := by
    cases x with
    | nil => rfl
    | cons a l => simp [h a List.mem_cons_self]
  have hr := rdropWhile_append_word (x := []) h
  rw [List.append_nil, List.rdropWhile_nil, List.append_nil] at hr
  rw [trimBlanks_eq, hd, hr]

/-- A text whose first and last characters are no blanks is its own trimming. -/
theorem trimBlanks_ends {x : List Char} (h : ∀ c ∈ x.head?, isBlank c = false)
    (h' : ∀ c ∈ x.getLast?, isBlank c = false) : trimBlanks x = x := by
  have hd : x.dropWhile isBlank = x := by
    cases x with
    | nil => rfl
    | cons a l => simp [h a (by simp)]
  rw [trimBlanks_eq, hd]
  rcases List.eq_nil_or_concat x with rfl | ⟨l, b, rfl⟩
  · rfl
  · rw [List.concat_eq_append, List.rdropWhile_concat_neg]
    simp [h' b (by simp)]

/-- Only a blank text is trimmed to nothing. -/
theorem trimBlanks_eq_nil_iff {x : List Char} :
    trimBlanks x = [] ↔ ∀ c ∈ x, isBlank c = true := by
  rw [trimBlanks_eq, List.rdropWhile_eq_nil_iff]
  constructor
  · intro h
    have hd : x.dropWhile isBlank = [] := by
      cases hx : x.dropWhile isBlank with
      | nil => rfl
      | cons a l =>
        have ha := h a (by rw [hx]; exact List.mem_cons_self)
        have hn := List.head?_dropWhile_not isBlank x
        rw [hx] at hn
        simp [ha] at hn
    exact List.dropWhile_eq_nil_iff.1 hd
  · intro h c hc
    exact h c ((List.dropWhile_suffix _).subset hc)

/-- Blanks on either side of a text change nothing. -/
theorem trimBlanks_pad {l r : List Char} (hl : ∀ c ∈ l, isBlank c = true)
    (hr : ∀ c ∈ r, isBlank c = true) (x : List Char) : trimBlanks (l ++ x ++ r) = trimBlanks x := by
  have h1 : ∀ y, trimBlanks (l ++ y) = trimBlanks y := fun y => by
    rw [trimBlanks_eq, List.dropWhile_append_of_pos hl, trimBlanks_eq]
  have h2 : ∀ y, (y ++ r).rdropWhile isBlank = y.rdropWhile isBlank := by
    intro y
    induction r using List.reverseRecOn with
    | nil => simp
    | append_singleton r c ih =>
      rw [← List.append_assoc, List.rdropWhile_concat_pos _ _ _ (hr c (by simp))]
      exact ih (fun c hc => hr c (by simp [hc]))
  rw [List.append_assoc, h1, ← trimBlanks_rdropWhile, h2, trimBlanks_rdropWhile]

/-- What trimming on the right takes away is blank. -/
theorem rdropWhile_rest (x : List Char) :
    ∃ b, x.rdropWhile isBlank ++ b = x ∧ ∀ c ∈ b, isBlank c = true :=
  ⟨x.rtakeWhile isBlank, List.rdropWhile_append_rtakeWhile, fun _ h => List.mem_rtakeWhile_imp h⟩

/-- Trimming on the right sees no further than what is left of the tail. -/
theorem rdropWhile_cons_congr {c : Char} {a b : List Char}
    (h : a.rdropWhile isBlank = b.rdropWhile isBlank) :
    (c :: a).rdropWhile isBlank = (c :: b).rdropWhile isBlank := by
  have key : ∀ x : List Char, (c :: x).rdropWhile isBlank =
      (c :: x.rdropWhile isBlank).rdropWhile isBlank := by
    intro x
    induction x using List.reverseRecOn with
    | nil => rfl
    | append_singleton x d ih =>
      rw [← List.cons_append]
      by_cases hd : isBlank d = true
      · rw [List.rdropWhile_concat_pos _ _ _ hd, List.rdropWhile_concat_pos _ _ _ hd, ih]
      · rw [List.rdropWhile_concat_neg _ _ _ hd, List.rdropWhile_concat_neg _ _ _ hd,
          ← List.cons_append, List.rdropWhile_concat_neg _ _ _ hd]
  rw [key a, key b, h]

/-! ### Operands -/

/-- The operands of a text are those of the text trimmed. -/
theorem parseOperands_congr {a b : List Char} (h : trimBlanks a = trimBlanks b) :
    parseOperands a = parseOperands b := by simp only [parseOperands, h]

/-- A text without a comma is one operand. -/
theorem parseOperands_one {x : List Char} (hx : x ≠ []) (h : trimBlanks x = x) (hc : ',' ∉ x) :
    parseOperands x = [x] := by
  have hne : x.isEmpty = false := by cases x <;> simp_all
  simp only [parseOperands, h, hne, Bool.false_eq_true, if_false, splitAt_of_not_mem hc,
    List.map_cons, List.map_nil]

/-- A text that is not blank holds an operand. -/
theorem parseOperands_ne_nil {x : List Char} (hx : x ≠ []) (h : trimBlanks x = x) :
    parseOperands x ≠ [] := by
  have hne : x.isEmpty = false := by cases x <;> simp_all
  simp [parseOperands, h, hne, splitAt_ne_nil]

/-- A comma makes more than one operand. -/
theorem parseOperands_comma {x : List Char} (hc : ',' ∈ x) (h : trimBlanks x = x) :
    (parseOperands x).length ≠ 1 := by
  obtain ⟨a, b, rfl⟩ := List.append_of_mem hc
  have h1 := List.length_pos_iff.2 (splitAt_ne_nil ',' a)
  have h2 := List.length_pos_iff.2 (splitAt_ne_nil ',' b)
  have hne : (a ++ ',' :: b).isEmpty = false := by simp
  simp only [parseOperands, h, hne, Bool.false_eq_true, if_false, splitAt_append, List.length_map,
    List.length_append]
  omega

/-- A statement with one operand refuses every text that the operand's format refuses (R67). -/
theorem oneOperand_none {α : Type} {parse : List Char → Option α} {mk : α → Stmt} {x : List Char}
    (h : trimBlanks x = x) (hx : x ≠ [] → parse x = none) :
    oneOperand parse mk (parseOperands x) = none := by
  by_cases hc : ',' ∈ x
  · have hl := parseOperands_comma hc h
    unfold oneOperand
    split
    · rename_i y hy
      rw [hy] at hl
      exact absurd rfl hl
    · rfl
  · by_cases hne : x = []
    · subst hne
      rfl
    · rw [parseOperands_one hne h hc, oneOperand, hx hne]
      rfl

/-- The parts of a text with blanks at its end are, trimmed, those of the text without them. -/
theorem splitAt_append_blanks {sep : Char} (hs : isBlank sep = false) {b : List Char}
    (hb : ∀ c ∈ b, isBlank c = true) (t : List Char) :
    (splitAt sep (t ++ b)).map (List.rdropWhile isBlank) =
      (splitAt sep t).map (List.rdropWhile isBlank) := by
  have hmem : sep ∉ b := fun h => by rw [hb _ h] at hs; cases hs
  induction t with
  | nil =>
    have hnil : b.rdropWhile isBlank = [] := by
      rw [List.rdropWhile_eq_nil_iff]; exact hb
    simp [splitAt_of_not_mem hmem, splitAt, hnil]
  | cons c t ih =>
    simp only [List.cons_append, splitAt]
    by_cases h : c = sep
    · simp [h, ih]
    · simp only [h, if_false]
      cases h1 : splitAt sep (t ++ b) with
      | nil => exact absurd h1 (splitAt_ne_nil _ _)
      | cons w ws =>
        cases h2 : splitAt sep t with
        | nil => exact absurd h2 (splitAt_ne_nil _ _)
        | cons w' ws' =>
          simp only [h1, h2, List.map_cons, List.cons.injEq] at ih ⊢
          exact ⟨by rw [rdropWhile_cons_congr ih.1], ih.2⟩

/-- Blanks in front of a text belong to its first part, and trimming drops them. -/
theorem splitAt_dropBlanks {sep : Char} (hs : isBlank sep = false) (t : List Char) :
    (splitAt sep (t.dropWhile isBlank)).map trimBlanks = (splitAt sep t).map trimBlanks := by
  induction t with
  | nil => rfl
  | cons c t ih =>
    by_cases h : isBlank c = true
    · have hc : c ≠ sep := by rintro rfl; rw [h] at hs; cases hs
      rw [List.dropWhile_cons_of_pos h, ih]
      simp only [splitAt, hc, if_false]
      cases hw : splitAt sep t with
      | nil => exact absurd hw (splitAt_ne_nil _ _)
      | cons w ws => simp [trimBlanks_eq, List.dropWhile_cons_of_pos h]
    · rw [List.dropWhile_cons_of_neg h]

/-- The operands of a text: none where it is blank, else its parts between commas, trimmed. -/
theorem parseOperands_eq (t : List Char) :
    parseOperands t = if trimBlanks t = [] then [] else (splitAt ',' t).map trimBlanks := by
  have key : (splitAt ',' (trimBlanks t)).map trimBlanks = (splitAt ',' t).map trimBlanks := by
    have e : ∀ l : List (List Char), l.map trimBlanks =
        (l.map (List.rdropWhile isBlank)).map trimBlanks := by
      intro l
      rw [List.map_map]
      exact List.map_congr_left fun x _ => (trimBlanks_rdropWhile x).symm
    rw [← splitAt_dropBlanks rfl t, e, e (splitAt ',' (t.dropWhile isBlank)), trimBlanks_eq]
    obtain ⟨b, hb, hbb⟩ := rdropWhile_rest (t.dropWhile isBlank)
    conv_rhs => rw [← hb]
    rw [splitAt_append_blanks rfl hbb]
  unfold parseOperands
  simp only [List.isEmpty_iff, key]

/-- Texts with commas between them are read as those texts, each trimmed, unless nothing is there. -/
theorem parseOperands_list {ps : List (List Char)} (hne : ps ≠ []) (h : ∀ p ∈ ps, ',' ∉ p)
    (hb : ∀ p, ps = [p] → trimBlanks p ≠ []) :
    parseOperands ([','].intercalate ps) = ps.map trimBlanks := by
  rw [parseOperands_eq, splitAt_intercalate hne h, if_neg]
  intro ht
  match ps, hne with
  | [p], _ => exact hb p rfl (by simpa [List.intercalate] using ht)
  | p :: q :: ps, _ =>
    have hmem : ',' ∈ [','].intercalate (p :: q :: ps) := by simp [List.intercalate]
    exact absurd (trimBlanks_eq_nil_iff.1 ht _ hmem) (by decide)

/-! ### Lines -/

/-- What follows the first word of a line: nothing, a blank, or a comment. -/
def endsWord (tail : List Char) : Prop := ∀ c ∈ tail.head?, isBlank c = true ∨ c = ';'

/-- A line whose first word is m: a statement with the operands of the rest, up to a comment (R66). -/
theorem parseLine_word {m tail : List Char} (hm : m ≠ [])
    (hp : ∀ c ∈ m, isBlank c = false ∧ c ≠ ';') (ht : endsWord tail) :
    parseLine (m ++ tail) =
      (parseStmt (m.map Char.toUpper) (parseOperands (tail.takeWhile (· != ';')))).map
        (fun st => [st]) := by
  have hb := fun c hc => (hp c hc).1
  have hcut : (m ++ tail).takeWhile (· != ';') = m ++ tail.takeWhile (· != ';') :=
    List.takeWhile_append_of_pos (by intro c hc; simpa using (hp c hc).2)
  have hr : ∀ c ∈ (tail.takeWhile (· != ';')).head?, isBlank c = true := by
    intro c hc
    cases tail with
    | nil => simp at hc
    | cons a l =>
      have ha := ht a (by simp)
      by_cases h : a = ';'
      · simp [h] at hc
      · simp [h] at hc
        exact hc ▸ ha.resolve_right h
  generalize tail.takeWhile (· != ';') = r at hcut hr ⊢
  have htrim : trimBlanks (m ++ r) = m ++ r.rdropWhile isBlank := by
    have hd : (m ++ r).dropWhile isBlank = m ++ r := by
      cases m with
      | nil => exact absurd rfl hm
      | cons a l => simp [hb a List.mem_cons_self]
    rw [trimBlanks_eq, hd, rdropWhile_append_word hb]
  have hop := parseOperands_congr (trimBlanks_rdropWhile r)
  have hz : ∀ c ∈ (r.rdropWhile isBlank).head?, isBlank c = true := by
    intro c hc
    obtain ⟨z, hz⟩ := List.rdropWhile_prefix isBlank (l := r)
    refine hr c ?_
    cases h : r.rdropWhile isBlank with
    | nil => simp [h] at hc
    | cons a l => rw [← hz, h]; simpa [h] using hc
  generalize r.rdropWhile isBlank = z at htrim hop hz
  have hne : (m ++ z).isEmpty = false := by cases m <;> simp_all
  have hword : (m ++ z).takeWhile (fun c => !isBlank c) = m := by
    rw [List.takeWhile_append_of_pos (by intro c hc; simp [hb c hc])]
    cases z with
    | nil => simp
    | cons a l => simp [hz a (by simp)]
  have hrest : (m ++ z).dropWhile (fun c => !isBlank c) = z := by
    rw [List.dropWhile_append_of_pos (by intro c hc; simp [hb c hc])]
    cases z with
    | nil => simp
    | cons a l => simp [hz a (by simp)]
  unfold parseLine
  rw [hcut, htrim]
  simp only [hne, hword, hrest, hop, Bool.false_eq_true, if_false]

/-- A text of one line. -/
theorem assembleText_line {l : List Char} (h : '\n' ∉ l) :
    assembleText l = (parseLine l).bind assemble := by
  unfold assembleText
  rw [splitAt_of_not_mem h]
  cases hp : parseLine l <;> simp [hp]

/-- A text of several lines: their statements in order, or an error (R66, R69). -/
theorem assembleText_lines {ls : List (List Char)} (hne : ls ≠ []) (h : ∀ l ∈ ls, '\n' ∉ l) :
    assembleText (['\n'].intercalate ls) = (ls.mapM parseLine).bind (fun x => assemble x.flatten) := by
  unfold assembleText
  rw [splitAt_intercalate hne h]
  cases ls.mapM parseLine <;> rfl

/-! ### Digits -/

/-- A decimal digit. -/
theorem decDigit_digitChar (d : Fin 10) : decDigit (Nat.digitChar d.val) = some d.val := by
  revert d; decide

/-- A hexadecimal digit of either case. -/
theorem hexDigit_digitChar_case (d : Fin 16 × Bool) :
    hexDigit (if d.2 then (Nat.digitChar d.1.val).toUpper else Nat.digitChar d.1.val) =
      some d.1.val := by
  revert d; decide

/-- A character is named by its number. -/
theorem char_eq_ofNat {c : Char} {n : Nat} (h : c.toNat = n) : c = Char.ofNat n := by
  rw [← h, Char.ofNat_toNat]

/-- Only the ten decimal digits are read as one. -/
theorem decDigit_some {c : Char} {d : Nat} (h : decDigit c = some d) :
    ∃ e : Fin 10, c = Nat.digitChar e.val := by
  unfold decDigit at h
  split at h
  · rename_i hc
    have h0 : '0'.toNat = 48 := rfl
    have h9 : '9'.toNat = 57 := rfl
    have key : ∀ e : Fin 10, Char.ofNat (48 + e.val) = Nat.digitChar e.val := by decide
    refine ⟨⟨c.toNat - 48, by omega⟩, ?_⟩
    rw [← key]
    exact char_eq_ofNat (by simp only; omega)
  · cases h

/-- Only the hexadecimal digits of either case are read as one. -/
theorem hexDigit_some {c : Char} {d : Nat} (h : hexDigit c = some d) :
    ∃ e : Fin 16 × Bool,
      c = if e.2 then (Nat.digitChar e.1.val).toUpper else Nat.digitChar e.1.val := by
  have ha : 'a'.toNat = 97 := rfl
  have hf : 'f'.toNat = 102 := rfl
  have hA : 'A'.toNat = 65 := rfl
  have hF : 'F'.toNat = 70 := rfl
  have lower : ∀ e : Fin 6, Char.ofNat (97 + e.val) = Nat.digitChar (10 + e.val) := by decide
  have upper : ∀ e : Fin 6, Char.ofNat (65 + e.val) = (Nat.digitChar (10 + e.val)).toUpper := by
    decide
  unfold hexDigit at h
  split at h
  · refine ⟨(⟨10 + (c.toNat - 97), by omega⟩, false), ?_⟩
    have e := lower ⟨c.toNat - 97, by omega⟩
    simp only [Bool.false_eq_true, if_false]
    rw [← e]
    exact char_eq_ofNat (by simp only; omega)
  · split at h
    · refine ⟨(⟨10 + (c.toNat - 65), by omega⟩, true), ?_⟩
      have e := upper ⟨c.toNat - 65, by omega⟩
      simp only [if_true]
      rw [← e]
      exact char_eq_ofNat (by simp only; omega)
    · obtain ⟨e, he⟩ := decDigit_some h
      exact ⟨(⟨e.val, by omega⟩, false), he⟩

/-- Digits read as a number, after a value already read. -/
theorem digitsFrom_map {α : Type} {base : Nat} {digit : Char → Option Nat} {f : α → Char}
    {v : α → Nat} (h : ∀ d, digit (f d) = some (v d)) (ds : List α) (acc : Nat) :
    digitsFrom base digit acc (ds.map f) = some (ds.foldl (fun n d => n * base + v d) acc) := by
  induction ds generalizing acc with
  | nil => rfl
  | cons d ds ih =>
    simp only [List.map_cons, digitsFrom, h, List.foldl_cons]
    exact ih _

/-- What is read as a number consists of digits. -/
theorem digitsFrom_some {α : Type} {base : Nat} {digit : Char → Option Nat} {f : α → Char}
    (h : ∀ {c d}, digit c = some d → ∃ e, c = f e) {x : List Char} {acc n : Nat}
    (hx : digitsFrom base digit acc x = some n) : ∃ ds : List α, x = ds.map f := by
  induction x generalizing acc with
  | nil => exact ⟨[], rfl⟩
  | cons c l ih =>
    simp only [digitsFrom] at hx
    split at hx
    · cases hx
    · rename_i d hd
      obtain ⟨e, rfl⟩ := h hd
      obtain ⟨ds, rfl⟩ := ih hx
      exact ⟨e :: ds, rfl⟩

/-- One or more decimal digits are read as their number (R67). -/
theorem parseDec_digitChar {ds : List (Fin 10)} (h : ds ≠ []) :
    parseDec (ds.map (fun d => Nat.digitChar d.val)) =
      some (ds.foldl (fun v d => v * 10 + d.val) 0) := by
  unfold parseDec
  rw [digitsFrom_map decDigit_digitChar]
  simp [h]

/-- What is read as a decimal number is one or more decimal digits. -/
theorem parseDec_some {x : List Char} {n : Nat} (h : parseDec x = some n) :
    ∃ ds : List (Fin 10), ds ≠ [] ∧ x = ds.map (fun d => Nat.digitChar d.val) := by
  unfold parseDec at h
  split at h
  · cases h
  · rename_i hx
    obtain ⟨ds, rfl⟩ := digitsFrom_some (f := fun d : Fin 10 => Nat.digitChar d.val) decDigit_some h
    exact ⟨ds, (by rintro rfl; exact hx rfl), rfl⟩

/-- What follows `0x` is read as a number only where it is one or more hexadecimal digits. -/
theorem hexDigits_some {x : List Char} {n : Nat} (hne : x.isEmpty = false)
    (h : digitsFrom 16 hexDigit 0 x = some n) :
    ∃ ds : List (Fin 16 × Bool), ds ≠ [] ∧ x = ds.map (fun d =>
      if d.2 then (Nat.digitChar d.1.val).toUpper else Nat.digitChar d.1.val) := by
  obtain ⟨ds, rfl⟩ := digitsFrom_some (f := fun d : Fin 16 × Bool =>
    if d.2 then (Nat.digitChar d.1.val).toUpper else Nat.digitChar d.1.val) hexDigit_some h
  exact ⟨ds, (by rintro rfl; cases hne), rfl⟩

/-- A sign that is read is `-` or `+`, and without one nothing is taken. -/
theorem parseSign_eq {x t : List Char} {neg : Bool} (h : parseSign x = (neg, t)) :
    x = t ∨ x = '+' :: t ∨ x = '-' :: t := by
  unfold parseSign at h
  split at h <;> simp_all

/-- Parts put together again with the separator between them give the text. -/
theorem intercalate_splitAt (sep : Char) (a : List Char) :
    [sep].intercalate (splitAt sep a) = a := by
  induction a with
  | nil => rfl
  | cons c cs ih =>
    simp only [splitAt]
    cases hs : splitAt sep cs with
    | nil => exact absurd hs (splitAt_ne_nil _ _)
    | cons w ws =>
      rw [hs] at ih
      by_cases h : c = sep
      · simp only [h, if_true]
        cases ws <;> simp_all [List.intercalate]
      · simp only [h, if_false]
        cases ws <;> simp_all [List.intercalate]

/-- What format U reads is a decimal or a hexadecimal integer (R67; log 20). -/
theorem parseNat_some {x : List Char} {n : Nat} (h : parseNat x = some n) :
    (∃ ds : List (Fin 10), ds ≠ [] ∧ x = ds.map (fun d => Nat.digitChar d.val)) ∨
      ∃ ds : List (Fin 16 × Bool), ds ≠ [] ∧ x = '0' :: 'x' :: ds.map (fun d =>
        if d.2 then (Nat.digitChar d.1.val).toUpper else Nat.digitChar d.1.val) := by
  unfold parseNat at h
  split at h
  · rename_i cs
    split at h
    · cases h
    · rename_i hne
      obtain ⟨ds, hd, rfl⟩ := hexDigits_some (by simpa using hne) h
      exact .inr ⟨ds, hd, rfl⟩
  · exact .inl (parseDec_some h)

/-- What format S reads is a decimal with an optional sign, or a pattern (R67). -/
theorem parseSample_some {x : List Char} {o : SampleOperand} (h : parseSample x = some o) :
    (∃ (ds : List (Fin 10)) (t : List Char), ds ≠ [] ∧ t = ds.map (fun d => Nat.digitChar d.val) ∧
        (x = t ∨ x = '+' :: t ∨ x = '-' :: t)) ∨
      ∃ ds : List (Fin 16 × Bool), ds ≠ [] ∧ x = '0' :: 'x' :: ds.map (fun d =>
        if d.2 then (Nat.digitChar d.1.val).toUpper else Nat.digitChar d.1.val) := by
  unfold parseSample at h
  split at h
  · rename_i cs
    split at h
    · cases h
    · rename_i hne
      obtain ⟨n, hn, _⟩ := Option.map_eq_some_iff.1 h
      obtain ⟨ds, hd, rfl⟩ := hexDigits_some (by simpa using hne) hn
      exact .inr ⟨ds, hd, rfl⟩
  · split at h
    rename_i neg t hs
    obtain ⟨n, hn, _⟩ := Option.map_eq_some_iff.1 h
    obtain ⟨ds, hd, ht⟩ := parseDec_some hn
    exact .inl ⟨ds, t, hd, ht, parseSign_eq hs⟩

/-- What DSM.INF reads is an optional sign, digits, and optional digits after a point (R68; log 20). -/
theorem parseReal_some {x : List Char} {r : Bool × Nat × Nat} (h : parseReal x = some r) :
    ∃ (t : List Char) (ds : List (Fin 10)), ds ≠ [] ∧ (x = t ∨ x = '+' :: t ∨ x = '-' :: t) ∧
      (t = ds.map (fun d => Nat.digitChar d.val) ∨ ∃ fs : List (Fin 10), fs ≠ [] ∧
        t = ds.map (fun d => Nat.digitChar d.val) ++ '.' :: fs.map (fun d => Nat.digitChar d.val)) := by
  unfold parseReal at h
  split at h
  rename_i neg t hs
  have ht := intercalate_splitAt '.' t
  split at h
  · rename_i whole hw
    obtain ⟨n, hn, _⟩ := Option.map_eq_some_iff.1 h
    obtain ⟨ds, hd, rfl⟩ := parseDec_some hn
    rw [hw] at ht
    exact ⟨t, ds, hd, parseSign_eq hs, .inl (by simpa [List.intercalate] using ht.symm)⟩
  · rename_i whole frac hw
    rw [hw] at ht
    split at h
    · cases h
    · rename_i hne
      obtain ⟨n, hn, _⟩ := Option.map_eq_some_iff.1 h
      obtain ⟨ds, _, hds⟩ := parseDec_some hn
      obtain ⟨as, bs, rfl, rfl, rfl⟩ := List.append_eq_map_iff.1 hds
      simp only [Bool.or_eq_true, List.isEmpty_iff, List.map_eq_nil_iff, not_or] at hne
      exact ⟨t, as, hne.1, parseSign_eq hs, .inr ⟨bs, hne.2, by
        simpa [List.intercalate] using ht.symm⟩⟩
  · cases h

/-! ### Mnemonics -/

/-- A name that is already in capitals stands for itself (R66). -/
theorem parseStmt_upper {m : List Char} {f : List (List Char) → Option Stmt}
    (hu : m.map Char.toUpper = m) (h : ∀ xs, parseStmt m xs = f xs) (xs : List (List Char)) :
    parseStmt (m.map Char.toUpper) xs = f xs := by rw [hu, h]

theorem parseStmt_nop (xs : List (List Char)) :
    parseStmt ("NOP".toList.map Char.toUpper) xs = noOperand .nop xs :=
  parseStmt_upper (by decide) (fun _ => by unfold parseStmt; rw [if_pos rfl]) xs
theorem parseStmt_dsmClr (xs : List (List Char)) :
    parseStmt ("DSM.CLR".toList.map Char.toUpper) xs = noOperand .dsmClr xs :=
  parseStmt_upper (by decide) (fun _ => by
    unfold parseStmt; (repeat rw [if_neg (by decide)]); rw [if_pos rfl]) xs
theorem parseStmt_dsmIn (xs : List (List Char)) :
    parseStmt ("DSM.IN".toList.map Char.toUpper) xs = oneOperand parseSample .dsmIn xs :=
  parseStmt_upper (by decide) (fun _ => by
    unfold parseStmt; (repeat rw [if_neg (by decide)]); rw [if_pos rfl]) xs
theorem parseStmt_rleClr (xs : List (List Char)) :
    parseStmt ("RLE.CLR".toList.map Char.toUpper) xs = noOperand .rleClr xs :=
  parseStmt_upper (by decide) (fun _ => by
    unfold parseStmt; (repeat rw [if_neg (by decide)]); rw [if_pos rfl]) xs
theorem parseStmt_rleIn (xs : List (List Char)) :
    parseStmt ("RLE.IN".toList.map Char.toUpper) xs = oneOperand parseSymbol .rleIn xs :=
  parseStmt_upper (by decide) (fun _ => by
    unfold parseStmt; (repeat rw [if_neg (by decide)]); rw [if_pos rfl]) xs
theorem parseStmt_rleEnd (xs : List (List Char)) :
    parseStmt ("RLE.END".toList.map Char.toUpper) xs = noOperand .rleEnd xs :=
  parseStmt_upper (by decide) (fun _ => by
    unfold parseStmt; (repeat rw [if_neg (by decide)]); rw [if_pos rfl]) xs
theorem parseStmt_lcIn (xs : List (List Char)) :
    parseStmt ("LC.IN".toList.map Char.toUpper) xs = oneOperand parseNat .lcIn xs :=
  parseStmt_upper (by decide) (fun _ => by
    unfold parseStmt; (repeat rw [if_neg (by decide)]); rw [if_pos rfl]) xs
theorem parseStmt_pmIn (xs : List (List Char)) :
    parseStmt ("PM.IN".toList.map Char.toUpper) xs = oneOperand parseNat .pmIn xs :=
  parseStmt_upper (by decide) (fun _ => by
    unfold parseStmt; (repeat rw [if_neg (by decide)]); rw [if_pos rfl]) xs
theorem parseStmt_pipeRun (xs : List (List Char)) :
    parseStmt ("PIPE.RUN".toList.map Char.toUpper) xs = oneOperand parseNat .pipeRun xs :=
  parseStmt_upper (by decide) (fun _ => by
    unfold parseStmt; (repeat rw [if_neg (by decide)]); rw [if_pos rfl]) xs
theorem parseStmt_statRd (xs : List (List Char)) :
    parseStmt ("STAT.RD".toList.map Char.toUpper) xs = noOperand .statRd xs :=
  parseStmt_upper (by decide) (fun _ => by
    unfold parseStmt; (repeat rw [if_neg (by decide)]); rw [if_pos rfl]) xs
theorem parseStmt_cfgRd (xs : List (List Char)) :
    parseStmt ("CFG.RD".toList.map Char.toUpper) xs = noOperand .cfgRd xs :=
  parseStmt_upper (by decide) (fun _ => by
    unfold parseStmt; (repeat rw [if_neg (by decide)]); rw [if_pos rfl]) xs
theorem parseStmt_qeRd (xs : List (List Char)) :
    parseStmt ("QE.RD".toList.map Char.toUpper) xs = noOperand .qeRd xs :=
  parseStmt_upper (by decide) (fun _ => by
    unfold parseStmt; (repeat rw [if_neg (by decide)]); rw [if_pos rfl]) xs
theorem parseStmt_cntRd (xs : List (List Char)) :
    parseStmt ("CNT.RD".toList.map Char.toUpper) xs = noOperand .cntRd xs :=
  parseStmt_upper (by decide) (fun _ => by
    unfold parseStmt; (repeat rw [if_neg (by decide)]); rw [if_pos rfl]) xs
theorem parseStmt_dsmInf (xs : List (List Char)) :
    parseStmt ("DSM.INF".toList.map Char.toUpper) xs = oneOperand parseReal (fun r => .dsmInf r.1 r.2.1 r.2.2) xs :=
  parseStmt_upper (by decide) (fun _ => by
    unfold parseStmt; (repeat rw [if_neg (by decide)]); rw [if_pos rfl]) xs
theorem parseStmt_dsmSeq (xs : List (List Char)) :
    parseStmt ("DSM.SEQ".toList.map Char.toUpper) xs = listOperand parseSample .dsmSeq xs :=
  parseStmt_upper (by decide) (fun _ => by
    unfold parseStmt; (repeat rw [if_neg (by decide)]); rw [if_pos rfl]) xs
theorem parseStmt_rleSeq (xs : List (List Char)) :
    parseStmt ("RLE.SEQ".toList.map Char.toUpper) xs = listOperand parseSymbol .rleSeq xs :=
  parseStmt_upper (by decide) (fun _ => by
    unfold parseStmt; (repeat rw [if_neg (by decide)]); rw [if_pos rfl]) xs
theorem parseStmt_lcSeq (xs : List (List Char)) :
    parseStmt ("LC.SEQ".toList.map Char.toUpper) xs = listOperand parseNat .lcSeq xs :=
  parseStmt_upper (by decide) (fun _ => by
    unfold parseStmt; (repeat rw [if_neg (by decide)]); rw [if_pos rfl]) xs
theorem parseStmt_pmSeq (xs : List (List Char)) :
    parseStmt ("PM.SEQ".toList.map Char.toUpper) xs = listOperand parseNat .pmSeq xs :=
  parseStmt_upper (by decide) (fun _ => by
    unfold parseStmt; (repeat rw [if_neg (by decide)]); rw [if_pos rfl]) xs
theorem parseStmt_run (xs : List (List Char)) :
    parseStmt ("RUN".toList.map Char.toUpper) xs = oneOperand parseNat .run xs :=
  parseStmt_upper (by decide) (fun _ => by
    unfold parseStmt; (repeat rw [if_neg (by decide)]); rw [if_pos rfl]) xs
theorem parseStmt_clrAll (xs : List (List Char)) :
    parseStmt ("CLR.ALL".toList.map Char.toUpper) xs = noOperand .clrAll xs :=
  parseStmt_upper (by decide) (fun _ => by
    unfold parseStmt; (repeat rw [if_neg (by decide)]); rw [if_pos rfl]) xs

/-- A name that is no mnemonic and no pseudo-instruction is an error (R66). -/
theorem parseStmt_unknown {m : List Char} (h : m ∉ ["NOP".toList, "DSM.CLR".toList, "DSM.IN".toList,
    "RLE.CLR".toList, "RLE.IN".toList, "RLE.END".toList, "LC.IN".toList, "PM.IN".toList,
    "PIPE.RUN".toList, "STAT.RD".toList, "CFG.RD".toList, "QE.RD".toList, "CNT.RD".toList,
    "DSM.INF".toList, "DSM.SEQ".toList, "RLE.SEQ".toList, "LC.SEQ".toList, "PM.SEQ".toList,
    "RUN".toList, "CLR.ALL".toList]) (xs : List (List Char)) : parseStmt m xs = none := by
  simp only [List.mem_cons, not_or] at h
  unfold parseStmt
  simp only [h, if_false]

end Sys2Proof.Machine
end

