-- ==== Sys2Proof/Laws/State.lean ====
section
/-! SUPPORT. One lemma per field and per named update of the state, true by definition, so that no later
proof unfolds a record update. -/

namespace Sys2Proof.Machine

/-! ### `emit` (R10) -/

@[simp] theorem emit_params (tag : Byte) (val : U24) (s : State) :
    (emit tag val s).params = s.params := rfl
@[simp] theorem emit_qe (tag : Byte) (val : U24) (s : State) :
    (emit tag val s).qe = s.qe := rfl
@[simp] theorem emit_rleStarted (tag : Byte) (val : U24) (s : State) :
    (emit tag val s).rleStarted = s.rleStarted := rfl
@[simp] theorem emit_rleLast (tag : Byte) (val : U24) (s : State) :
    (emit tag val s).rleLast = s.rleLast := rfl
@[simp] theorem emit_rleCount (tag : Byte) (val : U24) (s : State) :
    (emit tag val s).rleCount = s.rleCount := rfl
@[simp] theorem emit_phase (tag : Byte) (val : U24) (s : State) :
    (emit tag val s).phase = s.phase := rfl
@[simp] theorem emit_smpN (tag : Byte) (val : U24) (s : State) :
    (emit tag val s).smpN = s.smpN := rfl
@[simp] theorem emit_smpIdx (tag : Byte) (val : U24) (s : State) :
    (emit tag val s).smpIdx = s.smpIdx := rfl
@[simp] theorem emit_segK (tag : Byte) (val : U24) (s : State) :
    (emit tag val s).segK = s.segK := rfl
@[simp] theorem emit_segBuf (tag : Byte) (val : U24) (s : State) :
    (emit tag val s).segBuf = s.segBuf := rfl
@[simp] theorem emit_total (tag : Byte) (val : U24) (s : State) :
    (emit tag val s).total = s.total := rfl
@[simp] theorem emit_hndIdx (tag : Byte) (val : U24) (s : State) :
    (emit tag val s).hndIdx = s.hndIdx := rfl
@[simp] theorem emit_ticks (tag : Byte) (val : U24) (s : State) :
    (emit tag val s).ticks = s.ticks := rfl
@[simp] theorem emit_cause (tag : Byte) (val : U24) (s : State) :
    (emit tag val s).cause = s.cause := rfl
@[simp] theorem emit_fop (tag : Byte) (val : U24) (s : State) :
    (emit tag val s).fop = s.fop := rfl
@[simp] theorem emit_rsp (tag : Byte) (val : U24) (s : State) :
    (emit tag val s).rsp = s.rsp ++ [tag ++ val] := rfl
@[simp] theorem emit_execH (tag : Byte) (val : U24) (s : State) :
    (emit tag val s).execH = s.execH := rfl
@[simp] theorem emit_execStarted (tag : Byte) (val : U24) (s : State) :
    (emit tag val s).execStarted = s.execStarted := rfl
@[simp] theorem emit_execDur (tag : Byte) (val : U24) (s : State) :
    (emit tag val s).execDur = s.execDur := rfl
@[simp] theorem emit_cmd (tag : Byte) (val : U24) (s : State) :
    (emit tag val s).cmd = s.cmd := rfl
@[simp] theorem emit_env (tag : Byte) (val : U24) (s : State) :
    (emit tag val s).env = s.env := rfl

/-! ### `takeResponse` (R34) -/

@[simp] theorem takeResponse_params (s : State) :
    (takeResponse s).params = s.params := rfl
@[simp] theorem takeResponse_qe (s : State) :
    (takeResponse s).qe = s.qe := rfl
@[simp] theorem takeResponse_rleStarted (s : State) :
    (takeResponse s).rleStarted = s.rleStarted := rfl
@[simp] theorem takeResponse_rleLast (s : State) :
    (takeResponse s).rleLast = s.rleLast := rfl
@[simp] theorem takeResponse_rleCount (s : State) :
    (takeResponse s).rleCount = s.rleCount := rfl
@[simp] theorem takeResponse_phase (s : State) :
    (takeResponse s).phase = s.phase := rfl
@[simp] theorem takeResponse_smpN (s : State) :
    (takeResponse s).smpN = s.smpN := rfl
@[simp] theorem takeResponse_smpIdx (s : State) :
    (takeResponse s).smpIdx = s.smpIdx := rfl
@[simp] theorem takeResponse_segK (s : State) :
    (takeResponse s).segK = s.segK := rfl
@[simp] theorem takeResponse_segBuf (s : State) :
    (takeResponse s).segBuf = s.segBuf := rfl
@[simp] theorem takeResponse_total (s : State) :
    (takeResponse s).total = s.total := rfl
@[simp] theorem takeResponse_hndIdx (s : State) :
    (takeResponse s).hndIdx = s.hndIdx := rfl
@[simp] theorem takeResponse_ticks (s : State) :
    (takeResponse s).ticks = s.ticks := rfl
@[simp] theorem takeResponse_cause (s : State) :
    (takeResponse s).cause = s.cause := rfl
@[simp] theorem takeResponse_fop (s : State) :
    (takeResponse s).fop = s.fop := rfl
@[simp] theorem takeResponse_rsp (s : State) :
    (takeResponse s).rsp = s.rsp.tail := rfl
@[simp] theorem takeResponse_execH (s : State) :
    (takeResponse s).execH = s.execH := rfl
@[simp] theorem takeResponse_execStarted (s : State) :
    (takeResponse s).execStarted = s.execStarted := rfl
@[simp] theorem takeResponse_execDur (s : State) :
    (takeResponse s).execDur = s.execDur := rfl
@[simp] theorem takeResponse_cmd (s : State) :
    (takeResponse s).cmd = s.cmd := rfl
@[simp] theorem takeResponse_env (s : State) :
    (takeResponse s).env = s.env := rfl

/-! ### `writeCommand` (R36) -/

@[simp] theorem writeCommand_params (w : Word) (s : State) :
    (writeCommand w s).params = s.params := rfl
@[simp] theorem writeCommand_qe (w : Word) (s : State) :
    (writeCommand w s).qe = s.qe := rfl
@[simp] theorem writeCommand_rleStarted (w : Word) (s : State) :
    (writeCommand w s).rleStarted = s.rleStarted := rfl
@[simp] theorem writeCommand_rleLast (w : Word) (s : State) :
    (writeCommand w s).rleLast = s.rleLast := rfl
@[simp] theorem writeCommand_rleCount (w : Word) (s : State) :
    (writeCommand w s).rleCount = s.rleCount := rfl
@[simp] theorem writeCommand_phase (w : Word) (s : State) :
    (writeCommand w s).phase = s.phase := rfl
@[simp] theorem writeCommand_smpN (w : Word) (s : State) :
    (writeCommand w s).smpN = s.smpN := rfl
@[simp] theorem writeCommand_smpIdx (w : Word) (s : State) :
    (writeCommand w s).smpIdx = s.smpIdx := rfl
@[simp] theorem writeCommand_segK (w : Word) (s : State) :
    (writeCommand w s).segK = s.segK := rfl
@[simp] theorem writeCommand_segBuf (w : Word) (s : State) :
    (writeCommand w s).segBuf = s.segBuf := rfl
@[simp] theorem writeCommand_total (w : Word) (s : State) :
    (writeCommand w s).total = s.total := rfl
@[simp] theorem writeCommand_hndIdx (w : Word) (s : State) :
    (writeCommand w s).hndIdx = s.hndIdx := rfl
@[simp] theorem writeCommand_ticks (w : Word) (s : State) :
    (writeCommand w s).ticks = s.ticks := rfl
@[simp] theorem writeCommand_cause (w : Word) (s : State) :
    (writeCommand w s).cause = s.cause := rfl
@[simp] theorem writeCommand_fop (w : Word) (s : State) :
    (writeCommand w s).fop = s.fop := rfl
@[simp] theorem writeCommand_rsp (w : Word) (s : State) :
    (writeCommand w s).rsp = s.rsp := rfl
@[simp] theorem writeCommand_execH (w : Word) (s : State) :
    (writeCommand w s).execH = s.execH := rfl
@[simp] theorem writeCommand_execStarted (w : Word) (s : State) :
    (writeCommand w s).execStarted = s.execStarted := rfl
@[simp] theorem writeCommand_execDur (w : Word) (s : State) :
    (writeCommand w s).execDur = s.execDur := rfl
@[simp] theorem writeCommand_cmd (w : Word) (s : State) :
    (writeCommand w s).cmd = s.cmd ++ [w] := rfl
@[simp] theorem writeCommand_env (w : Word) (s : State) :
    (writeCommand w s).env = s.env := rfl

/-! ### `enterFault` (R118) -/

@[simp] theorem enterFault_params (c : Cause) (op : Byte) (s : State) :
    (enterFault c op s).params = s.params := rfl
@[simp] theorem enterFault_qe (c : Cause) (op : Byte) (s : State) :
    (enterFault c op s).qe = s.qe := rfl
@[simp] theorem enterFault_rleStarted (c : Cause) (op : Byte) (s : State) :
    (enterFault c op s).rleStarted = s.rleStarted := rfl
@[simp] theorem enterFault_rleLast (c : Cause) (op : Byte) (s : State) :
    (enterFault c op s).rleLast = s.rleLast := rfl
@[simp] theorem enterFault_rleCount (c : Cause) (op : Byte) (s : State) :
    (enterFault c op s).rleCount = s.rleCount := rfl
@[simp] theorem enterFault_phase (c : Cause) (op : Byte) (s : State) :
    (enterFault c op s).phase = .faulted := rfl
@[simp] theorem enterFault_smpN (c : Cause) (op : Byte) (s : State) :
    (enterFault c op s).smpN = s.smpN := rfl
@[simp] theorem enterFault_smpIdx (c : Cause) (op : Byte) (s : State) :
    (enterFault c op s).smpIdx = s.smpIdx := rfl
@[simp] theorem enterFault_segK (c : Cause) (op : Byte) (s : State) :
    (enterFault c op s).segK = s.segK := rfl
@[simp] theorem enterFault_segBuf (c : Cause) (op : Byte) (s : State) :
    (enterFault c op s).segBuf = s.segBuf := rfl
@[simp] theorem enterFault_total (c : Cause) (op : Byte) (s : State) :
    (enterFault c op s).total = s.total := rfl
@[simp] theorem enterFault_hndIdx (c : Cause) (op : Byte) (s : State) :
    (enterFault c op s).hndIdx = s.hndIdx := rfl
@[simp] theorem enterFault_ticks (c : Cause) (op : Byte) (s : State) :
    (enterFault c op s).ticks = s.ticks := rfl
@[simp] theorem enterFault_cause (c : Cause) (op : Byte) (s : State) :
    (enterFault c op s).cause = c := rfl
@[simp] theorem enterFault_fop (c : Cause) (op : Byte) (s : State) :
    (enterFault c op s).fop = op := rfl
@[simp] theorem enterFault_rsp (c : Cause) (op : Byte) (s : State) :
    (enterFault c op s).rsp = s.rsp ++ [(0xFF : Byte) ++ faultVal c op] := rfl
@[simp] theorem enterFault_execH (c : Cause) (op : Byte) (s : State) :
    (enterFault c op s).execH = s.execH := rfl
@[simp] theorem enterFault_execStarted (c : Cause) (op : Byte) (s : State) :
    (enterFault c op s).execStarted = s.execStarted := rfl
@[simp] theorem enterFault_execDur (c : Cause) (op : Byte) (s : State) :
    (enterFault c op s).execDur = s.execDur := rfl
@[simp] theorem enterFault_cmd (c : Cause) (op : Byte) (s : State) :
    (enterFault c op s).cmd = s.cmd := rfl
@[simp] theorem enterFault_env (c : Cause) (op : Byte) (s : State) :
    (enterFault c op s).env = s.env := rfl

/-! ### `refuseFaulted` (R122) -/

@[simp] theorem refuseFaulted_params (s : State) :
    (refuseFaulted s).params = s.params := rfl
@[simp] theorem refuseFaulted_qe (s : State) :
    (refuseFaulted s).qe = s.qe := rfl
@[simp] theorem refuseFaulted_rleStarted (s : State) :
    (refuseFaulted s).rleStarted = s.rleStarted := rfl
@[simp] theorem refuseFaulted_rleLast (s : State) :
    (refuseFaulted s).rleLast = s.rleLast := rfl
@[simp] theorem refuseFaulted_rleCount (s : State) :
    (refuseFaulted s).rleCount = s.rleCount := rfl
@[simp] theorem refuseFaulted_phase (s : State) :
    (refuseFaulted s).phase = s.phase := rfl
@[simp] theorem refuseFaulted_smpN (s : State) :
    (refuseFaulted s).smpN = s.smpN := rfl
@[simp] theorem refuseFaulted_smpIdx (s : State) :
    (refuseFaulted s).smpIdx = s.smpIdx := rfl
@[simp] theorem refuseFaulted_segK (s : State) :
    (refuseFaulted s).segK = s.segK := rfl
@[simp] theorem refuseFaulted_segBuf (s : State) :
    (refuseFaulted s).segBuf = s.segBuf := rfl
@[simp] theorem refuseFaulted_total (s : State) :
    (refuseFaulted s).total = s.total := rfl
@[simp] theorem refuseFaulted_hndIdx (s : State) :
    (refuseFaulted s).hndIdx = s.hndIdx := rfl
@[simp] theorem refuseFaulted_ticks (s : State) :
    (refuseFaulted s).ticks = s.ticks := rfl
@[simp] theorem refuseFaulted_cause (s : State) :
    (refuseFaulted s).cause = s.cause := rfl
@[simp] theorem refuseFaulted_fop (s : State) :
    (refuseFaulted s).fop = s.fop := rfl
@[simp] theorem refuseFaulted_rsp (s : State) :
    (refuseFaulted s).rsp = s.rsp ++ [(0xFF : Byte) ++ faultVal s.cause s.fop] := rfl
@[simp] theorem refuseFaulted_execH (s : State) :
    (refuseFaulted s).execH = s.execH := rfl
@[simp] theorem refuseFaulted_execStarted (s : State) :
    (refuseFaulted s).execStarted = s.execStarted := rfl
@[simp] theorem refuseFaulted_execDur (s : State) :
    (refuseFaulted s).execDur = s.execDur := rfl
@[simp] theorem refuseFaulted_cmd (s : State) :
    (refuseFaulted s).cmd = s.cmd := rfl
@[simp] theorem refuseFaulted_env (s : State) :
    (refuseFaulted s).env = s.env := rfl

/-! ### `execPush` (R98) -/

@[simp] theorem execPush_params (w : U24) (s : State) :
    (execPush w s).params = s.params := rfl
@[simp] theorem execPush_qe (w : U24) (s : State) :
    (execPush w s).qe = s.qe := rfl
@[simp] theorem execPush_rleStarted (w : U24) (s : State) :
    (execPush w s).rleStarted = s.rleStarted := rfl
@[simp] theorem execPush_rleLast (w : U24) (s : State) :
    (execPush w s).rleLast = s.rleLast := rfl
@[simp] theorem execPush_rleCount (w : U24) (s : State) :
    (execPush w s).rleCount = s.rleCount := rfl
@[simp] theorem execPush_phase (w : U24) (s : State) :
    (execPush w s).phase = s.phase := rfl
@[simp] theorem execPush_smpN (w : U24) (s : State) :
    (execPush w s).smpN = s.smpN := rfl
@[simp] theorem execPush_smpIdx (w : U24) (s : State) :
    (execPush w s).smpIdx = s.smpIdx := rfl
@[simp] theorem execPush_segK (w : U24) (s : State) :
    (execPush w s).segK = s.segK := rfl
@[simp] theorem execPush_segBuf (w : U24) (s : State) :
    (execPush w s).segBuf = s.segBuf := rfl
@[simp] theorem execPush_total (w : U24) (s : State) :
    (execPush w s).total = s.total := rfl
@[simp] theorem execPush_hndIdx (w : U24) (s : State) :
    (execPush w s).hndIdx = s.hndIdx := rfl
@[simp] theorem execPush_ticks (w : U24) (s : State) :
    (execPush w s).ticks = s.ticks := rfl
@[simp] theorem execPush_cause (w : U24) (s : State) :
    (execPush w s).cause = s.cause := rfl
@[simp] theorem execPush_fop (w : U24) (s : State) :
    (execPush w s).fop = s.fop := rfl
@[simp] theorem execPush_rsp (w : U24) (s : State) :
    (execPush w s).rsp = s.rsp := rfl
@[simp] theorem execPush_execH (w : U24) (s : State) :
    (execPush w s).execH = s.execH ++ [w] := rfl
@[simp] theorem execPush_execStarted (w : U24) (s : State) :
    (execPush w s).execStarted = s.execStarted := rfl
@[simp] theorem execPush_execDur (w : U24) (s : State) :
    (execPush w s).execDur = s.execDur := rfl
@[simp] theorem execPush_cmd (w : U24) (s : State) :
    (execPush w s).cmd = s.cmd := rfl
@[simp] theorem execPush_env (w : U24) (s : State) :
    (execPush w s).env = s.env := rfl

/-! ### `execStart` (R99) -/

@[simp] theorem execStart_params (d : U24) (s : State) :
    (execStart d s).params = s.params := rfl
@[simp] theorem execStart_qe (d : U24) (s : State) :
    (execStart d s).qe = s.qe := rfl
@[simp] theorem execStart_rleStarted (d : U24) (s : State) :
    (execStart d s).rleStarted = s.rleStarted := rfl
@[simp] theorem execStart_rleLast (d : U24) (s : State) :
    (execStart d s).rleLast = s.rleLast := rfl
@[simp] theorem execStart_rleCount (d : U24) (s : State) :
    (execStart d s).rleCount = s.rleCount := rfl
@[simp] theorem execStart_phase (d : U24) (s : State) :
    (execStart d s).phase = s.phase := rfl
@[simp] theorem execStart_smpN (d : U24) (s : State) :
    (execStart d s).smpN = s.smpN := rfl
@[simp] theorem execStart_smpIdx (d : U24) (s : State) :
    (execStart d s).smpIdx = s.smpIdx := rfl
@[simp] theorem execStart_segK (d : U24) (s : State) :
    (execStart d s).segK = s.segK := rfl
@[simp] theorem execStart_segBuf (d : U24) (s : State) :
    (execStart d s).segBuf = s.segBuf := rfl
@[simp] theorem execStart_total (d : U24) (s : State) :
    (execStart d s).total = s.total := rfl
@[simp] theorem execStart_hndIdx (d : U24) (s : State) :
    (execStart d s).hndIdx = s.hndIdx := rfl
@[simp] theorem execStart_ticks (d : U24) (s : State) :
    (execStart d s).ticks = s.ticks := rfl
@[simp] theorem execStart_cause (d : U24) (s : State) :
    (execStart d s).cause = s.cause := rfl
@[simp] theorem execStart_fop (d : U24) (s : State) :
    (execStart d s).fop = s.fop := rfl
@[simp] theorem execStart_rsp (d : U24) (s : State) :
    (execStart d s).rsp = s.rsp := rfl
@[simp] theorem execStart_execH (d : U24) (s : State) :
    (execStart d s).execH = s.execH := rfl
@[simp] theorem execStart_execStarted (d : U24) (s : State) :
    (execStart d s).execStarted = true := rfl
@[simp] theorem execStart_execDur (d : U24) (s : State) :
    (execStart d s).execDur = d := rfl
@[simp] theorem execStart_cmd (d : U24) (s : State) :
    (execStart d s).cmd = s.cmd := rfl
@[simp] theorem execStart_env (d : U24) (s : State) :
    (execStart d s).env = s.env := rfl

/-! ### `setQe` (R14) -/

@[simp] theorem setQe_params (q : Int) (s : State) :
    (setQe q s).params = s.params := rfl
@[simp] theorem setQe_qe (q : Int) (s : State) :
    (setQe q s).qe = BitVec.ofInt 32 q := rfl
@[simp] theorem setQe_rleStarted (q : Int) (s : State) :
    (setQe q s).rleStarted = s.rleStarted := rfl
@[simp] theorem setQe_rleLast (q : Int) (s : State) :
    (setQe q s).rleLast = s.rleLast := rfl
@[simp] theorem setQe_rleCount (q : Int) (s : State) :
    (setQe q s).rleCount = s.rleCount := rfl
@[simp] theorem setQe_phase (q : Int) (s : State) :
    (setQe q s).phase = s.phase := rfl
@[simp] theorem setQe_smpN (q : Int) (s : State) :
    (setQe q s).smpN = s.smpN := rfl
@[simp] theorem setQe_smpIdx (q : Int) (s : State) :
    (setQe q s).smpIdx = s.smpIdx := rfl
@[simp] theorem setQe_segK (q : Int) (s : State) :
    (setQe q s).segK = s.segK := rfl
@[simp] theorem setQe_segBuf (q : Int) (s : State) :
    (setQe q s).segBuf = s.segBuf := rfl
@[simp] theorem setQe_total (q : Int) (s : State) :
    (setQe q s).total = s.total := rfl
@[simp] theorem setQe_hndIdx (q : Int) (s : State) :
    (setQe q s).hndIdx = s.hndIdx := rfl
@[simp] theorem setQe_ticks (q : Int) (s : State) :
    (setQe q s).ticks = s.ticks := rfl
@[simp] theorem setQe_cause (q : Int) (s : State) :
    (setQe q s).cause = s.cause := rfl
@[simp] theorem setQe_fop (q : Int) (s : State) :
    (setQe q s).fop = s.fop := rfl
@[simp] theorem setQe_rsp (q : Int) (s : State) :
    (setQe q s).rsp = s.rsp := rfl
@[simp] theorem setQe_execH (q : Int) (s : State) :
    (setQe q s).execH = s.execH := rfl
@[simp] theorem setQe_execStarted (q : Int) (s : State) :
    (setQe q s).execStarted = s.execStarted := rfl
@[simp] theorem setQe_execDur (q : Int) (s : State) :
    (setQe q s).execDur = s.execDur := rfl
@[simp] theorem setQe_cmd (q : Int) (s : State) :
    (setQe q s).cmd = s.cmd := rfl
@[simp] theorem setQe_env (q : Int) (s : State) :
    (setQe q s).env = s.env := rfl

/-! ### `setRle` (R77) -/

@[simp] theorem setRle_params (r : RleRegs) (s : State) :
    (setRle r s).params = s.params := rfl
@[simp] theorem setRle_qe (r : RleRegs) (s : State) :
    (setRle r s).qe = s.qe := rfl
@[simp] theorem setRle_rleStarted (r : RleRegs) (s : State) :
    (setRle r s).rleStarted = r.started := rfl
@[simp] theorem setRle_rleLast (r : RleRegs) (s : State) :
    (setRle r s).rleLast = r.last := rfl
@[simp] theorem setRle_rleCount (r : RleRegs) (s : State) :
    (setRle r s).rleCount = r.count := rfl
@[simp] theorem setRle_phase (r : RleRegs) (s : State) :
    (setRle r s).phase = s.phase := rfl
@[simp] theorem setRle_smpN (r : RleRegs) (s : State) :
    (setRle r s).smpN = s.smpN := rfl
@[simp] theorem setRle_smpIdx (r : RleRegs) (s : State) :
    (setRle r s).smpIdx = s.smpIdx := rfl
@[simp] theorem setRle_segK (r : RleRegs) (s : State) :
    (setRle r s).segK = s.segK := rfl
@[simp] theorem setRle_segBuf (r : RleRegs) (s : State) :
    (setRle r s).segBuf = s.segBuf := rfl
@[simp] theorem setRle_total (r : RleRegs) (s : State) :
    (setRle r s).total = s.total := rfl
@[simp] theorem setRle_hndIdx (r : RleRegs) (s : State) :
    (setRle r s).hndIdx = s.hndIdx := rfl
@[simp] theorem setRle_ticks (r : RleRegs) (s : State) :
    (setRle r s).ticks = s.ticks := rfl
@[simp] theorem setRle_cause (r : RleRegs) (s : State) :
    (setRle r s).cause = s.cause := rfl
@[simp] theorem setRle_fop (r : RleRegs) (s : State) :
    (setRle r s).fop = s.fop := rfl
@[simp] theorem setRle_rsp (r : RleRegs) (s : State) :
    (setRle r s).rsp = s.rsp := rfl
@[simp] theorem setRle_execH (r : RleRegs) (s : State) :
    (setRle r s).execH = s.execH := rfl
@[simp] theorem setRle_execStarted (r : RleRegs) (s : State) :
    (setRle r s).execStarted = s.execStarted := rfl
@[simp] theorem setRle_execDur (r : RleRegs) (s : State) :
    (setRle r s).execDur = s.execDur := rfl
@[simp] theorem setRle_cmd (r : RleRegs) (s : State) :
    (setRle r s).cmd = s.cmd := rfl
@[simp] theorem setRle_env (r : RleRegs) (s : State) :
    (setRle r s).env = s.env := rfl

/-! ### `startRun` (R94) -/

@[simp] theorem startRun_params (n : U24) (s : State) :
    (startRun n s).params = s.params := rfl
@[simp] theorem startRun_qe (n : U24) (s : State) :
    (startRun n s).qe = 0 := rfl
@[simp] theorem startRun_rleStarted (n : U24) (s : State) :
    (startRun n s).rleStarted = false := rfl
@[simp] theorem startRun_rleLast (n : U24) (s : State) :
    (startRun n s).rleLast = false := rfl
@[simp] theorem startRun_rleCount (n : U24) (s : State) :
    (startRun n s).rleCount = 0 := rfl
@[simp] theorem startRun_phase (n : U24) (s : State) :
    (startRun n s).phase = .compute := rfl
@[simp] theorem startRun_smpN (n : U24) (s : State) :
    (startRun n s).smpN = n := rfl
@[simp] theorem startRun_smpIdx (n : U24) (s : State) :
    (startRun n s).smpIdx = 0 := rfl
@[simp] theorem startRun_segK (n : U24) (s : State) :
    (startRun n s).segK = 0 := rfl
@[simp] theorem startRun_segBuf (n : U24) (s : State) :
    (startRun n s).segBuf = s.segBuf := rfl
@[simp] theorem startRun_total (n : U24) (s : State) :
    (startRun n s).total = 0 := rfl
@[simp] theorem startRun_hndIdx (n : U24) (s : State) :
    (startRun n s).hndIdx = 0 := rfl
@[simp] theorem startRun_ticks (n : U24) (s : State) :
    (startRun n s).ticks = 0 := rfl
@[simp] theorem startRun_cause (n : U24) (s : State) :
    (startRun n s).cause = s.cause := rfl
@[simp] theorem startRun_fop (n : U24) (s : State) :
    (startRun n s).fop = s.fop := rfl
@[simp] theorem startRun_rsp (n : U24) (s : State) :
    (startRun n s).rsp = s.rsp := rfl
@[simp] theorem startRun_execH (n : U24) (s : State) :
    (startRun n s).execH = [] := rfl
@[simp] theorem startRun_execStarted (n : U24) (s : State) :
    (startRun n s).execStarted = false := rfl
@[simp] theorem startRun_execDur (n : U24) (s : State) :
    (startRun n s).execDur = 0 := rfl
@[simp] theorem startRun_cmd (n : U24) (s : State) :
    (startRun n s).cmd = s.cmd := rfl
@[simp] theorem startRun_env (n : U24) (s : State) :
    (startRun n s).env = s.env := rfl

/-! ### `sampleWrites` (R95) -/

@[simp] theorem sampleWrites_params (q : Int) (r : RleRegs) (s : State) :
    (sampleWrites q r s).params = s.params := rfl
@[simp] theorem sampleWrites_qe (q : Int) (r : RleRegs) (s : State) :
    (sampleWrites q r s).qe = BitVec.ofInt 32 q := rfl
@[simp] theorem sampleWrites_rleStarted (q : Int) (r : RleRegs) (s : State) :
    (sampleWrites q r s).rleStarted = r.started := rfl
@[simp] theorem sampleWrites_rleLast (q : Int) (r : RleRegs) (s : State) :
    (sampleWrites q r s).rleLast = r.last := rfl
@[simp] theorem sampleWrites_rleCount (q : Int) (r : RleRegs) (s : State) :
    (sampleWrites q r s).rleCount = r.count := rfl
@[simp] theorem sampleWrites_phase (q : Int) (r : RleRegs) (s : State) :
    (sampleWrites q r s).phase = s.phase := rfl
@[simp] theorem sampleWrites_smpN (q : Int) (r : RleRegs) (s : State) :
    (sampleWrites q r s).smpN = s.smpN := rfl
@[simp] theorem sampleWrites_smpIdx (q : Int) (r : RleRegs) (s : State) :
    (sampleWrites q r s).smpIdx = s.smpIdx + 1 := rfl
@[simp] theorem sampleWrites_segK (q : Int) (r : RleRegs) (s : State) :
    (sampleWrites q r s).segK = s.segK := rfl
@[simp] theorem sampleWrites_segBuf (q : Int) (r : RleRegs) (s : State) :
    (sampleWrites q r s).segBuf = s.segBuf := rfl
@[simp] theorem sampleWrites_total (q : Int) (r : RleRegs) (s : State) :
    (sampleWrites q r s).total = s.total := rfl
@[simp] theorem sampleWrites_hndIdx (q : Int) (r : RleRegs) (s : State) :
    (sampleWrites q r s).hndIdx = s.hndIdx := rfl
@[simp] theorem sampleWrites_ticks (q : Int) (r : RleRegs) (s : State) :
    (sampleWrites q r s).ticks = s.ticks := rfl
@[simp] theorem sampleWrites_cause (q : Int) (r : RleRegs) (s : State) :
    (sampleWrites q r s).cause = s.cause := rfl
@[simp] theorem sampleWrites_fop (q : Int) (r : RleRegs) (s : State) :
    (sampleWrites q r s).fop = s.fop := rfl
@[simp] theorem sampleWrites_rsp (q : Int) (r : RleRegs) (s : State) :
    (sampleWrites q r s).rsp = s.rsp := rfl
@[simp] theorem sampleWrites_execH (q : Int) (r : RleRegs) (s : State) :
    (sampleWrites q r s).execH = s.execH := rfl
@[simp] theorem sampleWrites_execStarted (q : Int) (r : RleRegs) (s : State) :
    (sampleWrites q r s).execStarted = s.execStarted := rfl
@[simp] theorem sampleWrites_execDur (q : Int) (r : RleRegs) (s : State) :
    (sampleWrites q r s).execDur = s.execDur := rfl
@[simp] theorem sampleWrites_cmd (q : Int) (r : RleRegs) (s : State) :
    (sampleWrites q r s).cmd = s.cmd := rfl
@[simp] theorem sampleWrites_env (q : Int) (r : RleRegs) (s : State) :
    (sampleWrites q r s).env = s.env := rfl

/-! ### Reset (R131, R35) -/

@[simp] theorem rst_params (s : State) : s.rst.params = s.params := rfl
@[simp] theorem rst_qe (s : State) : s.rst.qe = 0 := rfl
@[simp] theorem rst_rleStarted (s : State) : s.rst.rleStarted = false := rfl
@[simp] theorem rst_rleLast (s : State) : s.rst.rleLast = false := rfl
@[simp] theorem rst_rleCount (s : State) : s.rst.rleCount = 0 := rfl
@[simp] theorem rst_phase (s : State) : s.rst.phase = .idle := rfl
@[simp] theorem rst_smpN (s : State) : s.rst.smpN = 0 := rfl
@[simp] theorem rst_smpIdx (s : State) : s.rst.smpIdx = 0 := rfl
@[simp] theorem rst_segK (s : State) : s.rst.segK = 0 := rfl
@[simp] theorem rst_segBuf (s : State) : s.rst.segBuf = [] := rfl
@[simp] theorem rst_total (s : State) : s.rst.total = 0 := rfl
@[simp] theorem rst_hndIdx (s : State) : s.rst.hndIdx = 0 := rfl
@[simp] theorem rst_ticks (s : State) : s.rst.ticks = 0 := rfl
@[simp] theorem rst_cause (s : State) : s.rst.cause = .none := rfl
@[simp] theorem rst_fop (s : State) : s.rst.fop = 0 := rfl
@[simp] theorem rst_rsp (s : State) : s.rst.rsp = [] := rfl
@[simp] theorem rst_execH (s : State) : s.rst.execH = [] := rfl
@[simp] theorem rst_execStarted (s : State) : s.rst.execStarted = false := rfl
@[simp] theorem rst_execDur (s : State) : s.rst.execDur = 0 := rfl
@[simp] theorem rst_cmd (s : State) : s.rst.cmd = [] := rfl
@[simp] theorem rst_env (s : State) : s.rst.env = s.env := rfl

/-! ### The encoder's registers as one value -/

@[simp] theorem rle_started (s : State) : s.rle.started = s.rleStarted := rfl
@[simp] theorem rle_last (s : State) : s.rle.last = s.rleLast := rfl
@[simp] theorem rle_count (s : State) : s.rle.count = s.rleCount := rfl
@[simp] theorem setRle_rle (r : RleRegs) (s : State) : (setRle r s).rle = r := rfl
@[simp] theorem setRle_setRle (r r' : RleRegs) (s : State) : setRle r (setRle r' s) = setRle r s := rfl
@[simp] theorem setRle_self (s : State) : setRle s.rle s = s := rfl
@[simp] theorem clear_started : RleRegs.clear.started = false := rfl
@[simp] theorem clear_last : RleRegs.clear.last = false := rfl
@[simp] theorem clear_count : RleRegs.clear.count = 0 := rfl

end Sys2Proof.Machine
end

