-- ==== Sys2Proof/Laws/Memory.lean ====
section
/-! SUPPORT. The segment buffer: a read after a write, and the canonical form, which every memory
operation keeps. -/

namespace Sys2Proof.Machine

/-- Reading the entry just written gives the value written. -/
@[simp] theorem Memory_read_write_same (m : Memory) (i : Nat) (v : U24) :
    (m.write i v).read i = some v := by
  induction m with
  | nil => simp [Memory.write, Memory.read]
  | cons e m ih =>
    obtain ⟨j, x⟩ := e
    simp only [Memory.write]
    split
    · simp [Memory.read]
    · split
      · simp [Memory.read]
      · simp_all [Memory.read]

/-- A write leaves every other entry alone. -/
theorem Memory_read_write_other (m : Memory) {i k : Nat} (v : U24) (h : k ≠ i) :
    (m.write i v).read k = m.read k := by
  induction m with
  | nil => simp [Memory.write, Memory.read, h]
  | cons e m ih =>
    obtain ⟨j, x⟩ := e
    simp only [Memory.write]
    split
    · simp [Memory.read, h]
    · split
      · rename_i hij
        subst hij
        simp [Memory.read, h]
      · simp [Memory.read, ih]

/-- The canonical form from a lower bound on is the canonical form from any bound below it. -/
theorem Memory_wfFrom_mono {lo lo' : Nat} {m : Memory} (h : Memory.wfFrom lo m = true)
    (hl : lo' ≤ lo) : Memory.wfFrom lo' m = true := by
  cases m with
  | nil => rfl
  | cons e m =>
    simp only [Memory.wfFrom, Bool.and_eq_true, decide_eq_true_eq] at h ⊢
    exact ⟨hl.trans h.1, h.2⟩

/-- A write at or above the lower bound keeps the canonical form from that bound. -/
theorem Memory_wfFrom_write {lo : Nat} {m : Memory} {i : Nat} (v : U24)
    (h : Memory.wfFrom lo m = true) (hi : lo ≤ i) : Memory.wfFrom lo (m.write i v) = true := by
  induction m generalizing lo with
  | nil => simp [Memory.write, Memory.wfFrom, hi]
  | cons e m ih =>
    obtain ⟨j, x⟩ := e
    simp only [Memory.wfFrom, Bool.and_eq_true, decide_eq_true_eq] at h
    simp only [Memory.write]
    split
    · rename_i hij
      simp [Memory.wfFrom, hi, h.2, Nat.succ_le_of_lt hij]
    · split
      · rename_i _ hij
        subst hij
        simp [Memory.wfFrom, hi, h.2]
      · have : j + 1 ≤ i := by omega
        simp [Memory.wfFrom, h.1, ih h.2 this]

/-- A write keeps the canonical form. -/
theorem Memory_wf_write {m : Memory} (i : Nat) (v : U24) (h : m.wf = true) :
    (m.write i v).wf = true :=
  Memory_wfFrom_write v h (Nat.zero_le i)

/-- The entries after a write are the one written and entries from before. -/
theorem Memory_mem_write {m : Memory} {i : Nat} {v : U24} {e : Nat × U24}
    (h : e ∈ m.write i v) : e = (i, v) ∨ e ∈ m := by
  induction m with
  | nil => simpa [Memory.write] using h
  | cons a m ih =>
    obtain ⟨j, x⟩ := a
    simp only [Memory.write] at h
    split at h
    · simpa using h
    · split at h
      · rcases List.mem_cons.1 h with h | h
        · exact .inl h
        · exact .inr (List.mem_cons_of_mem _ h)
      · rcases List.mem_cons.1 h with h | h
        · exact .inr (h ▸ List.mem_cons_self)
        · exact (ih h).imp id (List.mem_cons_of_mem _)

/-- The buffer after reset is in canonical form. -/
theorem reset_segBuf_wf : State.reset.segBuf.wf = true := rfl

end Sys2Proof.Machine
end

