-- ==== Sys2Proof/Laws/Ops.lean ====
section
/-! SUPPORT. For each shared operation, once, everything it can do. -/

namespace Sys2Proof.Machine

/-- Taking a fault always goes on, to the entered fault state (R118). -/
@[simp] theorem raise_next_iff (c : Cause) (op : Byte) (s t : State) :
    raise c op s = .next t ↔ t = enterFault c op s := by
  simp [raise, eq_comm]

/-- In IDLE the command's own rule is performed (R110). -/
theorem whenIdle_idle {body : State → Outcome} {s : State} (h : s.phase = .idle) :
    whenIdle body s = body s := by simp [whenIdle, h]

/-- In FAULTED the recorded FAULT word is the answer (R110, R122). -/
theorem whenIdle_faulted {body : State → Outcome} {s : State} (h : s.phase = .faulted) :
    whenIdle body s = .next (refuseFaulted s) := by simp [whenIdle, h]

/-- In IDLE and in FAULTED the five commands that FAULTED accepts are performed (R110). -/
theorem whenIdleOrFaulted_accepts {body : State → Outcome} {s : State}
    (h : s.phase = .idle ∨ s.phase = .faulted) : whenIdleOrFaulted body s = body s := by
  rcases h with h | h <;> simp [whenIdleOrFaulted, h]

/-- Everything command acceptance can do: perform the rule in IDLE, answer the FAULT word in FAULTED,
nothing in the other phases (R110). -/
theorem whenIdle_cases {body : State → Outcome} {s t : State} (h : whenIdle body s = .next t) :
    (s.phase = .idle ∧ body s = .next t) ∨ (s.phase = .faulted ∧ t = refuseFaulted s) ∨
      (s.busy = true ∧ t = s) := by
  unfold whenIdle at h
  split at h
  · exact .inl ⟨‹_›, h⟩
  · rename_i hp
    simp only [Host.Outcome.next.injEq] at h
    exact .inr (.inl ⟨hp, h.symm⟩)
  all_goals
    rename_i hp
    simp only [Host.Outcome.next.injEq] at h
    exact .inr (.inr ⟨by simp [State.busy, hp], h.symm⟩)

/-- Everything acceptance of the five commands can do (R110). -/
theorem whenIdleOrFaulted_cases {body : State → Outcome} {s t : State}
    (h : whenIdleOrFaulted body s = .next t) :
    ((s.phase = .idle ∨ s.phase = .faulted) ∧ body s = .next t) ∨ (s.busy = true ∧ t = s) := by
  unfold whenIdleOrFaulted at h
  split at h
  · exact .inl ⟨.inl ‹_›, h⟩
  · exact .inl ⟨.inr ‹_›, h⟩
  all_goals
    rename_i hp
    simp only [Host.Outcome.next.injEq] at h
    exact .inr ⟨by simp [State.busy, hp], h.symm⟩

/-- A read of SEG_BUF answers exactly a written entry below MAX_SEG (R37, R38). -/
theorem segRead_ok_iff {i : Nat} {s : State} {v : U24} :
    segRead i s = .ok v ↔ i < s.params.maxSeg ∧ s.segBuf.read i = some v := by
  unfold segRead
  split
  · cases h : s.segBuf.read i <;> simp_all
  · simp_all

/-- SEG_BUF is appended to exactly below MAX_SEG (R37). -/
theorem segAppend_ok_iff {d : U24} {s t : State} :
    segAppend d s = .ok t ↔ s.segK < s.params.maxSeg ∧
      t = { s with segBuf := s.segBuf.write s.segK d, segK := s.segK + 1 } := by
  unfold segAppend
  split <;> simp_all [eq_comm]

/-- The entries below k + 1 are those below k and the one at k. -/
theorem segReadAll_succ_ok {s : State} {k : Nat} {ds : List U24} {d : U24}
    (h : segReadAll s k = .ok ds) (hd : segRead k s = .ok d) :
    segReadAll s (k + 1) = .ok (ds ++ [d]) := by
  simp [segReadAll, h, hd]

/-- Reading all entries below k reads k of them. -/
theorem segReadAll_length {s : State} {k : Nat} {ds : List U24} (h : segReadAll s k = .ok ds) :
    ds.length = k := by
  induction k generalizing ds with
  | zero => simp_all [segReadAll, eq_comm]
  | succ k ih =>
    simp only [segReadAll] at h
    split at h
    · cases h
    · split at h
      · cases h
      · cases h
        simp [ih ‹_›]

/-- Reading all entries below k reads the entry at each index below k. -/
theorem segReadAll_entry {s : State} {k : Nat} {ds : List U24} (h : segReadAll s k = .ok ds)
    {i : Nat} (hi : i < k) : ∃ d, ds[i]? = some d ∧ segRead i s = .ok d := by
  induction k generalizing ds with
  | zero => omega
  | succ k ih =>
    simp only [segReadAll] at h
    split at h
    · cases h
    · rename_i ds' hds
      split at h
      · cases h
      · rename_i d hd
        cases h
        have hl := segReadAll_length hds
        rcases Nat.lt_succ_iff_lt_or_eq.1 hi with hi | rfl
        · obtain ⟨e, he, hr⟩ := ih hds hi
          exact ⟨e, by rw [List.getElem?_append_left (by omega)]; exact he, hr⟩
        · exact ⟨d, by simp [← hl], hd⟩

/-- What the entries below k read depends only on SEG_BUF below k and on MAX_SEG. -/
theorem segReadAll_congr {s t : State} {k : Nat} (hp : t.params = s.params)
    (hm : ∀ i, i < k → t.segBuf.read i = s.segBuf.read i) : segReadAll t k = segReadAll s k := by
  induction k with
  | zero => rfl
  | succ k ih =>
    have h1 := ih (fun i hi => hm i (Nat.lt_succ_of_lt hi))
    have h2 : segRead k t = segRead k s := by
      unfold segRead
      rw [hp, hm k (Nat.lt_succ_self k)]
    simp only [segReadAll, h1, h2]

/-- A sample read answers exactly an entry of the instance's source (R39). -/
theorem refRead_ok_iff {n N : Nat} {s : State} {x : Sample} :
    refRead n N s = .ok x ↔ RefSource.sample s.params.ref n N = some x := by
  unfold refRead
  cases RefSource.sample s.params.ref n N <;> simp

end Sys2Proof.Machine
end

