-- ==== Sys2Proof/Laws/Blocks.lean ====
section
/-! SUPPORT. One specification lemma per pure function of a block. -/

namespace Sys2Proof.Machine

@[simp] theorem symCode_one : symCode 1 = true := rfl
@[simp] theorem symCode_neg_one : symCode (-1) = false := rfl

/-- The code of the symbol a code denotes is the code (R61). -/
@[simp] theorem symCode_sym (c : Bool) : symCode (sym c) = c := by cases c <;> rfl

/-- dsm_step overflows exactly when the exact sum leaves int32 (R70). -/
theorem dsmStep_none_iff (q s : Int) :
    dsmStep q s = none ↔ q + s < -2 ^ 31 ∨ 2 ^ 31 - 1 < q + s := by
  simp only [dsmStep]
  split <;> simp_all

/-- Everything dsm_step can answer: the symbol is +1 exactly for a positive sum, and the new
accumulator is the sum less the symbol (R70, R71). -/
theorem dsmStep_some {q s q' : Int} {c : Bool} (h : dsmStep q s = some (c, q')) :
    -2 ^ 31 ≤ q + s ∧ q + s ≤ 2 ^ 31 - 1 ∧ c = decide (0 < q + s) ∧
      q' = q + s - sym c * Config.one := by
  simp only [dsmStep] at h
  split at h
  · cases h
  · split at h <;> simp_all [sym]

/-- The accumulator dsm_step answers is again in int32 (R70). -/
theorem dsmStep_int32 {q s q' : Int} {c : Bool} (h : dsmStep q s = some (c, q')) :
    -2 ^ 31 ≤ q' ∧ q' ≤ 2 ^ 31 - 1 := by
  obtain ⟨h1, h2, rfl, rfl⟩ := dsmStep_some h
  by_cases hp : 0 < q + s <;> simp [hp, sym, Config.one] <;> omega

/-- QE holds the value written where it is in int32 (R14). -/
theorem setQe_toInt {q : Int} (h : -2 ^ 31 ≤ q) (h' : q ≤ 2 ^ 31 - 1) (s : State) :
    (setQe q s).qe.toInt = q := by
  rw [setQe_qe, BitVec.toInt_ofInt, Int.bmod_eq_of_le] <;> omega

/-- The step stays in [−ONE, ONE] from there for a sample in [−ONE, ONE], and does not overflow (R74). -/
theorem dsmStep_bounded {q s : Int} (hq : -Config.one ≤ q) (hq' : q ≤ Config.one)
    (hs : -Config.one ≤ s) (hs' : s ≤ Config.one) :
    ∃ c q', dsmStep q s = some (c, q') ∧ -Config.one ≤ q' ∧ q' ≤ Config.one := by
  simp only [Config.one] at *
  cases h : dsmStep q s with
  | none => rw [dsmStep_none_iff] at h; omega
  | some r =>
    obtain ⟨c, q'⟩ := r
    obtain ⟨-, -, hc, hq2⟩ := dsmStep_some h
    refine ⟨c, q', rfl, ?_⟩
    by_cases hp : 0 < q + s <;> simp_all [sym, Config.one] <;> omega

/-- Everything rle_step can answer (R77): a run ends exactly when a sequence is started and the symbol
differs; then its count is emitted and the new count is 1, else the count grows by 1. -/
theorem rleStep_some {st st' : RleRegs} {c : Bool} {e : Option U24}
    (h : rleStep st c = some (e, st')) :
    st'.started = true ∧ st'.last = c ∧
      ((st.started = true ∧ c ≠ st.last ∧ e = some st.count ∧ st'.count = 1) ∨
       ((st.started = false ∨ c = st.last) ∧ e = none ∧
          st'.count.toNat = st.count.toNat + 1)) := by
  obtain ⟨started, last, count⟩ := st
  simp only [rleStep] at h
  cases hend : started && (c != last) <;> simp only [hend, Bool.false_eq_true, if_false, if_true] at h
  · split at h
    · cases h
    · rename_i hlt
      simp only [Option.some.injEq, Prod.mk.injEq] at h
      obtain ⟨rfl, rfl⟩ := h
      refine ⟨rfl, rfl, .inr ⟨?_, rfl, ?_⟩⟩
      · cases started <;> simp_all
      · simp only [maxU24, BitVec.toNat_ofNat] at hlt ⊢
        omega
  · split at h
    · cases h
    · simp only [Option.some.injEq, Prod.mk.injEq] at h
      obtain ⟨rfl, rfl⟩ := h
      refine ⟨rfl, rfl, .inl ⟨?_, ?_, rfl, rfl⟩⟩ <;> simp_all

/-- rle_step overflows exactly when the run would reach 2^24 symbols (R77). -/
theorem rleStep_none_iff (st : RleRegs) (c : Bool) :
    rleStep st c = none ↔ (st.started = false ∨ c = st.last) ∧ st.count.toNat = 2 ^ 24 - 1 := by
  obtain ⟨started, last, count⟩ := st
  have hlt := count.isLt
  have hend : (started = false ∨ c = last) ↔ (started && (c != last)) = false := by
    cases started <;> simp
  simp only [rleStep, hend]
  cases started && (c != last) <;>
    simp only [Bool.false_eq_true, if_false, if_true, ite_eq_left_iff, reduceCtorEq, imp_false,
      not_not, maxU24, true_and, false_and, iff_false, not_lt] <;> omega

/-- Everything rle_end can answer (R78). -/
theorem rleEnd_some_iff {st st' : RleRegs} {n : U24} :
    rleEnd st = some (n, st') ↔ st.started = true ∧ n = st.count ∧ st' = RleRegs.clear := by
  obtain ⟨started, last, count⟩ := st
  cases started <;> simp [rleEnd, eq_comm]

/-- rle_end is EMPTY exactly when no sequence is started (R78). -/
theorem rleEnd_none_iff {st : RleRegs} : rleEnd st = none ↔ st.started = false := by
  obtain ⟨started, last, count⟩ := st
  cases started <;> simp [rleEnd]

/-- lc answers max(0, t·(n − 1)) where that fits 24 bits (R84). -/
theorem lc_some_iff {t : BitVec 8} {n d : U24} :
    lc t n = some d ↔ d.toNat = t.toNat * (n.toNat - 1) := by
  have hd := d.isLt
  have key : (max 0 ((t.toNat : Int) * ((n.toNat : Int) - 1))) =
      ((t.toNat * (n.toNat - 1) : Nat) : Int) := by
    rcases Nat.eq_zero_or_pos n.toNat with h | h
    · simp [h]
    · rw [Nat.cast_mul, Nat.cast_sub h, max_eq_right]
      · simp
      · have : (1 : Int) ≤ n.toNat := by exact_mod_cast h
        exact mul_nonneg (by positivity) (by omega)
  simp only [lc, key, maxU24]
  split
  · rename_i h
    simp only [reduceCtorEq, false_iff]
    omega
  · rename_i h
    simp only [Option.some.injEq, BitVec.toNat_eq, BitVec.ofInt_natCast, BitVec.toNat_ofNat]
    rw [Nat.mod_eq_of_lt (by omega)]
    exact eq_comm

/-- lc overflows exactly when t·(n − 1) does not fit 24 bits (R84). -/
theorem lc_none_iff {t : BitVec 8} {n : U24} :
    lc t n = none ↔ 2 ^ 24 ≤ t.toNat * (n.toNat - 1) := by
  constructor
  · intro h
    by_contra hlt
    have : lc t n = some (BitVec.ofNat 24 (t.toNat * (n.toNat - 1))) := by
      rw [lc_some_iff, BitVec.toNat_ofNat, Nat.mod_eq_of_lt (by omega)]
    simp [this] at h
  · intro h
    cases hl : lc t n with
    | none => rfl
    | some d =>
      rw [lc_some_iff] at hl
      have := d.isLt
      omega

/-- pm answers +1 exactly for a nonzero value, and −1 for 0 (R88, R90). -/
theorem pm_eq_one_iff (x : Nat) : pm x = 1 ↔ x ≠ 0 := by
  unfold pm
  split <;> simp_all

end Sys2Proof.Machine
end

