-- ==== Sys2Proof/Laws/Decode.lean ====
section
/-! SUPPORT. A command word as its two fields, and decoding over the fields. -/

namespace Sys2Proof

/-- A word is its OP and ARG fields (R51). -/
theorem word_eq_fields (w : Word) : w = opField w ++ argField w := by
  unfold opField argField
  rw [BitVec.extractLsb'_append_extractLsb'_eq_extractLsb' (by decide)]
  simp

@[simp] theorem opField_append (op : Byte) (arg : U24) : opField (op ++ arg : Word) = op :=
  BitVec.extractLsb'_append_eq_left

@[simp] theorem argField_append (op : Byte) (arg : U24) : argField (op ++ arg : Word) = arg :=
  BitVec.extractLsb'_append_eq_right

/-- Two words are equal when their fields are. -/
theorem fields_eq_iff (a c : Byte) (b d : U24) :
    ((a ++ b : Word) = (c ++ d : Word)) ↔ a = c ∧ b = d := by
  constructor
  · intro h
    exact ⟨by rw [← opField_append a b, h, opField_append],
      by rw [← argField_append a b, h, argField_append]⟩
  · rintro ⟨rfl, rfl⟩
    rfl

/-- A row whose mask covers bits [31:24] matches by its OP and by the reserved bits of ARG (R59). -/
theorem row_matches_iff (op : Byte) (arg : U24) (p : Byte) (q m : U24) :
    (((op ++ arg : Word) &&& ((0xFF : Byte) ++ m : Word)) = (p ++ q : Word)) ↔
      op = p ∧ arg &&& m = q := by
  rw [BitVec.and_append, fields_eq_iff, show (0xFF : Byte) = BitVec.allOnes 8 from rfl,
    BitVec.and_allOnes]

/-- Searching a list, as a conditional. -/
theorem find?_cons_if {α : Type} (p : α → Bool) (a : α) (l : List α) :
    (a :: l).find? p = if p a = true then some a else l.find? p := by
  rw [List.find?_cons]
  cases p a <;> rfl

/-- Answering from a conditional search is a conditional answer. -/
theorem elim_if {α γ : Type} (c : Prop) [Decidable c] (r : α) (o : Option α) (f : α → γ) (e : γ) :
    (if c then some r else o).elim e f = if c then f r else o.elim e f := by
  by_cases h : c <;> simp [h]

/-- Decoding answers from the search of the rows (R59). -/
theorem decode_eq_elim (w : Word) :
    decode w = (rows.find? (fun r => w &&& r.mask == r.pattern)).elim
      (if (formatOf (opField w)).isSome then .error (.reservedBits (opField w))
        else .error (.unassignedOp (opField w)))
      (fun r => .ok (r.build w)) := by
  unfold decode
  cases rows.find? (fun r => w &&& r.mask == r.pattern) <;> rfl

/-- Decoding over the fields: by OP, then by the reserved bits of the OP's format (R53, R58, R59, R64). -/
theorem decode_fields (op : Byte) (arg : U24) :
    decode (op ++ arg) =
      if op = 0x00 ∧ arg = 0 then .ok .nop
      else if op = 0x01 ∧ arg = 0 then .ok .dsmClr
      else if op = 0x02 ∧ arg &&& 0xFF0000 = 0 then .ok (.dsmIn (arg.extractLsb' 0 16))
      else if op = 0x10 ∧ arg = 0 then .ok .rleClr
      else if op = 0x11 ∧ arg &&& 0xFFFFFE = 0 then .ok (.rleIn (arg.getLsbD 0))
      else if op = 0x12 ∧ arg = 0 then .ok .rleEnd
      else if op = 0x20 then .ok (.lcIn arg)
      else if op = 0x30 then .ok (.pmIn arg)
      else if op = 0x40 then .ok (.pipeRun arg)
      else if op = 0xF0 ∧ arg = 0 then .ok .statRd
      else if op = 0xF1 ∧ arg = 0 then .ok .cfgRd
      else if op = 0xF2 ∧ arg = 0 then .ok .qeRd
      else if op = 0xF3 ∧ arg = 0 then .ok .cntRd
      else if (formatOf op).isSome then .error (.reservedBits op)
      else .error (.unassignedOp op) := by
  have hz : ∀ p : Byte, (((op ++ arg : Word) &&& 0xFFFFFFFF == (p ++ (0 : U24) : Word)) = true) ↔
      op = p ∧ arg = 0 := fun p => by
    rw [beq_iff_eq, show (0xFFFFFFFF : Word) = (0xFF : Byte) ++ (0xFFFFFF : U24) from rfl,
      row_matches_iff, show (0xFFFFFF : U24) = BitVec.allOnes 24 from rfl, BitVec.and_allOnes]
  have hu : ∀ p : Byte, (((op ++ arg : Word) &&& 0xFF000000 == (p ++ (0 : U24) : Word)) = true) ↔
      op = p := fun p => by
    rw [beq_iff_eq, show (0xFF000000 : Word) = (0xFF : Byte) ++ (0 : U24) from rfl,
      row_matches_iff]
    simp
  have hs : (((op ++ arg : Word) &&& 0xFFFF0000 == 0x02000000) = true) ↔
      op = 0x02 ∧ arg &&& 0xFF0000 = 0 := by
    rw [beq_iff_eq]
    exact row_matches_iff op arg 0x02 0 0xFF0000
  have hb : (((op ++ arg : Word) &&& 0xFFFFFFFE == 0x11000000) = true) ↔
      op = 0x11 ∧ arg &&& 0xFFFFFE = 0 := by
    rw [beq_iff_eq]
    exact row_matches_iff op arg 0x11 0 0xFFFFFE
  have e16 : (op ++ arg : Word).extractLsb' 0 16 = arg.extractLsb' 0 16 := by
    rw [BitVec.extractLsb'_append_eq_of_add_le (by decide)]
  have e0 : (op ++ arg : Word).getLsbD 0 = arg.getLsbD 0 := by
    rw [BitVec.getLsbD_append]
    rfl
  have z00 : (((op ++ arg : Word) &&& 0xFFFFFFFF == 0x00000000) = true) ↔ _ := hz 0x00
  have z01 : (((op ++ arg : Word) &&& 0xFFFFFFFF == 0x01000000) = true) ↔ _ := hz 0x01
  have z10 : (((op ++ arg : Word) &&& 0xFFFFFFFF == 0x10000000) = true) ↔ _ := hz 0x10
  have z12 : (((op ++ arg : Word) &&& 0xFFFFFFFF == 0x12000000) = true) ↔ _ := hz 0x12
  have zF0 : (((op ++ arg : Word) &&& 0xFFFFFFFF == 0xF0000000) = true) ↔ _ := hz 0xF0
  have zF1 : (((op ++ arg : Word) &&& 0xFFFFFFFF == 0xF1000000) = true) ↔ _ := hz 0xF1
  have zF2 : (((op ++ arg : Word) &&& 0xFFFFFFFF == 0xF2000000) = true) ↔ _ := hz 0xF2
  have zF3 : (((op ++ arg : Word) &&& 0xFFFFFFFF == 0xF3000000) = true) ↔ _ := hz 0xF3
  have u20 : (((op ++ arg : Word) &&& 0xFF000000 == 0x20000000) = true) ↔ _ := hu 0x20
  have u30 : (((op ++ arg : Word) &&& 0xFF000000 == 0x30000000) = true) ↔ _ := hu 0x30
  have u40 : (((op ++ arg : Word) &&& 0xFF000000 == 0x40000000) = true) ↔ _ := hu 0x40
  simp only [decode_eq_elim, rows, find?_cons_if, List.find?_nil, opField_append, z00, z01, z10,
    z12, zF0, zF1, zF2, zF3, u20, u30, u40, hs, hb, elim_if, Option.elim_none, argField_append, e16,
    e0]

end Sys2Proof
end

