-- ==== Sys2Proof/Laws/PerInstr.lean ====
section
/-! SUPPORT. Statements for every command, one lemma per constructor of `Instr`. -/

namespace Sys2Proof.Laws

/-- The word of a command is legal: its OP is assigned and every reserved ARG bit is 0 (R53, R58, R64). -/
def EncodeWellFormed.Statement (i : Instr) : Prop := wordWf (encode i) = true

/-- A word of format U is legal whatever its ARG (R53). -/
theorem wordWf_of_format_u {op : Byte} (h : formatOf op = some .u) (arg : U24) :
    wordWf (op ++ arg : Word) = true := by
  have h1 : (op ++ arg : Word).extractLsb' 24 8 = op := opField_append op arg
  simp [wordWf, h1, h, Format.reserved]

theorem EncodeWellFormed.nop : EncodeWellFormed.Statement .nop := by
  unfold EncodeWellFormed.Statement; decide
theorem EncodeWellFormed.dsmClr : EncodeWellFormed.Statement .dsmClr := by
  unfold EncodeWellFormed.Statement; decide
theorem EncodeWellFormed.dsmIn (s : Sample) : EncodeWellFormed.Statement (.dsmIn s) := by
  have h1 : ((0x02 : Byte) ++ (0#8 ++ s : U24) : Word).extractLsb' 24 8 = 0x02 := opField_append _ _
  have h2 : ((0x02 : Byte) ++ (0#8 ++ s : U24) : Word).extractLsb' 0 24 = 0#8 ++ s :=
    argField_append _ _
  have h3 : ((0#8 ++ s : U24) &&& Format.reserved .s) = 0 := by
    rw [show Format.reserved .s = (0xFF : Byte) ++ (0 : Sample) from rfl, BitVec.and_append]
    simp
  simp only [EncodeWellFormed.Statement, encode, Instr.op, Instr.arg, wordWf, h1, h2]
  rw [show formatOf 0x02 = some .s from by decide]
  simp [h3]
theorem EncodeWellFormed.rleClr : EncodeWellFormed.Statement .rleClr := by
  unfold EncodeWellFormed.Statement; decide
theorem EncodeWellFormed.rleIn (c : Bool) : EncodeWellFormed.Statement (.rleIn c) := by
  unfold EncodeWellFormed.Statement
  cases c <;> decide
theorem EncodeWellFormed.rleEnd : EncodeWellFormed.Statement .rleEnd := by
  unfold EncodeWellFormed.Statement; decide
theorem EncodeWellFormed.lcIn (n : U24) : EncodeWellFormed.Statement (.lcIn n) :=
  wordWf_of_format_u (op := 0x20) rfl n
theorem EncodeWellFormed.pmIn (x : U24) : EncodeWellFormed.Statement (.pmIn x) :=
  wordWf_of_format_u (op := 0x30) rfl x
theorem EncodeWellFormed.pipeRun (n : U24) : EncodeWellFormed.Statement (.pipeRun n) :=
  wordWf_of_format_u (op := 0x40) rfl n
theorem EncodeWellFormed.statRd : EncodeWellFormed.Statement .statRd := by
  unfold EncodeWellFormed.Statement; decide
theorem EncodeWellFormed.cfgRd : EncodeWellFormed.Statement .cfgRd := by
  unfold EncodeWellFormed.Statement; decide
theorem EncodeWellFormed.qeRd : EncodeWellFormed.Statement .qeRd := by
  unfold EncodeWellFormed.Statement; decide
theorem EncodeWellFormed.cntRd : EncodeWellFormed.Statement .cntRd := by
  unfold EncodeWellFormed.Statement; decide

end Sys2Proof.Laws
end

