-- ==== Sys2Proof/Laws/Sampler.lean ====
section
/-! SUPPORT. The reference sample source of legal parameters is total on its domain and stays in
[−ONE, ONE] (R5, R92). -/

namespace Sys2Proof.Machine

/-- The quarter wave never exceeds ONE (R92). -/
theorem quarterSine_le (r N : Nat) : quarterSine r N ≤ 16384 := Nat.min_le_left _ _

/-- The default reference stays in [−16384, 16384] (R92). -/
theorem unitSine_range (n N : Nat) : -16384 ≤ unitSine n N ∧ unitSine n N ≤ 16384 := by
  have h1 := quarterSine_le (4 * n % N) N
  have h2 := quarterSine_le (N - 4 * n % N) N
  simp only [unitSine]
  split <;> omega

/-- A default sample is the unit sine's value: it fits int16 (R92). -/
theorem unitSine_sample_toInt (n N : Nat) : (BitVec.ofInt 16 (unitSine n N)).toInt = unitSine n N := by
  have := unitSine_range n N
  rw [BitVec.toInt_ofInt, Int.bmod_eq_of_le] <;> omega

/-- A legal row N has N + 1 samples in range. -/
theorem refRowWf_entry {N n : Nat} {row : List Sample} (h : refRowWf N row = true) (hn : n ≤ N) :
    ∃ x, row[n]? = some x ∧ -Config.one ≤ x.toInt ∧ x.toInt ≤ Config.one := by
  simp only [refRowWf, Bool.and_eq_true, beq_iff_eq, List.all_eq_true, decide_eq_true_eq] at h
  have hlt : n < row.length := by omega
  exact ⟨row[n], List.getElem?_eq_getElem hlt, h.2 _ (List.getElem_mem hlt)⟩

/-- Legal rows from N on: the row at offset k is legal for N + k. -/
theorem refRowsWf_row {N k : Nat} {rows : List (List Sample)} (h : refRowsWf N rows = true)
    (hk : k < rows.length) : ∃ row, rows[k]? = some row ∧ refRowWf (N + k) row = true := by
  induction rows generalizing N k with
  | nil => simp at hk
  | cons row rows ih =>
    simp only [refRowsWf, Bool.and_eq_true] at h
    cases k with
    | zero => exact ⟨row, rfl, h.1⟩
    | succ k =>
      obtain ⟨r, hr, hw⟩ := ih h.2 (by simpa using hk)
      exact ⟨r, by simpa using hr, by rwa [Nat.add_right_comm] at hw⟩

/-- A legal source has a sample in [−ONE, ONE] at every (n, N) with 1 ≤ N ≤ MAX_N and n ≤ N (R5). -/
theorem sample_total {maxN n N : Nat} {ref : RefSource} (h : ref.wf maxN = true) (hN : 1 ≤ N)
    (hN' : N ≤ maxN) (hn : n ≤ N) :
    ∃ x, RefSource.sample ref n N = some x ∧ -Config.one ≤ x.toInt ∧ x.toInt ≤ Config.one := by
  cases ref with
  | unitSine =>
    exact ⟨_, rfl, by rw [unitSine_sample_toInt]; exact unitSine_range n N⟩
  | table rows =>
    simp only [RefSource.wf, Bool.and_eq_true, beq_iff_eq] at h
    obtain ⟨row, hr, hw⟩ := refRowsWf_row h.2 (k := N - 1) (by omega)
    rw [show 1 + (N - 1) = N by omega] at hw
    obtain ⟨x, hx, hb⟩ := refRowWf_entry hw hn
    exact ⟨x, by simp [RefSource.sample, hr, hx], hb⟩

/-- The parts of legal parameters (R5). -/
theorem Params_wf_iff (p : Params) :
    p.wf = true ↔ 1 ≤ p.maxNLog2 ∧ p.maxNLog2 ≤ 16 ∧ p.ref.wf p.maxN = true := by
  simp [Params.wf, and_assoc]

/-- MAX_SEG = MAX_N + 1 (R6). -/
theorem maxSeg_eq (p : Params) : p.maxSeg = p.maxN + 1 := by
  have : 0 < 2 ^ p.maxNLog2 := by positivity
  simp only [Params.maxSeg, Params.maxN]
  omega

/-- MAX_N ≤ 65535 for legal parameters (R5, R6). -/
theorem maxN_le {p : Params} (h : p.wf = true) : p.maxN ≤ 65535 := by
  have h2 := ((Params_wf_iff p).1 h).2.1
  have : 2 ^ p.maxNLog2 ≤ 2 ^ 16 := Nat.pow_le_pow_right (by decide) h2
  simp only [Params.maxN]
  omega

end Sys2Proof.Machine
end

