-- ==== Sys2Proof/Tests/Slice0.lean ====
section
/-! SUPPORT. Tests: ill-formed terms that each check refuses, words written out from R58, vectors of
spec/95_test_vectors.md (one step each), and for every statement with hypotheses a concrete state and
operands that meet them. -/

namespace Sys2Proof.Tests

open Sys2Proof.Machine

/-! ### What each check refuses -/

theorem test_word_reserved_z : wordWf 0x00000001 = false := by decide
theorem test_word_reserved_s : wordWf 0x02010000 = false := by decide
theorem test_word_reserved_b : wordWf 0x11000002 = false := by decide
theorem test_word_unassigned : wordWf 0x03000000 = false := by decide
theorem test_word_u_has_no_reserved_bit : wordWf 0x40FFFFFF = true := by decide
theorem test_sample_operand_range :
    SampleOperand.wf (.dec 32768) = false ∧ SampleOperand.wf (.dec (-32769)) = false ∧
    SampleOperand.wf (.pattern 0x10000) = false ∧ SampleOperand.wf (.dec (-32768)) = true := by decide
theorem test_stmt_sample_range : Stmt.wf (.dsmIn (.dec 32768)) = false := by decide
theorem test_stmt_u24_range :
    Stmt.wf (.lcIn 16777216) = false ∧ Stmt.wf (.pmIn 16777216) = false ∧
    Stmt.wf (.pipeRun 16777216) = false ∧ Stmt.wf (.run 16777216) = false ∧
    Stmt.wf (.lcIn 16777215) = true := by decide
theorem test_stmt_inf_range :
    Stmt.wf (.dsmInf false 2 0) = false ∧ Stmt.wf (.dsmInf true 2 0) = true := by decide
theorem test_stmt_empty_sequences :
    Stmt.wf (.dsmSeq []) = false ∧ Stmt.wf (.rleSeq []) = false ∧ Stmt.wf (.lcSeq []) = false ∧
    Stmt.wf (.pmSeq []) = false := by decide
theorem test_stmt_sequence_operands :
    Stmt.wf (.dsmSeq [.dec 0, .dec 40000]) = false ∧ Stmt.wf (.lcSeq [1, 16777216]) = false ∧
    Stmt.wf (.pmSeq [16777216]) = false := by decide
theorem test_params_log2 :
    Params.wf { Params.default with maxNLog2 := 0 } = false ∧
    Params.wf { Params.default with maxNLog2 := 17 } = false ∧ Params.wf Params.default = true := by decide
theorem test_params_table_rows :
    Params.wf { tSwitch := 3, maxNLog2 := 1, ref := .table [] } = false ∧
    Params.wf { tSwitch := 3, maxNLog2 := 1, ref := .table [[0]] } = false ∧
    Params.wf { tSwitch := 3, maxNLog2 := 1, ref := .table [[0, 0x4001]] } = false ∧
    Params.wf { tSwitch := 3, maxNLog2 := 1, ref := .table [[0, 0xBFFF]] } = false ∧
    Params.wf { tSwitch := 3, maxNLog2 := 1, ref := .table [[0xC000, 0x4000]] } = true := by decide
theorem test_memory_form :
    Memory.wf [(1, 0), (0, 0)] = false ∧ Memory.wf [(1, 0), (1, 5)] = false ∧
    Memory.wf [(0, 0), (1, 5)] = true := by decide

/-! ### Words written out from R58 and R53 -/

theorem test_decode_nop : decode 0b00000000000000000000000000000000 = .ok .nop := by decide
theorem test_decode_dsmClr : decode 0b00000001000000000000000000000000 = .ok .dsmClr := by decide
theorem test_decode_dsmIn :
    decode 0b00000010000000001100000000000001 = .ok (.dsmIn 0xC001) := by decide
theorem test_decode_rleClr : decode 0b00010000000000000000000000000000 = .ok .rleClr := by decide
theorem test_decode_rleIn : decode 0b00010001000000000000000000000001 = .ok (.rleIn true) := by decide
theorem test_decode_rleEnd : decode 0b00010010000000000000000000000000 = .ok .rleEnd := by decide
theorem test_decode_lcIn : decode 0b00100000100000000000000000000100 = .ok (.lcIn 0x800004) := by decide
theorem test_decode_pmIn : decode 0b00110000100000000000000000000000 = .ok (.pmIn 0x800000) := by decide
theorem test_decode_pipeRun :
    decode 0b01000000000000000000111111111111 = .ok (.pipeRun 4095) := by decide
theorem test_decode_statRd : decode 0b11110000000000000000000000000000 = .ok .statRd := by decide
theorem test_decode_cfgRd : decode 0b11110001000000000000000000000000 = .ok .cfgRd := by decide
theorem test_decode_qeRd : decode 0b11110010000000000000000000000000 = .ok .qeRd := by decide
theorem test_decode_cntRd : decode 0b11110011000000000000000000000000 = .ok .cntRd := by decide
theorem test_decode_illegal :
    decode 0x00000001 = .error (.reservedBits 0x00) ∧ decode 0x02010000 = .error (.reservedBits 0x02) ∧
    decode 0x11000002 = .error (.reservedBits 0x11) ∧ decode 0x12800000 = .error (.reservedBits 0x12) ∧
    decode 0xF3000001 = .error (.reservedBits 0xF3) ∧ decode 0x03000000 = .error (.unassignedOp 0x03) ∧
    decode 0xFFFFFFFF = .error (.unassignedOp 0xFF) := by decide
/-- R40: byte 0 of a byte-wide link is bits [7:0]. -/
theorem test_decode_bytes :
    decodeBytes [0x01, 0xC0, 0x00, 0x02, 0xAA] = .ok (.dsmIn 0xC001, [0xAA]) ∧
    decodeBytes [0x01, 0xC0, 0x00] = .error .truncated ∧
    bytesOfWord 0x0200C001 = [0x01, 0xC0, 0x00, 0x02] := by decide

/-! ### Helpers -/

/-- The next state, where there is one. -/
def nextOf : Outcome → Option State
  | .next t => some t
  | .fault _ => none
  | .refused _ => none

theorem next_of {o : Outcome} {t : State} (h : nextOf o = some t) : o = .next t := by
  cases o <;> simp_all [nextOf]

/-- One step on a state with one word in the command port. -/
def afterWord (w : Word) (s : State) : Option State := nextOf (step { s with cmd := [w] })

/-- The responses of one step on a state with one word in the command port. -/
def answers (w : Word) (s : State) : Option (List Word) := (afterWord w s).map (·.rsp)

/-- One step with one outside move pending. -/
def afterEvent (e : Event) (s : State) : Option State := nextOf (step { s with env := [e] })

/-! ### States -/

/-- IDLE in the middle of a run of three +1 symbols: the RLE state (1, 1, 3) of V-RLE-4. -/
def midRun : State := { State.reset with rleStarted := true, rleLast := true, rleCount := 3 }
/-- IDLE with the longest run that a count holds: the RLE state (1, 1, 16777215) of V-RLE-9. -/
def fullRun : State := { State.reset with rleStarted := true, rleLast := true, rleCount := 0xFFFFFF }
/-- FAULTED after a PIPE.RUN 0 (V-PIPE-1), with the responses removed. -/
def afterBadN : State := { State.reset with phase := .faulted, cause := .badN, fop := 0x40 }
/-- IDLE with a given accumulator. -/
def withQe (q : Int) : State := { State.reset with qe := BitVec.ofInt 32 q }

/-- The start of PIPE.RUN 1. -/
def computing0 : State := { State.reset with smpN := 1, phase := .compute }
/-- After sample 0 of PIPE.RUN 1. -/
def computing1 : State :=
  { computing0 with
    qe := 16384, rleStarted := true, rleLast := false, rleCount := 1, smpIdx := 1 }
/-- After sample 1 of PIPE.RUN 1, before the flush step. -/
def computing2 : State :=
  { computing1 with qe := 0, rleLast := true, smpIdx := 2, segBuf := [(0, 0)], segK := 1 }
/-- After the flush step of PIPE.RUN 1. -/
def handing2 : State :=
  { computing2 with
    rleStarted := false, rleLast := false, rleCount := 0, segBuf := [(0, 0), (1, 0)], segK := 2,
    total := 6, hndIdx := 2, phase := .handoff }
/-- PIPE.RUN 1 with both segments delivered. -/
def handing0 : State := { handing2 with hndIdx := 0, execH := [0, 0] }
/-- The start of OBSERVE of PIPE.RUN 1. -/
def observing : State := { handing0 with execStarted := true, execDur := 6, phase := .observe }

/-! ### Vectors of 95_test_vectors.md, one step each -/

theorem test_v_dsm_12 : (afterWord 0x02002D41 State.reset).map (fun t => (t.rsp, t.qe.toInt)) =
    some ([0x02000001], -4799) := by decide
theorem test_v_dsm_13_tie : (afterWord 0x02000064 (withQe (-100))).map (fun t => (t.rsp, t.qe.toInt)) =
    some ([0x02000000], 16384) := by decide
theorem test_v_dsm_16 : (afterWord 0x02007FFF (withQe 2147467257)).map
    (fun t => (t.rsp, t.qe.toInt, t.phase, t.cause, t.fop)) =
    some ([0xFF000203], 2147467257, .faulted, .accOverflow, 0x02) := by decide
theorem test_v_dsm_18 : (afterWord 0x01000000 (withQe (-4799))).map (fun t => (t.rsp, t.qe)) =
    some ([], 0) := by decide
theorem test_v_rle_4 : (afterWord 0x11000000 midRun).map (fun t => (t.rsp, t.rle)) =
    some ([0x11000003], ⟨true, false, 1⟩) := by decide
theorem test_v_rle_9 : (afterWord 0x11000001 fullRun).map (fun t => (t.rsp, t.rle, t.cause)) =
    some ([0xFF001104], ⟨true, true, 0xFFFFFF⟩, .countOverflow) := by decide
theorem test_v_rle_1_end : (afterWord 0x12000000 midRun).map (fun t => (t.rsp, t.rle)) =
    some ([0x12000003], ⟨false, false, 0⟩) := by decide
theorem test_v_rle_10 : answers 0x12000000 State.reset = some [0xFF001202] := by decide
theorem test_v_rle_6_clear : (afterWord 0x10000000 midRun).map (fun t => (t.rsp, t.rle)) =
    some ([], ⟨false, false, 0⟩) := by decide
theorem test_v_lc_4 : answers 0x20000004 State.reset = some [0x20000009] := by decide
theorem test_v_lc_5_6 : answers 0x20555556 State.reset = some [0x20FFFFFF] ∧
    answers 0x20555557 State.reset = some [0xFF002005] := by decide
theorem test_v_pm_1 : answers 0x30000000 State.reset = some [0x30000003] := by decide
theorem test_v_pm_4 : answers 0x30800000 State.reset = some [0x30000001] := by decide
theorem test_v_pipe_1_2 : answers 0x40000000 State.reset = some [0xFF004006] ∧
    answers 0x40001000 State.reset = some [0xFF004007] := by decide
theorem test_pipe_start : afterWord 0x40000001 midRun = some computing0 := by decide
theorem test_v_ctl_1 : answers 0xF0000000 State.reset = some [0xF0000000] ∧
    answers 0xF1000000 State.reset = some [0xF11E0C03] := by decide
theorem test_v_ctl_2 : afterWord 0x00000000 midRun = some midRun := by decide
theorem test_v_ctl_3_status : answers 0xF0000000 midRun = some [0xF0000006] := by decide
theorem test_v_ctl_4 : answers 0xF3000000 midRun = some [0xF3000003] := by decide
theorem test_v_ctl_5_8 : answers 0xF2000000 (withQe (-4799)) = some [0xF2FFED41] ∧
    answers 0xF2000000 (withQe 2147467257) = some [0xF2FFBFF9] := by decide
theorem test_v_ctl_7 : answers 0xF1000000
    { State.reset with params := ⟨255, 16, .unitSine⟩ } = some [0xF11E10FF] := by decide
theorem test_v_flt_1 : (afterWord 0x00000001 State.reset).map (fun t => (t.rsp, t.statusWord)) =
    some ([0xFF000001], 0x000171) := by decide
theorem test_v_flt_2 : answers 0xF4000000 State.reset = some [0xFF00F401] := by decide
theorem test_v_flt_4 : answers 0xF0000000 afterBadN = some [0xF0400671] ∧
    afterWord 0x20000004 afterBadN = some { afterBadN with rsp := [0xFF004006] } ∧
    afterWord 0x00000000 afterBadN = some afterBadN := by decide
theorem test_v_flt_6 : answers 0xF4000000 afterBadN = some [0xFF004006] := by decide
theorem test_v_flt_7 : (afterEvent .rst afterBadN).map (fun t => (t.phase, t.cause, t.fop, t.rsp)) =
    some (.idle, .none, 0, []) := by decide

/-! The steps of PIPE.RUN 1 (95 §2.5: symbols −+, D = [0, 0], TOTAL = 6). -/

theorem test_pipe_sample_0 : nextOf (step computing0) = some computing1 := by decide
theorem test_pipe_sample_1 : nextOf (step computing1) = some computing2 := by decide
theorem test_pipe_flush : nextOf (step computing2) = some handing2 := by decide
theorem test_pipe_handoff : nextOf (step handing2) =
    some { handing2 with hndIdx := 1, execH := [0] } := by decide
theorem test_pipe_start_executor : nextOf (step handing0) = some observing := by decide
theorem test_pipe_pin : afterEvent (.pin false) observing =
    some { observing with ticks := 1, rsp := [0x40000003] } := by decide
theorem test_pipe_done : (afterEvent .done { observing with ticks := 6 }).map
    (fun t => (t.phase, t.qe, t.rsp)) = some (.idle, 0, [0x41000006]) := by decide
theorem test_v_exe_1 : (afterEvent .execError { observing with qe := 16384 }).map
    (fun t => (t.rsp, t.qe, t.phase)) = some ([0xFF004008], 16384, .faulted) := by decide
theorem test_v_exe_3 : (afterEvent (.pin false) { observing with ticks := 6 }).map (·.rsp) =
    some [0xFF004009] := by decide
theorem test_v_exe_4 : (afterEvent .done { observing with ticks := 5 }).map (·.rsp) =
    some [0xFF004009] := by decide

/-! The tables of 95 §2.5. -/

theorem test_ref_3 : (List.range 4).map (unitSine · 3) = [0, 14189, -14189, 0] := by decide
theorem test_ref_7 : (List.range 8).map (unitSine · 7) =
    [0, 12810, 15973, 7109, -7109, -15973, -12810, 0] := by decide
theorem test_ref_12 : (List.range 13).map (unitSine · 12) =
    [0, 8192, 14189, 16384, 14189, 8192, 0, -8192, -14189, -16384, -14189, -8192, 0] := by decide
theorem test_ref_16 : (List.range 17).map (unitSine · 16) =
    [0, 6270, 11585, 15137, 16384, 15137, 11585, 6270, 0, -6270, -11585, -15137, -16384, -15137,
      -11585, -6270, 0] := by decide
theorem test_durations_12 : pipeDurations Params.default 12 = some [0, 12, 0, 0, 12] := by decide
theorem test_refexec_4 : refexecPins 3 [3, 3, 0] =
    List.replicate 3 false ++ List.replicate 6 true ++ List.replicate 6 false := by decide

/-! The assembler: programs P1 to P3 of 95 §3 in part, and R67, R68. -/

theorem test_asm_rle_seq : assembleText "RLE.SEQ +1, +1, -1 ; c\nCNT.RD\n\nstat.rd".toList =
    some [0x10000000, 0x11000001, 0x11000001, 0x11000000, 0x12000000, 0xF3000000, 0xF0000000] := by
  decide
theorem test_asm_dsm : assembleText "DSM.SEQ 8192, -1\nDSM.INF 0.5\nDSM.IN 0xC000".toList =
    some [0x01000000, 0x02002000, 0x0200FFFF, 0x02002000, 0x0200C000] := by decide
theorem test_asm_pm : assembleText "PM.IN 0x800000\nRUN 4".toList =
    some [0x30800000, 0x40000004] := by decide
theorem test_asm_errors : assembleText "DSM.IN 32768".toList = none ∧
    assembleText "RLE.IN 1".toList = none ∧ assembleText "NOP 1".toList = none ∧
    assembleText "NOP\nFOO".toList = none ∧ assembleText "LC.IN -1".toList = none := by decide
theorem test_asm_bare_words : assembleText "nop\n\t Stat.Rd ;c".toList = some [0, 0xF0000000] ∧
    assembleText "FOO".toList = none ∧
    assembleText " lc.seq\t1 ,\t4 ".toList = some [0x20000001, 0x20000004] ∧
    assembleText "LC.SEQ 1,,4".toList = none := by decide
theorem test_asm_wrong_form : assembleText "DSM.IN 1.5".toList = none ∧
    assembleText "DSM.IN abc".toList = none ∧ assembleText "DSM.INF 1.".toList = none ∧
    assembleText "DSM.INF .5".toList = none ∧ assembleText "DSM.INF 1.2.3".toList = none ∧
    assembleText "DSM.INF".toList = none ∧ assembleText "PM.IN 12a".toList = none ∧
    assembleText "LC.IN 0x".toList = none ∧ assembleText "LC.IN 0x1x".toList = none ∧
    assembleText "LC.IN 0xfF".toList = some [0x200000FF] := by decide

/-! The interface of the row. -/

theorem test_decodeTableWord : decodeTableWord 32 0x0200C000 = some (.dsmIn 0xC000) ∧
    decodeTableWord 32 0x02FFC000 = none := by decide
theorem test_withFetchWord : (nextOf (step (State.reset.withFetchWord 32 0x20000004))).map (·.rsp) =
    some [0x20000009] := by decide

/-! ### Concrete states of the invariant -/

/-- A state of a PIPE.RUN's start, or the middle of a run in IDLE, meets what every PHASE asks. -/
theorem midRun_base : midRun.BaseInv := by constructor <;> decide
theorem fullRun_base : fullRun.BaseInv := by constructor <;> decide
theorem computing0_base : computing0.BaseInv := by constructor <;> decide
theorem computing1_base : computing1.BaseInv := by constructor <;> decide
theorem computing2_base : computing2.BaseInv := by constructor <;> decide
theorem handing2_base : handing2.BaseInv := by constructor <;> decide
theorem handing0_base : handing0.BaseInv := by constructor <;> decide
theorem observing_base : observing.BaseInv := by constructor <;> decide

theorem midRun_inv : midRun.Inv :=
  ⟨midRun_base, by decide, fun h => (by cases h), fun h => (by cases h), fun h => (by cases h)⟩
theorem fullRun_inv : fullRun.Inv :=
  ⟨fullRun_base, by decide, fun h => (by cases h), fun h => (by cases h), fun h => (by cases h)⟩
theorem computing0_inv : computing0.Inv :=
  ⟨computing0_base, by decide,
    fun _ => ⟨by decide, by decide, by decide, by decide, by decide, by decide, by decide, by decide,
      by decide, [], by decide, by decide⟩,
    fun h => (by cases h), fun h => (by cases h)⟩
theorem computing1_inv : computing1.Inv :=
  ⟨computing1_base, by decide,
    fun _ => ⟨by decide, by decide, by decide, by decide, by decide, by decide, by decide, by decide,
      by decide, [], by decide, by decide⟩,
    fun h => (by cases h), fun h => (by cases h)⟩
theorem computing2_inv : computing2.Inv :=
  ⟨computing2_base, by decide,
    fun _ => ⟨by decide, by decide, by decide, by decide, by decide, by decide, by decide, by decide,
      by decide, [0], by decide, by decide⟩,
    fun h => (by cases h), fun h => (by cases h)⟩
theorem handing2_inv : handing2.Inv :=
  ⟨handing2_base, by decide, fun h => (by cases h),
    fun _ => ⟨by decide, by decide, by decide, by decide, by decide, by decide, by decide, by decide,
      by decide, [0, 0], by decide, by decide, by decide⟩,
    fun h => (by cases h)⟩
theorem handing0_inv : handing0.Inv :=
  ⟨handing0_base, by decide, fun h => (by cases h),
    fun _ => ⟨by decide, by decide, by decide, by decide, by decide, by decide, by decide, by decide,
      by decide, [0, 0], by decide, by decide, by decide⟩,
    fun h => (by cases h)⟩
theorem observing_inv : observing.Inv :=
  ⟨observing_base, by decide, fun h => (by cases h), fun h => (by cases h),
    fun _ => ⟨by decide, by decide, by decide, by decide, by decide, by decide, by decide, by decide,
      [0, 0], by decide, by decide, by decide⟩⟩

/-- The start of OBSERVE of PIPE.RUN 1 with some outside moves pending. -/
def observingWith (es : List Event) : State := { observing with env := es }
theorem observingWith_inv (es : List Event) : (observingWith es).Inv :=
  ⟨by obtain ⟨a, b, c, d, e, f, g, h, i, j, k⟩ := observing_base; exact ⟨a, b, c, d, e, f, g, h, i, j, k⟩,
    fun h => (by cases h), fun h => (by cases h), fun h => (by cases h),
    fun _ => ⟨Nat.le_refl 1, rfl, rfl, rfl, rfl, rfl, Nat.zero_le _, rfl, [0, 0], rfl, rfl, rfl⟩⟩

/-! ### For each statement with hypotheses: operands and states that meet them, per clause, at the
boundary values -/

theorem witness_LegalWordsAreExactlyTheEncodings :
    wordWf 0x40FFFFFF = true ∧ decode 0x40FFFFFF = .ok (.pipeRun 0xFFFFFF) ∧
    decode 0x11000001 = .ok (.rleIn true) := by decide

theorem witness_RowsAreDisjointAndDecide :
    (∃ r ∈ rows, (0x0200FFFF : Word) &&& r.mask = r.pattern) ∧
    (∀ r ∈ rows, (0x02010000 : Word) &&& r.mask ≠ r.pattern) ∧
    (∀ r ∈ rows, (0xFFFFFFFF : Word) &&& r.mask ≠ r.pattern) := by decide

/-- IDLE and FAULTED, the phases of every command statement. -/
theorem witness_idle_and_faulted : State.reset.phase = .idle ∧ afterBadN.phase = .faulted := by decide

theorem witness_NopDoesNothing :
    opField 0x00000001 = 0x00 ∧ (0x00000001 : Word) ≠ 0 ∧ opField 0x00FFFFFF = 0x00 ∧
    State.reset.phase = .idle ∧ afterBadN.phase = .faulted := by decide

theorem witness_StatRdEmitsStatus : midRun.phase = .idle ∧ afterBadN.phase = .faulted := by decide

theorem witness_CfgRdEmitsConfig :
    State.reset.phase = .idle ∧ State.reset.params = Params.default ∧ afterBadN.phase = .faulted ∧
    afterBadN.params = Params.default ∧ Params.wf ⟨255, 16, .unitSine⟩ = true := by decide

theorem witness_QeRdEmitsTheLowBits_run :
    State.reset.phase = .idle ∧ State.reset.qe = 0 ∧
    (∀ x ∈ [(0x4000 : Sample), 0xC000], -16384 ≤ x.toInt ∧ x.toInt ≤ 16384) ∧
    nextOf (execAll ([(0x4000 : Sample), 0xC000].map Instr.dsmIn) State.reset) =
      some { State.reset with rsp := [0x02000001, 0x02000000] } := by
  rw [List.forall_mem_cons, List.forall_mem_singleton]; decide

theorem witness_CntRdEmitsTheRunCount :
    computing0.Inv ∧ computing0.rleStarted = false ∧ afterBadN.phase = .faulted :=
  ⟨computing0_inv, rfl, rfl⟩

theorem witness_DsmClrClearsTheAccumulator :
    (withQe (-4799)).phase = .idle ∧ afterBadN.phase = .faulted := by decide

theorem witness_DsmStepIsTheRecurrence :
    ((2147483647 : Int) + 1 > 2 ^ 31 - 1 ∧ (-2147483648 : Int) + -1 < -2 ^ 31) ∧
    (-2 ^ 31 ≤ (-2147483648 : Int) + 0 ∧ (-2147483648 : Int) + 0 ≤ 0) ∧
    (-2 ^ 31 ≤ (-1 : Int) + 1 ∧ (-1 : Int) + 1 ≤ 0) ∧
    (0 < (0 : Int) + 1 ∧ (0 : Int) + 1 ≤ 2 ^ 31 - 1) ∧
    (0 < (2147483646 : Int) + 1 ∧ (2147483646 : Int) + 1 ≤ 2 ^ 31 - 1) := by decide

theorem witness_DsmInTakesOneSample_words :
    opField 0x02010000 = 0x02 ∧ (argField 0x02010000).extractLsb' 16 8 ≠ 0 := by decide
theorem witness_DsmInTakesOneSample_overflow :
    (withQe 2147483647).phase = .idle ∧
    2 ^ 31 - 1 < (withQe 2147483647).qe.toInt + (1 : Sample).toInt ∧
    (withQe (-2147483648)).qe.toInt + (0xFFFF : Sample).toInt < -2 ^ 31 := by decide
theorem witness_DsmInTakesOneSample_minus :
    (withQe (-2147483648)).phase = .idle ∧
    -2 ^ 31 ≤ (withQe (-2147483648)).qe.toInt + (0 : Sample).toInt ∧
    (withQe (-2147483648)).qe.toInt + (0 : Sample).toInt ≤ 0 ∧
    (withQe (-100)).phase = .idle ∧ -2 ^ 31 ≤ (withQe (-100)).qe.toInt + (100 : Sample).toInt ∧
    (withQe (-100)).qe.toInt + (100 : Sample).toInt ≤ 0 := by decide
theorem witness_DsmInTakesOneSample_plus :
    (withQe (-100)).phase = .idle ∧ 0 < (withQe (-100)).qe.toInt + (101 : Sample).toInt ∧
    (withQe (-100)).qe.toInt + (101 : Sample).toInt ≤ 2 ^ 31 - 1 ∧
    0 < (withQe 2147483646).qe.toInt + (1 : Sample).toInt ∧
    (withQe 2147483646).qe.toInt + (1 : Sample).toInt ≤ 2 ^ 31 - 1 := by decide
theorem witness_DsmInTakesOneSample_start :
    State.reset.phase = .idle ∧ State.reset.qe = 0 ∧ afterBadN.phase = .faulted := by decide

theorem witness_BoundedSamplesKeepTheAccumulatorBounded :
    (withQe 16384).phase = .idle ∧ -16384 ≤ (withQe 16384).qe.toInt ∧
    (withQe 16384).qe.toInt ≤ 16384 ∧ (withQe (-16384)).qe.toInt = -16384 ∧
    ∀ x ∈ [(0x4000 : Sample), 0xC000], -16384 ≤ x.toInt ∧ x.toInt ≤ 16384 := by
  rw [List.forall_mem_cons, List.forall_mem_singleton]; decide

theorem witness_AccumulatorTelescopes :
    State.reset.phase = .idle ∧ State.reset.qe = 0 ∧
    (nextOf (execAll ([(0x2D41 : Sample)].map Instr.dsmIn) State.reset)).map (·.phase) =
      some .idle := by decide

theorem witness_SymbolDensityFollowsTheSample :
    State.reset.phase = .idle ∧ State.reset.qe = 0 ∧ -16384 ≤ (0x4000 : Sample).toInt ∧
    (0x4000 : Sample).toInt ≤ 16384 ∧ (0xC000 : Sample).toInt = -16384 ∧ 0 < 1 := by decide

theorem witness_RleClrAbandonsTheSequence : midRun.phase = .idle ∧ afterBadN.phase = .faulted := by
  decide

theorem witness_RleStepCountsRuns :
    (fullRun.rle.started = true ∧ false ≠ fullRun.rle.last) ∧
    (State.reset.rle.started = false ∧ State.reset.rle.count.toNat + 1 ≤ 2 ^ 24 - 1) ∧
    (true = (RleRegs.mk true true 0xFFFFFE).last ∧
      (RleRegs.mk true true 0xFFFFFE).count.toNat + 1 ≤ 2 ^ 24 - 1) ∧
    (true = fullRun.rle.last ∧ 2 ^ 24 - 1 < fullRun.rle.count.toNat + 1) := by decide

theorem witness_RleInTakesOneSymbol :
    (opField 0x11000002 = 0x11 ∧ (argField 0x11000002).extractLsb' 1 23 ≠ 0) ∧
    (fullRun.phase = .idle ∧ fullRun.rleStarted = true ∧ false ≠ fullRun.rleLast) ∧
    (State.reset.phase = .idle ∧ State.reset.rleStarted = false ∧
      State.reset.rleCount.toNat < 2 ^ 24 - 1) ∧
    (midRun.phase = .idle ∧ true = midRun.rleLast ∧ midRun.rleCount.toNat < 2 ^ 24 - 1) ∧
    (fullRun.phase = .idle ∧ true = fullRun.rleLast ∧ fullRun.rleCount.toNat = 2 ^ 24 - 1) ∧
    afterBadN.phase = .faulted := by decide
theorem witness_RleInTakesOneSymbol_invariant : fullRun.Inv ∧ fullRun.rleStarted = true :=
  ⟨fullRun_inv, rfl⟩

theorem witness_RleEndEmitsTheLastRun :
    midRun.phase = .idle ∧ midRun.rleStarted = true ∧ State.reset.phase = .idle ∧
    State.reset.rleStarted = false ∧ afterBadN.phase = .faulted := by decide

theorem witness_RunLengthsReconstructTheSymbols :
    midRun.phase = .idle ∧
    (nextOf (execAll (.rleClr :: [true, true, false].map .rleIn ++ [.rleEnd]) midRun)).map
      (·.phase) = some .idle := by decide

theorem witness_RunLengthBounds :
    midRun.phase = .idle ∧ ([true] ++ []).length ≤ 2 ^ 24 - 1 ∧
    (nextOf (execAll (.rleClr :: [true, false].map .rleIn ++ [.rleEnd]) midRun)).map (·.phase) =
      some .idle := by decide
theorem witness_RunLengthBounds_longest :
    (false :: List.replicate (2 ^ 24 - 2) true).length ≤ 2 ^ 24 - 1 := by
  rw [List.length_cons, List.length_replicate]; decide

theorem witness_LcInCompensatesOneRun :
    State.reset.phase = .idle ∧
    State.reset.params.tSwitch.toNat * ((5592406 : U24).toNat - 1) < 2 ^ 24 ∧
    2 ^ 24 ≤ State.reset.params.tSwitch.toNat * ((5592407 : U24).toNat - 1) ∧
    afterBadN.phase = .faulted := by decide

theorem witness_CompensationLaws :
    (1 ≤ (1 : U24).toNat ∧ (2 : U24).toNat = (1 : U24).toNat + 1 ∧ lc 3 1 = some 0 ∧
      lc 3 2 = some 3) ∧
    ((0 : U24).toNat ≤ (5592406 : U24).toNat ∧ lc 3 0 = some 0 ∧ lc 3 5592406 = some 0xFFFFFF) := by
  decide
theorem witness_CompensationLaws_segments :
    (∀ n ∈ [(1 : U24), 4, 2], 1 ≤ n.toNat) ∧ padDurations 3 [1, 4, 2] = some [0, 9, 3] := by
  rw [List.forall_mem_cons, List.forall_mem_cons, List.forall_mem_singleton]; decide

theorem witness_PmInMapsTruthiness : State.reset.phase = .idle ∧ afterBadN.phase = .faulted := by decide

theorem witness_StepRunsTheDecodedCommand :
    { midRun with cmd := [0x20000004] }.env = [] ∧ { midRun with cmd := [0x20000004] }.phase = .idle ∧
    { midRun with cmd := [0x20000004] }.cmd = 0x20000004 :: [] ∧
    { afterBadN with cmd := [0x20000004] }.phase = .faulted ∧ decode 0x20000004 = .ok (.lcIn 4) := by
  decide

theorem witness_IllegalWordsFault :
    { midRun with cmd := [0xF4000000] }.env = [] ∧
    { midRun with cmd := [0xF4000000] }.cmd = 0xF4000000 :: [] ∧
    decode 0xF4000000 = .error (.unassignedOp 0xF4) ∧ midRun.phase = .idle ∧
    { afterBadN with cmd := [0xF4000000] }.phase = .faulted := by decide

theorem witness_BusyPortAcceptsNothing :
    (observingWith [.hostWrite 0]).busy = true ∧
    (observingWith [.hostWrite 0]).env.head? ≠ some .rst ∧
    nextOf (step (observingWith [.hostWrite 0])) = some { observing with cmd := [0] } := by decide

theorem witness_OnlyResetLeavesFaulted :
    { afterBadN with cmd := [0x40000000] }.phase = .faulted ∧
    nextOf (step { afterBadN with cmd := [0x40000000] }) =
      some { afterBadN with rsp := [0xFF004006] } ∧
    { afterBadN with cmd := [0x40000000] }.env.head? ≠ some .rst := by decide

theorem witness_FaultEntryIsPrecise :
    (State.reset.phase = .idle ∧
      (nextOf (exec .rleEnd State.reset)).map (·.phase) = some .faulted) ∧
    ((observingWith [.execError]).busy = true ∧
      (nextOf (step (observingWith [.execError]))).map (·.phase) = some .faulted) := by decide

theorem witness_AcceptedRunFaultsOnlyByTheExecutor :
    (observingWith [.done]).Inv ∧ (observingWith [.done]).busy = true ∧
    (nextOf (step (observingWith [.done]))).map (·.phase) = some .faulted :=
  ⟨observingWith_inv _, by decide, by decide⟩

theorem witness_ResetFromEveryState :
    (observingWith [.rst]).env = .rst :: [] ∧
    (observingWith [.rst, .hostWrite 0x20000004]).env = [.rst, .hostWrite 0x20000004] ∧
    decode 0x20000004 = .ok (.lcIn 4) := by decide

/-- R131, R132: a word that waits behind a run does not survive a reset. -/
theorem test_reset_drops_waiting_words :
    nextOf (step { observingWith [.rst] with cmd := [0x40000001] }) = some State.reset := by decide

theorem witness_HostMovesOnlyTouchTheStreams :
    (observingWith [.hostWrite 0]).env = .hostWrite 0 :: [] ∧
    (observingWith [.hostTake]).env = .hostTake :: [] ∧
    { observingWith [.hostTake] with rsp := [1, 2] }.rsp = 1 :: [2] ∧
    (observingWith [.hostTake]).rsp = [] ∧ State.reset.env = [] ∧
    State.reset.phase = .idle ∧ State.reset.cmd = [] ∧ afterBadN.phase = .faulted := by decide

theorem witness_QuietMovesLeaveTheStepToTheCore :
    { computing2 with env := [.quiet, .hostTake] }.env = .quiet :: [.hostTake] ∧
    nextOf (step { computing2 with env := [.quiet, .hostTake] }) =
      some { handing2 with env := [.hostTake] } := by decide

theorem witness_PipeRunChecksAndStarts :
    State.reset.phase = .idle ∧ (4096 : U24) ≠ 0 ∧ State.reset.params.maxN < (4096 : U24).toNat ∧
    (1 : U24) ≠ 0 ∧ (1 : U24).toNat ≤ State.reset.params.maxN ∧
    (4095 : U24).toNat ≤ State.reset.params.maxN ∧ afterBadN.phase = .faulted := by decide

theorem witness_SampleStepAdvancesTheRun_first :
    computing0.Inv ∧ computing0.phase = .compute ∧ computing0.env = [] ∧
    computing0.smpIdx ≤ computing0.smpN.toNat := ⟨computing0_inv, by decide⟩
theorem witness_SampleStepAdvancesTheRun_last :
    computing1.Inv ∧ computing1.phase = .compute ∧ computing1.env = [] ∧
    computing1.smpIdx ≤ computing1.smpN.toNat := ⟨computing1_inv, by decide⟩

theorem witness_FlushStepFormsTotal :
    computing2.Inv ∧ computing2.phase = .compute ∧ computing2.env = [] ∧
    computing2.smpIdx = computing2.smpN.toNat + 1 := ⟨computing2_inv, by decide⟩

theorem witness_PipelineComputesTheStages :
    midRun.Inv ∧ midRun.phase = .idle ∧ midRun.env = [] ∧ (1 : U24) ≠ 0 ∧
    (1 : U24).toNat ≤ midRun.params.maxN ∧ exec (.pipeRun 1) midRun = .next computing0 :=
  ⟨midRun_inv, by decide, by decide, by decide, by decide, next_of (by decide)⟩

theorem witness_HandoffDeliversInReverseAndStarts :
    handing2.Inv ∧ handing2.phase = .handoff ∧ handing2.env = [] ∧ 0 < handing2.hndIdx ∧
    handing2.hndIdx = handing2.segK ∧ handing0.phase = .handoff ∧ handing0.env = [] ∧
    handing0.hndIdx = 0 := ⟨handing2_inv, by decide⟩

theorem witness_ExecutorMovesActInTheirPhases :
    (observingWith [.pin true]).env = .pin true :: [] ∧ (observingWith [.pin true]).phase = .observe ∧
    { observingWith [.pin true] with ticks := 6 }.ticks = (observingWith [.pin true]).total ∧
    { observingWith [.pin true] with ticks := 5 }.ticks.toNat < (observingWith []).total.toNat ∧
    { computing0 with env := [.pin true] }.phase ≠ .observe ∧
    { handing2 with env := [.done] }.phase ≠ .observe ∧
    (observingWith [.execError]).env = .execError :: [] ∧
    (observingWith [.execError]).phase = .observe ∧
    { handing2 with env := [.execError] }.phase = .handoff ∧
    { computing0 with env := [.execError] }.phase ≠ .handoff ∧
    { computing0 with env := [.execError] }.phase ≠ .observe := by decide

theorem witness_TerminationCompletesTheRun :
    (observingWith [.done]).env = .done :: [] ∧ (observingWith [.done]).phase = .observe ∧
    { observingWith [.done] with ticks := 6 }.ticks = (observingWith [.done]).total ∧
    { observingWith [.done] with ticks := 5 }.ticks ≠ (observingWith [.done]).total := by decide

theorem witness_SilentExecutorHangsTheCore :
    (observingWith [.quiet, .hostWrite 5, .hostTake]).phase = .observe ∧
    ∀ e ∈ (observingWith [.quiet, .hostWrite 5, .hostTake]).env,
      e = .quiet ∨ (∃ w, e = .hostWrite w) ∨ e = .hostTake := ⟨rfl, by simp [observingWith]⟩

theorem witness_ObservedRunGivesItsResult :
    let pins := [false, false, false, true, true, true]
    (observingWith (pins.map Event.pin ++ [.done])).Inv ∧ observing.phase = .observe ∧
    observing.ticks = 0 ∧ pins.length = observing.total.toNat :=
  ⟨observingWith_inv _, by decide, by decide, by decide⟩

/-- An executor error at the first and at the last moment, the first pin state past TOTAL, a termination
one tick before TOTAL, and an error in HANDOFF. -/
theorem witness_FailedRunHasNoResult :
    let pins := fun n => List.replicate n true
    observing.phase = .observe ∧ observing.ticks = 0 ∧ (pins 0).length ≤ observing.total.toNat ∧
    (pins 6).length ≤ observing.total.toNat ∧ (pins 6).length = observing.total.toNat ∧
    (pins 5).length < observing.total.toNat ∧
    (observingWith ((pins 5).map Event.pin ++ .done :: [])).env = (pins 5).map Event.pin ++ .done :: [] ∧
    { handing2 with env := [.execError] }.phase = .handoff ∧
    respTag 0x40000001 ≠ 0x41 := by decide

theorem witness_PipeRunEndToEnd :
    midRun.Inv ∧ midRun.phase = .idle ∧ midRun.env = [] ∧ (1 : U24) ≠ 0 ∧
    (1 : U24).toNat ≤ midRun.params.maxN ∧ exec (.pipeRun 1) midRun = .next computing0 ∧
    (List.replicate 6 true).length = midRun.params.tSwitch.toNat * ((1 : U24).toNat + 1) :=
  ⟨midRun_inv, by decide, by decide, by decide, by decide, next_of (by decide), by decide⟩

theorem witness_DefaultRunStartsWithMinusOne :
    Params.default.wf = true ∧ Params.default.ref = .unitSine ∧ 1 ≤ 1 ∧ 1 ≤ Params.default.maxN ∧
    4095 ≤ Params.default.maxN := by decide

theorem witness_ReferenceExecutorReplaysTheSymbols :
    runLengths (false :: [true, true, false, false]) = some [1, 2, 2] ∧
    padDurations 3 [1, 2, 2] = some [0, 3, 3] := by decide

theorem witness_DefaultReferenceIsExactAtTheQuarters :
    (1 ≤ 4 ∧ 4 * 1 = 1 * 4) ∧ (1 ≤ 1 ∧ 4 * 1 = 4 * 1) ∧ (1 ≤ 8 ∧ 4 * 6 = 3 * 8) ∧ 3 ≤ 8 ∧ 8 ≤ 8 := by decide

theorem witness_DefaultReferenceRoundsTheSine : 1 ≤ 16 ∧ 3 ≤ 16 ∧ 0 ≤ 1 ∧ 1 ≤ 1 := by decide

theorem witness_StepKeepsTheInvariant :
    computing2.Inv ∧ step computing2 = .next handing2 := ⟨computing2_inv, next_of (by decide)⟩

theorem witness_InvariantStatesGoOn : handing2.Inv := handing2_inv

theorem witness_ResponsesStayLegal :
    (observingWith [.pin true]).Inv ∧ (∀ w ∈ (observingWith [.pin true]).rsp, legalResponse w = true) ∧
    step (observingWith [.pin true]) =
      .next { observing with ticks := 1, rsp := [0x40000001] } :=
  ⟨observingWith_inv _, fun _ h => (by cases h), next_of (by decide)⟩

theorem witness_StepsAppendResponsesAndKeepParameters :
    step computing0 = .next computing1 ∧ computing0.env.head? ≠ some .rst ∧
    computing0.env.head? ≠ some .hostTake := ⟨next_of (by decide), by decide, by decide⟩

theorem witness_CommandFrames :
    exec .nop midRun = .next midRun ∧ (∀ n, Instr.nop ≠ .pipeRun n) ∧ (∀ x, Instr.nop ≠ .dsmIn x) ∧
    Instr.nop ≠ .dsmClr ∧ (∀ c, Instr.nop ≠ .rleIn c) ∧ Instr.nop ≠ .rleClr ∧ Instr.nop ≠ .rleEnd :=
  ⟨next_of (by decide), by simp⟩
theorem witness_CommandFrames_pure :
    exec (.lcIn 4) midRun = .next { midRun with rsp := midRun.rsp ++ [0x20000009] } ∧
    (midRun.phase = .idle → midRun.phase ≠ .faulted) ∧
    exec (.pmIn 0) afterBadN = .next { afterBadN with rsp := afterBadN.rsp ++ [0xFF004006] } ∧
    (afterBadN.phase = .idle → afterBadN.phase ≠ .faulted) :=
  ⟨next_of (by decide), by decide, next_of (by decide), by decide⟩

theorem witness_AssemblerEmitsTheWordList :
    (∃ st ∈ [Stmt.nop, .lcIn 16777216], st.wf = false) ∧ Stmt.wf (.lcIn 16777215) = true ∧
    assemble [.lcSeq [1, 4], .clrAll] = some [0x20000001, 0x20000004, 0x01000000, 0x10000000] := by
  decide
/-- −0.5 exactly, and the tie 0.5/16384, which rounds away from zero. -/
theorem witness_AssemblerEmitsTheWordList_rounding :
    (|((-8192 : Int) : ℚ) - -1 * 5 / 10 ^ 1 * 16384| ≤ 1 / 2) ∧
    (|((1 : Int) : ℚ) - 1 * 30517578125 / 10 ^ 15 * 16384| = 1 / 2) ∧
    |(1 * 30517578125 / 10 ^ 15 * 16384 : ℚ)| < |((1 : Int) : ℚ)| := by
  refine ⟨?_, ?_, ?_⟩ <;> norm_num [abs_of_pos, abs_of_neg]

theorem witness_AssemblerReadsLines :
    '\n' ∉ "NOP ".toList ∧ '\n' ∉ " c".toList ∧
    "lc.in".toList.map Char.toUpper = "LC.IN".toList.map Char.toUpper ∧
    "FOO".toList.map Char.toUpper ∉ ["NOP".toList, "DSM.CLR".toList, "DSM.IN".toList,
      "RLE.CLR".toList, "RLE.IN".toList, "RLE.END".toList, "LC.IN".toList, "PM.IN".toList,
      "PIPE.RUN".toList, "STAT.RD".toList, "CFG.RD".toList, "QE.RD".toList, "CNT.RD".toList,
      "DSM.INF".toList, "DSM.SEQ".toList, "RLE.SEQ".toList, "LC.SEQ".toList, "PM.SEQ".toList,
      "RUN".toList, "CLR.ALL".toList] ∧ "FOO".toList ≠ [] := by decide
theorem witness_AssemblerReadsLines_plain :
    (∀ c ∈ " \t".toList, c = ' ' ∨ c = '\t' ∨ c = '\r') ∧
    (∀ c ∈ "lc.in".toList, c ∉ [' ', '\t', '\r', ';', '\n']) ∧
    (∀ c ∈ ([] : List Char).head?, c ∈ [' ', '\t', '\r', ';']) ∧
    (∀ c ∈ "\t4".toList.head?, c ∈ [' ', '\t', '\r', ';']) ∧
    (∀ c ∈ "+1".toList, c ∉ [';', '\n', ',']) ∧
    (∀ c ∈ "+1".toList.head?, c ∉ [' ', '\t', '\r']) ∧
    ∀ c ∈ "+1".toList.getLast?, c ∉ [' ', '\t', '\r'] := by simp

theorem witness_AssemblerReadsOperands :
    (';' ∉ "12a".toList ∧ '\n' ∉ "12a".toList ∧ (∀ c ∈ "12a".toList.head?, c ∉ [' ', '\t', '\r']) ∧
      ∀ c ∈ "12a".toList.getLast?, c ∉ [' ', '\t', '\r']) ∧ "12a".toList ≠ [] ∧
    "12a".toList ≠ ['+', '1'] ∧ "12a".toList ≠ ['-', '1'] ∧
    ([1, 6] : List (Fin 10)) ≠ [] ∧ ([(15, true)] : List (Fin 16 × Bool)) ≠ [] := by simp
/-- `12a` is neither a decimal nor a hexadecimal integer, signed or not, nor a decimal real. -/
theorem witness_AssemblerReadsOperands_refused :
    (¬∃ ds : List (Fin 10), ds ≠ [] ∧ ['1', '2', 'a'] = ds.map (fun d => Nat.digitChar d.val)) ∧
    (¬∃ ds : List (Fin 16 × Bool), ds ≠ [] ∧ ['1', '2', 'a'] = '0' :: 'x' :: ds.map (fun d =>
      if d.2 then (Nat.digitChar d.1.val).toUpper else Nat.digitChar d.1.val)) ∧
    (∀ t, ['1', '2', 'a'] ≠ '+' :: t ∧ ['1', '2', 'a'] ≠ '-' :: t) ∧
    ∀ whole frac, ['1', '2', 'a'] ≠ whole ++ '.' :: frac := by
  refine ⟨?_, by simp, by simp, fun whole frac h => ?_⟩
  · rintro ⟨ds, hd, h⟩
    exact absurd (h ▸ parseDec_digitChar hd)
      (by rw [show parseDec ['1', '2', 'a'] = none by decide]; simp)
  · have hm : '.' ∈ ['1', '2', 'a'] := by rw [h]; simp
    exact absurd hm (by decide)

end Sys2Proof.Tests
end

/-! The CORE's own step reads none of the outside world's coming moves and writes none (R7, R121;
log 7): replacing the list before the step is replacing it in the answer. Each command and each step of
a PIPE.RUN has this property (`IgnoresEnv`), so the step at `quiet` is the step with no pending move. -/

namespace Sys2Proof.Machine

/-! ### The outside world's coming moves replaced -/

/-- The same state with `es` as the outside world's coming moves. -/
def State.withEnv (es : List Event) (s : State) : State := { s with env := es }

/-- An answer with its next state, where there is one, changed by `f`. -/
def mapNext (f : State → State) : Outcome → Outcome
  | .next t => .next (f t)
  | .fault r => .fault r
  | .refused r => .refused r

/-- `body` neither reads nor writes the outside world's coming moves. -/
def IgnoresEnv (body : State → Outcome) : Prop :=
  ∀ (es : List Event) (s : State), body (s.withEnv es) = mapNext (State.withEnv es) (body s)

@[simp] theorem withEnv_env (es : List Event) (s : State) : (s.withEnv es).env = es := rfl
@[simp] theorem withEnv_params (es : List Event) (s : State) : (s.withEnv es).params = s.params := rfl
@[simp] theorem withEnv_qe (es : List Event) (s : State) : (s.withEnv es).qe = s.qe := rfl
@[simp] theorem withEnv_rle (es : List Event) (s : State) : (s.withEnv es).rle = s.rle := rfl
@[simp] theorem withEnv_phase (es : List Event) (s : State) : (s.withEnv es).phase = s.phase := rfl
@[simp] theorem withEnv_smpN (es : List Event) (s : State) : (s.withEnv es).smpN = s.smpN := rfl
@[simp] theorem withEnv_smpIdx (es : List Event) (s : State) : (s.withEnv es).smpIdx = s.smpIdx := rfl
@[simp] theorem withEnv_segK (es : List Event) (s : State) : (s.withEnv es).segK = s.segK := rfl
@[simp] theorem withEnv_hndIdx (es : List Event) (s : State) : (s.withEnv es).hndIdx = s.hndIdx := rfl
@[simp] theorem withEnv_cmd (es : List Event) (s : State) : (s.withEnv es).cmd = s.cmd := rfl

/-! ### The shared operations -/

@[simp] theorem raise_withEnv (c : Cause) (op : Byte) (es : List Event) (s : State) :
    raise c op (s.withEnv es) = mapNext (State.withEnv es) (raise c op s) := rfl
@[simp] theorem setRle_withEnv (r : RleRegs) (es : List Event) (s : State) :
    setRle r (s.withEnv es) = (setRle r s).withEnv es := rfl
@[simp] theorem sampleWrites_withEnv (q : Int) (r : RleRegs) (es : List Event) (s : State) :
    sampleWrites q r (s.withEnv es) = (sampleWrites q r s).withEnv es := rfl
@[simp] theorem refRead_withEnv (n N : Nat) (es : List Event) (s : State) :
    refRead n N (s.withEnv es) = refRead n N s := rfl
@[simp] theorem segRead_withEnv (i : Nat) (es : List Event) (s : State) :
    segRead i (s.withEnv es) = segRead i s := rfl
@[simp] theorem segReadAll_withEnv (es : List Event) (s : State) (k : Nat) :
    segReadAll (s.withEnv es) k = segReadAll s k := segReadAll_congr rfl fun _ _ => rfl
@[simp] theorem segAppend_withEnv (d : U24) (es : List Event) (s : State) :
    segAppend d (s.withEnv es) = (segAppend d s).map (State.withEnv es) := by
  unfold segAppend
  rw [withEnv_segK, withEnv_params]
  split <;> rfl

/-- Acceptance of a command looks at PHASE only (R110). -/
theorem whenIdle_ignoresEnv {body : State → Outcome} (h : IgnoresEnv body) :
    IgnoresEnv (whenIdle body) := by
  intro es s
  cases hp : s.phase <;> simp only [whenIdle, withEnv_phase, hp]
  case idle => exact h es s
  all_goals rfl

/-- Acceptance of NOP and the reads looks at PHASE only (R110). -/
theorem whenIdleOrFaulted_ignoresEnv {body : State → Outcome} (h : IgnoresEnv body) :
    IgnoresEnv (whenIdleOrFaulted body) := by
  intro es s
  cases hp : s.phase <;> simp only [whenIdleOrFaulted, withEnv_phase, hp]
  case idle | faulted => exact h es s
  all_goals rfl

/-! ### The commands -/

theorem execDsmIn_ignoresEnv (x : Sample) : IgnoresEnv (execDsmIn x) :=
  whenIdle_ignoresEnv fun es s => by
    rw [withEnv_qe]
    cases dsmStep s.qe.toInt (sampleOperand x) <;> rfl

theorem execRleIn_ignoresEnv (c : Bool) : IgnoresEnv (execRleIn c) :=
  whenIdle_ignoresEnv fun es s => by
    rw [withEnv_rle]
    rcases rleStep s.rle c with _ | ⟨_ | n, r⟩ <;> rfl

theorem execRleEnd_ignoresEnv : IgnoresEnv execRleEnd :=
  whenIdle_ignoresEnv fun es s => by
    rw [withEnv_rle]
    cases rleEnd s.rle <;> rfl

theorem execLcIn_ignoresEnv (n : U24) : IgnoresEnv (execLcIn n) :=
  whenIdle_ignoresEnv fun es s => by
    rw [withEnv_params]
    cases lc s.params.tSwitch n <;> rfl

theorem execPipeRun_ignoresEnv (n : U24) : IgnoresEnv (execPipeRun n) :=
  whenIdle_ignoresEnv fun es s => by
    rw [withEnv_params]
    split
    · rfl
    · split <;> rfl

/-- No command reads or writes the outside world's coming moves (R121). -/
theorem exec_ignoresEnv (i : Instr) : IgnoresEnv (exec i) := by
  cases i with
  | nop | statRd | cfgRd | qeRd | cntRd => exact whenIdleOrFaulted_ignoresEnv fun _ _ => rfl
  | dsmClr | rleClr | pmIn => exact whenIdle_ignoresEnv fun _ _ => rfl
  | dsmIn x => exact execDsmIn_ignoresEnv x
  | rleIn c => exact execRleIn_ignoresEnv c
  | rleEnd => exact execRleEnd_ignoresEnv
  | lcIn n => exact execLcIn_ignoresEnv n
  | pipeRun n => exact execPipeRun_ignoresEnv n

theorem runWord_ignoresEnv (w : Word) : IgnoresEnv (runWord w) := by
  intro es s
  unfold runWord
  cases decode w with
  | ok i => exact exec_ignoresEnv i es s
  | error e => exact whenIdle_ignoresEnv (raise_withEnv _ _) es s

theorem commandStep_ignoresEnv : IgnoresEnv commandStep := by
  intro es s
  unfold commandStep
  rw [withEnv_cmd]
  cases s.cmd with
  | nil => rfl
  | cons w rest => exact runWord_ignoresEnv w es { s with cmd := rest }

/-! ### The CORE's steps of a PIPE.RUN -/

theorem sampleStep_ignoresEnv : IgnoresEnv sampleStep := by
  intro es s
  simp only [sampleStep, refRead_withEnv, withEnv_smpIdx, withEnv_smpN, withEnv_qe, withEnv_rle,
    withEnv_params, sampleWrites_withEnv, segAppend_withEnv]
  cases refRead s.smpIdx s.smpN.toNat s with
  | error f => rfl
  | ok x =>
    dsimp only
    rcases dsmStep s.qe.toInt x.toInt with _ | ⟨c, q⟩
    · rfl
    · dsimp only
      rcases rleStep s.rle c with _ | ⟨_ | n, r⟩
      · rfl
      · rfl
      · dsimp only
        cases lc s.params.tSwitch n with
        | none => rfl
        | some d =>
          dsimp only
          cases segAppend d (sampleWrites q r s) <;> rfl

theorem flushStep_ignoresEnv : IgnoresEnv flushStep := by
  intro es s
  unfold flushStep
  rw [withEnv_rle, withEnv_params]
  simp only [setRle_withEnv, segAppend_withEnv]
  rcases rleEnd s.rle with _ | ⟨n, r⟩
  · rfl
  · dsimp only
    cases lc s.params.tSwitch n with
    | none => rfl
    | some d =>
      dsimp only
      cases segAppend d (setRle r s) with
      | error f => rfl
      | ok s' =>
        simp only [Except.map, withEnv_segK, segReadAll_withEnv]
        cases segReadAll s' s'.segK with
        | error f => rfl
        | ok ds =>
          dsimp only
          split <;> rfl

theorem computeStep_ignoresEnv : IgnoresEnv computeStep := by
  intro es s
  unfold computeStep
  rw [withEnv_smpIdx, withEnv_smpN]
  split
  · exact sampleStep_ignoresEnv es s
  · split
    · exact flushStep_ignoresEnv es s
    · rfl

theorem handoffStep_ignoresEnv : IgnoresEnv handoffStep := by
  intro es s
  unfold handoffStep
  rw [withEnv_hndIdx, segRead_withEnv]
  cases segRead (s.hndIdx - 1) s <;> rfl

/-- The CORE's own step, in every PHASE, leaves the outside world's coming moves as they are and does
not depend on them (R121; log 7). -/
theorem coreStep_ignoresEnv : IgnoresEnv coreStep := by
  intro es s
  cases hp : s.phase <;> simp only [coreStep, withEnv_phase, hp]
  case idle | faulted => exact commandStep_ignoresEnv es s
  case compute => exact computeStep_ignoresEnv es s
  case handoff =>
    rw [withEnv_hndIdx]
    split
    · exact handoffStep_ignoresEnv es s
    · rfl
  case observe => rfl

/-! ### The two steps that are the CORE's -/

/-- With no outside move pending the step is the CORE's (R121). -/
theorem step_of_env_nil {s : State} (h : s.env = []) : step s = coreStep s := by
  simp [step, agentStep, h]

/-- A quiet move is used up, and the step is the CORE's (log 7). -/
theorem step_of_env_quiet {s : State} {es : List Event} (h : s.env = .quiet :: es) :
    step s = coreStep (s.withEnv es) := by
  simp [step, agentStep, h, eventStep, State.withEnv]

/-- The step at a quiet move is the step with no move pending, the later moves put back (log 7). -/
theorem step_quiet_eq_mapNext {s : State} {es : List Event} (h : s.env = .quiet :: es) :
    step s = mapNext (State.withEnv es) (step (s.withEnv [])) :=
  calc step s
      _ = coreStep ((s.withEnv []).withEnv es) := step_of_env_quiet h
      _ = mapNext (State.withEnv es) (coreStep (s.withEnv [])) := coreStep_ignoresEnv es _
      _ = mapNext (State.withEnv es) (step (s.withEnv [])) := by
        rw [step_of_env_nil (withEnv_env [] s)]

/-- Settles O36, by `coreStep_ignoresEnv`: both steps are the CORE's, on states that differ only in the
coming moves. -/
theorem quietMovesLeaveTheStepToTheCore : Obligations.QuietMovesLeaveTheStepToTheCore := by
  intro s es h
  rw [step_quiet_eq_mapNext h, State.withEnv]
  cases step { s with env := [] } <;> rfl

end Sys2Proof.Machine

/-! The invariant (`State.Inv`) after reset and after every step. A step of the CORE that writes
registers is met by phase: the commands of IDLE, the sample and flush steps of COMPUTE, HANDOFF,
OBSERVE. What COMPUTE rests on is the account of ticks: every finished segment costs its duration and
P_TSWITCH, which is P_TSWITCH for each of its samples (R84, R97), so the durations so far and the run so
far add up to P_TSWITCH for each sample taken, and no sum leaves 24 bits. -/

namespace Sys2Proof.Machine

/-! ### The outside world's moves, and the CORE's step by PHASE -/

/-- A pending outside move is used up and makes the step (log 7). -/
theorem step_of_env_cons {s : State} {e : Event} {es : List Event} (h : s.env = e :: es) :
    step s = eventStep e (s.withEnv es) := by
  simp [step, agentStep, h, State.withEnv]

/-- IDLE and FAULTED take a command (R110). -/
theorem coreStep_accepts {s : State} (h : s.phase = .idle ∨ s.phase = .faulted) :
    coreStep s = commandStep s := by
  rcases h with h | h <;> simp [coreStep, h]

theorem coreStep_compute {s : State} (h : s.phase = .compute) : coreStep s = computeStep s := by
  simp [coreStep, h]

theorem coreStep_handoff {s : State} (h : s.phase = .handoff) :
    coreStep s = if 0 < s.hndIdx then handoffStep s else launchStep s := by
  simp [coreStep, h]

/-- In OBSERVE the CORE waits for the executor (R103). -/
theorem coreStep_observe {s : State} (h : s.phase = .observe) : coreStep s = .next s := by
  simp [coreStep, h]

/-- While no word waits in the command port the CORE waits (R132; log 9). -/
theorem commandStep_nil {s : State} (h : s.cmd = []) : commandStep s = .next s := by
  simp [commandStep, h]

/-- The first word of the command port is taken and performed (R110). -/
theorem commandStep_cons {s : State} {w : Word} {ws : List Word} (h : s.cmd = w :: ws) :
    commandStep s = runWord w { s with cmd := ws } := by
  simp [commandStep, h]

/-- Settles O34: each register by its reset value, the two views by evaluation. -/
theorem resetValues : Obligations.ResetValues := by
  have hconfig : configWord State.reset.params = 0x1E0C03 := by decide
  have hstatus : State.reset.statusWord = 0 := by decide
  exact ⟨rfl, rfl, rfl, rfl, rfl, rfl, rfl, rfl, rfl, rfl, rfl, rfl, rfl, hconfig, rfl, rfl, rfl, rfl,
    hstatus⟩

/-- Settles O35: each HOST move is its own update of one stream, and an empty port leaves the CORE
waiting. -/
theorem hostMovesOnlyTouchTheStreams : Obligations.HostMovesOnlyTouchTheStreams := by
  refine ⟨fun s w es henv => ?_, fun s r rs es henv hrsp => ?_, fun s es henv hrsp => ?_,
    fun s henv hphase hcmd => ?_⟩
  case refine_1 =>
    rw [step_of_env_cons henv]
    rfl
  case refine_2 | refine_3 =>
    rw [step_of_env_cons henv]
    simp [eventStep, takeResponse, State.withEnv, hrsp]
  case refine_4 => rw [step_of_env_nil henv, coreStep_accepts hphase, commandStep_nil hcmd]

/-! ### The encoder's registers (R17) -/

/-- What R17 asks of the encoder's registers: all clear with no sequence started, and a count of at
least 1 in a started one. -/
def RleRegs.Consistent (r : RleRegs) : Prop :=
  (r.started = false → r = RleRegs.clear) ∧ (r.started = true → 1 ≤ r.count.toNat)

theorem clear_consistent : RleRegs.clear.Consistent := ⟨fun _ => rfl, nofun⟩

/-- A step of the encoder starts the sequence, with a count of at least 1 (R77). -/
theorem rleStep_consistent {st r : RleRegs} {c : Bool} {e : Option U24}
    (h : rleStep st c = some (e, r)) : r.Consistent := by
  obtain ⟨hstarted, -, hcount⟩ := rleStep_some h
  refine ⟨by simp [hstarted], fun _ => ?_⟩
  rcases hcount with ⟨-, -, -, hone⟩ | ⟨-, -, hgrown⟩
  · simp [hone]
  · omega

/-- Where no count is emitted the run has grown by one symbol (R77). -/
theorem rleStep_goes_on {st r : RleRegs} {c : Bool} (h : rleStep st c = some (none, r)) :
    r.started = true ∧ r.count.toNat = st.count.toNat + 1 := by
  obtain ⟨hstarted, -, ⟨-, -, hsome, -⟩ | ⟨-, -, hcount⟩⟩ := rleStep_some h
  · cases hsome
  · exact ⟨hstarted, hcount⟩

/-- Where a count is emitted it is that of the run which was open, and the new run has one symbol (R77). -/
theorem rleStep_ends {st r : RleRegs} {c : Bool} {n : U24} (h : rleStep st c = some (some n, r)) :
    st.started = true ∧ n = st.count ∧ r.started = true ∧ r.count.toNat = 1 := by
  obtain ⟨hstarted, -, ⟨hopen, -, hn, hcount⟩ | ⟨-, hnone, -⟩⟩ := rleStep_some h
  · exact ⟨hopen, Option.some.inj hn, hstarted, congrArg BitVec.toNat hcount⟩
  · cases hnone

/-- The end of a sequence clears the registers (R78). -/
theorem rleEnd_consistent {st r : RleRegs} {n : U24} (h : rleEnd st = some (n, r)) :
    r.Consistent := by
  obtain ⟨-, -, rfl⟩ := rleEnd_some_iff.1 h
  exact clear_consistent

/-! ### The segment buffer -/

/-- `s` with `d` written at SEG_K and SEG_K one further: what `segAppend` answers (R37, R95). -/
def appendSeg (d : U24) (s : State) : State :=
  { s with segBuf := s.segBuf.write s.segK d, segK := s.segK + 1 }

theorem segAppend_eq {d : U24} {s : State} (h : s.segK < s.params.maxSeg) :
    segAppend d s = .ok (appendSeg d s) :=
  segAppend_ok_iff.2 ⟨h, rfl⟩

/-- Entries read before a step are read after it where SEG_BUF is as it was. -/
theorem segReadAll_of_eq {s t : State} {k : Nat} {ds : List U24} (h : segReadAll s k = .ok ds)
    (hp : t.params = s.params) (hm : t.segBuf = s.segBuf) : segReadAll t k = .ok ds :=
  (segReadAll_congr hp fun _ _ => by rw [hm]).trans h

/-- After an append the entries below SEG_K are those from before, then the one appended. -/
theorem segReadAll_appendSeg {s : State} {ds : List U24} {d : U24}
    (h : segReadAll s s.segK = .ok ds) (hk : s.segK < s.params.maxSeg) :
    segReadAll (appendSeg d s) (s.segK + 1) = .ok (ds ++ [d]) := by
  have hbelow : segReadAll (appendSeg d s) s.segK = segReadAll s s.segK :=
    segReadAll_congr rfl fun i hi => Memory_read_write_other _ _ hi.ne
  exact segReadAll_succ_ok (hbelow.trans h) (segRead_ok_iff.2 ⟨hk, Memory_read_write_same _ _ _⟩)

theorem segReadAll_appendSeg_setRle {s : State} {ds : List U24} {d : U24} (r : RleRegs)
    (h : segReadAll s s.segK = .ok ds) (hk : s.segK < s.params.maxSeg) :
    segReadAll (appendSeg d (setRle r s)) (s.segK + 1) = .ok (ds ++ [d]) :=
  segReadAll_appendSeg (s := setRle r s) (segReadAll_of_eq h rfl rfl) hk

/-- A segment more adds its duration and P_TSWITCH to the sum of R97. -/
theorem totalSum_append (t : BitVec 8) (ds : List U24) (d : U24) :
    totalSum t (ds ++ [d]) = totalSum t ds + (d.toNat + t.toNat) := by
  simp only [totalSum, List.map_append, List.map_cons, List.map_nil, List.sum_append,
    List.sum_singleton, List.length_append, List.length_singleton]
  ring

/-! ### Compensation within a run (R84) -/

/-- A run of at most 2^16 symbols is compensated without overflow (R84). -/
theorem lc_total {t : BitVec 8} {n : U24} (h : n.toNat ≤ 65536) : ∃ d, lc t n = some d := by
  refine Option.ne_none_iff_exists'.1 fun hnone => ?_
  have hprod : t.toNat * (n.toNat - 1) ≤ 255 * 65535 := Nat.mul_le_mul (by omega) (by omega)
  have hover := lc_none_iff.1 hnone
  omega

/-- A segment of n ≥ 1 samples costs its duration and P_TSWITCH: P_TSWITCH for each sample (R84, R97). -/
theorem lc_add_switch {t : BitVec 8} {n d : U24} (h : lc t n = some d) (hn : 1 ≤ n.toNat) :
    d.toNat + t.toNat = t.toNat * n.toNat := by
  rw [lc_some_iff.1 h, ← Nat.mul_succ, Nat.succ_eq_add_one, Nat.sub_add_cancel hn]

/-! ### What holds in every PHASE, under the named updates -/

/-- No fault is recorded outside FAULTED (R26). -/
theorem cause_eq_none {s : State} (h : s.BaseInv) (hp : s.phase ≠ .faulted) : s.cause = .none :=
  not_not.1 (mt h.causePhase.2 hp)

theorem setRle_baseInv {s : State} {r : RleRegs} (h : s.BaseInv) (hr : r.Consistent) :
    (setRle r s).BaseInv :=
  { h with rleFresh := hr.1, rleRun := hr.2 }

theorem appendSeg_baseInv {s : State} {d : U24} (h : s.BaseInv) (hk : s.segK < s.params.maxSeg) :
    (appendSeg d s).BaseInv :=
  { h with
    segWf := Memory_wf_write _ _ h.segWf
    segBound := fun e he => (Memory_mem_write he).elim (fun heq => heq ▸ hk) (h.segBound e)
    segKRange := hk }

theorem sampleWrites_baseInv {s : State} {q : Int} {r : RleRegs} (h : s.BaseInv)
    (hr : r.Consistent) (hi : s.smpIdx ≤ s.params.maxN) : (sampleWrites q r s).BaseInv :=
  { h with rleFresh := hr.1, rleRun := hr.2, smpIdxRange := Nat.succ_le_succ hi }

theorem startRun_baseInv {s : State} {n : U24} (h : s.BaseInv) (hp : s.phase ≠ .faulted)
    (hn : n.toNat ≤ s.params.maxN) : (startRun n s).BaseInv :=
  have hcause : s.cause = .none := cause_eq_none h hp
  { h with
    rleFresh := clear_consistent.1
    rleRun := clear_consistent.2
    smpNRange := hn
    smpIdxRange := Nat.zero_le _
    segKRange := Nat.zero_le _
    hndIdxRange := Nat.zero_le _
    causePhase := iff_of_false nofun (not_not.2 hcause) }

theorem enterFault_baseInv {s : State} {c : Cause} {op : Byte} (h : s.BaseInv) (hc : c ≠ .none)
    (hop : legalFault c op = true) : (enterFault c op s).BaseInv :=
  { h with causePhase := iff_of_true rfl hc, faultPair := hop }

/-- A move between two phases that are not FAULTED. -/
theorem phase_baseInv {s : State} {p : Phase} (h : s.BaseInv) (hs : s.phase ≠ .faulted)
    (hp : p ≠ .faulted) : { s with phase := p }.BaseInv :=
  have hcause : s.cause = .none := cause_eq_none h hs
  { h with causePhase := iff_of_false hp (not_not.2 hcause) }

/-! ### The invariant by PHASE -/

theorem inv_of_idle {s : State} (h : s.BaseInv) (hp : s.phase = .idle)
    (he : s.execStarted = false) : s.Inv :=
  ⟨h, fun _ => he, by simp [hp], by simp [hp], by simp [hp]⟩

theorem inv_of_faulted {s : State} (h : s.BaseInv) (hp : s.phase = .faulted) : s.Inv :=
  ⟨h, by simp [hp], by simp [hp], by simp [hp], by simp [hp]⟩

theorem inv_of_compute {s : State} (h : s.BaseInv) (hp : s.phase = .compute)
    (hc : s.ComputeInv) : s.Inv :=
  ⟨h, by simp [hp], fun _ => hc, by simp [hp], by simp [hp]⟩

theorem inv_of_handoff {s : State} (h : s.BaseInv) (hp : s.phase = .handoff)
    (hh : s.HandoffInv) : s.Inv :=
  ⟨h, by simp [hp], by simp [hp], fun _ => hh, by simp [hp]⟩

theorem inv_of_observe {s : State} (h : s.BaseInv) (hp : s.phase = .observe)
    (ho : s.ObserveInv) : s.Inv :=
  ⟨h, by simp [hp], by simp [hp], by simp [hp], fun _ => ho⟩

/-- The invariant does not look at RSP, the command port or the outside world's coming moves. -/
theorem inv_of_streams {s t : State} (h : s.Inv)
    (ht : t = { s with rsp := t.rsp, cmd := t.cmd, env := t.env }) : t.Inv := by
  have hseg : ∀ k, segReadAll t k = segReadAll s k := fun k =>
    segReadAll_congr (by rw [ht]) fun i _ => by rw [ht]
  rw [ht] at hseg ⊢
  exact ⟨{ h.base with }, h.idle,
    fun hp => { h.compute hp with durations := by rw [hseg]; exact (h.compute hp).durations },
    fun hp => { h.handoff hp with durations := by rw [hseg]; exact (h.handoff hp).durations },
    fun hp => { h.observe hp with durations := by rw [hseg]; exact (h.observe hp).durations }⟩

theorem emit_inv {s : State} (h : s.Inv) (tag : Byte) (val : U24) : (emit tag val s).Inv :=
  inv_of_streams h rfl

/-- Fault entry with a cause that its OP can raise (R116, R118). -/
theorem enterFault_inv {s : State} {c : Cause} {op : Byte} (h : s.BaseInv) (hc : c ≠ .none)
    (hop : legalFault c op = true) : (enterFault c op s).Inv :=
  inv_of_faulted (enterFault_baseInv h hc hop) rfl

theorem raise_inv {s t : State} {c : Cause} {op : Byte} (h : s.BaseInv)
    (ht : raise c op s = .next t) (hc : c ≠ .none) (hop : legalFault c op = true) : t.Inv := by
  obtain rfl := (raise_next_iff c op s t).1 ht
  exact enterFault_inv h hc hop

/-- Reset, with legal parameters (R35, R131). -/
theorem rst_inv {s : State} (h : s.params.wf = true) : s.rst.Inv :=
  inv_of_idle
    { params := h
      segWf := reset_segBuf_wf
      segBound := nofun
      rleFresh := clear_consistent.1
      rleRun := clear_consistent.2
      smpNRange := Nat.zero_le _
      smpIdxRange := Nat.zero_le _
      segKRange := Nat.zero_le _
      hndIdxRange := Nat.zero_le _
      causePhase := iff_of_false nofun (not_not.2 rfl)
      faultPair := rfl } rfl rfl

/-- Settles O52: the reset state is its own reset, with the default parameters of R5. -/
theorem resetSatisfiesTheInvariant : Obligations.ResetSatisfiesTheInvariant :=
  rst_inv (s := State.reset) (by decide)

/-! ### The commands -/

/-- Where IDLE's rule keeps the invariant, so does the command: the other phases write only RSP. -/
theorem whenIdle_inv {body : State → Outcome} {s t : State} (h : s.Inv)
    (hbody : s.phase = .idle → body s = .next t → t.Inv) (ht : whenIdle body s = .next t) : t.Inv := by
  rcases whenIdle_cases ht with ⟨hp, hb⟩ | ⟨-, rfl⟩ | ⟨-, rfl⟩
  · exact hbody hp hb
  · exact inv_of_streams h rfl
  · exact h

theorem whenIdleOrFaulted_inv {body : State → Outcome} {s t : State} (h : s.Inv)
    (hbody : body s = .next t → t.Inv) (ht : whenIdleOrFaulted body s = .next t) : t.Inv := by
  rcases whenIdleOrFaulted_cases ht with ⟨-, hb⟩ | ⟨-, rfl⟩
  · exact hbody hb
  · exact h

/-- Writing QE in IDLE: no rule of IDLE bounds it. -/
theorem setQe_inv {s : State} {q : Int} (h : s.Inv) (hp : s.phase = .idle) : (setQe q s).Inv :=
  inv_of_idle { h.base with } hp (h.idle hp)

theorem setRle_inv {s : State} {r : RleRegs} (h : s.Inv) (hp : s.phase = .idle)
    (hr : r.Consistent) : (setRle r s).Inv :=
  inv_of_idle (setRle_baseInv h.base hr) hp (h.idle hp)

theorem execDsmIn_inv {s t : State} {x : Sample} (h : s.Inv) (ht : execDsmIn x s = .next t) :
    t.Inv := by
  refine whenIdle_inv h (fun hp hb => ?_) ht
  rcases hd : dsmStep s.qe.toInt (sampleOperand x) with _ | ⟨c, q⟩ <;> simp only [hd] at hb
  · exact raise_inv h.base hb nofun rfl
  · cases hb
    exact emit_inv (setQe_inv h hp) _ _

theorem execRleIn_inv {s t : State} {c : Bool} (h : s.Inv) (ht : execRleIn c s = .next t) :
    t.Inv := by
  refine whenIdle_inv h (fun hp hb => ?_) ht
  rcases hr : rleStep s.rle c with _ | ⟨_ | n, r⟩ <;> simp only [hr] at hb
  · exact raise_inv h.base hb nofun rfl
  · cases hb
    exact setRle_inv h hp (rleStep_consistent hr)
  · cases hb
    exact emit_inv (setRle_inv h hp (rleStep_consistent hr)) _ _

theorem execRleEnd_inv {s t : State} (h : s.Inv) (ht : execRleEnd s = .next t) : t.Inv := by
  refine whenIdle_inv h (fun hp hb => ?_) ht
  rcases hr : rleEnd s.rle with _ | ⟨n, r⟩ <;> simp only [hr] at hb
  · exact raise_inv h.base hb nofun rfl
  · cases hb
    exact emit_inv (setRle_inv h hp (rleEnd_consistent hr)) _ _

theorem execLcIn_inv {s t : State} {n : U24} (h : s.Inv) (ht : execLcIn n s = .next t) : t.Inv := by
  refine whenIdle_inv h (fun _ hb => ?_) ht
  cases hd : lc s.params.tSwitch n <;> simp only [hd] at hb
  · exact raise_inv h.base hb nofun rfl
  · cases hb
    exact emit_inv h _ _

/-- An accepted PIPE.RUN starts with no sample taken and no segment (R94). -/
theorem startRun_inv {s : State} {n : U24} (h : s.Inv) (hp : s.phase = .idle) (hpos : 1 ≤ n.toNat)
    (hn : n.toNat ≤ s.params.maxN) : (startRun n s).Inv :=
  inv_of_compute (startRun_baseInv h.base (by simp [hp]) hn) rfl
    { nPos := hpos
      idxRange := Nat.zero_le _
      qeLow := (by decide : -Config.one ≤ (BitVec.ofInt 32 0).toInt)
      qeHigh := (by decide : (BitVec.ofInt 32 0).toInt ≤ Config.one)
      started := rfl
      runs := Nat.le_refl 0
      notStarted := rfl
      noWords := rfl
      noTicks := rfl
      durations := ⟨[], rfl, rfl⟩ }

theorem execPipeRun_inv {s t : State} {n : U24} (h : s.Inv) (ht : execPipeRun n s = .next t) :
    t.Inv := by
  refine whenIdle_inv h (fun hp hb => ?_) ht
  by_cases hzero : n.toNat = 0
  · rw [valueOperand, if_pos hzero] at hb
    exact raise_inv h.base hb nofun rfl
  by_cases hcap : s.params.maxN < n.toNat
  · rw [valueOperand, if_neg hzero, if_pos hcap] at hb
    exact raise_inv h.base hb nofun rfl
  · rw [valueOperand, if_neg hzero, if_neg hcap] at hb
    cases hb
    exact startRun_inv h hp (Nat.pos_of_ne_zero hzero) (not_lt.1 hcap)

theorem exec_inv {s t : State} (i : Instr) (h : s.Inv) (ht : exec i s = .next t) : t.Inv := by
  cases i with
  | nop => exact whenIdleOrFaulted_inv h (fun hb => by cases hb; exact h) ht
  | statRd | cfgRd | qeRd | cntRd =>
    simp only [exec, execStatRd, execCfgRd, execQeRd, execCntRd] at ht
    exact whenIdleOrFaulted_inv h (fun hb => by cases hb; exact emit_inv h _ _) ht
  | dsmClr =>
    simp only [exec, execDsmClr] at ht
    exact whenIdle_inv h (fun hp hb => by cases hb; exact setQe_inv h hp) ht
  | rleClr =>
    simp only [exec, execRleClr] at ht
    exact whenIdle_inv h (fun hp hb => by cases hb; exact setRle_inv h hp clear_consistent) ht
  | pmIn x =>
    simp only [exec, execPmIn] at ht
    exact whenIdle_inv h (fun _ hb => by cases hb; exact emit_inv h _ _) ht
  | dsmIn x => exact execDsmIn_inv h ht
  | rleIn c => exact execRleIn_inv h ht
  | rleEnd => exact execRleEnd_inv h ht
  | lcIn n => exact execLcIn_inv h ht
  | pipeRun n => exact execPipeRun_inv h ht

/-- A word of the command port, legal or not (R110, R117). -/
theorem runWord_inv {s t : State} {w : Word} (h : s.Inv) (ht : runWord w s = .next t) : t.Inv := by
  unfold runWord at ht
  cases hd : decode w <;> simp only [hd] at ht
  case ok i => exact exec_inv i h ht
  case error e =>
    exact whenIdle_inv (body := raise .illegalCommand (opField w)) h
      (fun _ hb => raise_inv h.base hb nofun rfl) ht

theorem commandStep_inv {s t : State} (h : s.Inv) (ht : commandStep s = .next t) : t.Inv := by
  cases hcmd : s.cmd with
  | nil =>
    rw [commandStep_nil hcmd] at ht
    cases ht
    exact h
  | cons w ws =>
    rw [commandStep_cons hcmd] at ht
    exact runWord_inv (inv_of_streams h rfl) ht

/-! ### COMPUTE: the sample step (R95) -/

/-- The run so far is no longer than the samples taken, which fit 16 bits and one more (R93, R105). -/
theorem rleCount_le {s : State} (h : s.BaseInv) (hc : s.ComputeInv) : s.rleCount.toNat ≤ 65536 := by
  have hmax := maxN_le h.params
  have hN := h.smpNRange
  have hi := hc.idxRange
  have hr := hc.runs
  omega

/-- While a run is open its segment has room (R37). -/
theorem segK_lt_maxSeg {s : State} (h : s.BaseInv) (hc : s.ComputeInv)
    (hstarted : s.rleStarted = true) : s.segK < s.params.maxSeg := by
  have hcount := h.rleRun hstarted
  have hN := h.smpNRange
  have hi := hc.idxRange
  have hr := hc.runs
  rw [maxSeg_eq]
  omega

/-- The run cannot reach 2^24 samples in a PIPE.RUN (R105). -/
theorem rleStep_total {s : State} (h : s.BaseInv) (hc : s.ComputeInv) (c : Bool) :
    ∃ e r, rleStep s.rle c = some (e, r) := by
  obtain ⟨⟨e, r⟩, her⟩ : ∃ er, rleStep s.rle c = some er := by
    refine Option.ne_none_iff_exists'.1 fun hnone => ?_
    have hover := ((rleStep_none_iff _ _).1 hnone).2
    have hcount := rleCount_le h hc
    rw [rle_count] at hover
    omega
  exact ⟨e, r, her⟩

/-- In the states of a run the sample step does not fault and does not stop: it modulates REF(SMP_IDX,
SMP_N), encodes the symbol, and appends the duration of a run that ended (R95, R105). -/
theorem sampleStep_of_inv {s : State} (h : s.BaseInv) (hc : s.ComputeInv)
    (hi : s.smpIdx ≤ s.smpN.toNat) :
    ∃ (x : Sample) (c : Bool) (q : Int) (e : Option U24) (r : RleRegs),
      RefSource.sample s.params.ref s.smpIdx s.smpN.toNat = some x ∧
      dsmStep s.qe.toInt x.toInt = some (c, q) ∧ (-Config.one ≤ q ∧ q ≤ Config.one) ∧
      rleStep s.rle c = some (e, r) ∧
      (e = none → sampleStep s = .next (sampleWrites q r s)) ∧
      ∀ n, e = some n → ∃ d, lc s.params.tSwitch n = some d ∧
        sampleStep s = .next (appendSeg d (sampleWrites q r s)) := by
  obtain ⟨x, hx, hlo, hhi⟩ :=
    sample_total ((Params_wf_iff _).1 h.params).2.2 hc.nPos h.smpNRange hi
  obtain ⟨c, q, hd, hq⟩ := dsmStep_bounded hc.qeLow hc.qeHigh hlo hhi
  obtain ⟨e, r, hr⟩ := rleStep_total h hc c
  have href : refRead s.smpIdx s.smpN.toNat s = .ok x := refRead_ok_iff.2 hx
  refine ⟨x, c, q, e, r, hx, hd, hq, hr, ?_, ?_⟩
  · rintro rfl
    simp only [sampleStep, href, hd, hr]
  · rintro n rfl
    obtain ⟨hopen, rfl, -, -⟩ := rleStep_ends hr
    obtain ⟨d, hlc⟩ := lc_total (t := s.params.tSwitch) (rleCount_le h hc)
    have happend : segAppend d (sampleWrites q r s) = .ok (appendSeg d (sampleWrites q r s)) :=
      segAppend_eq (s := sampleWrites q r s) (segK_lt_maxSeg (s := s) h hc hopen)
    exact ⟨d, hlc, by simp only [sampleStep, href, hd, hr, rle_count, hlc, happend]⟩

/-- An accumulator in [−ONE, ONE] is held as it is (R14). -/
theorem qe_of_bounded {q : Int} (hq : -Config.one ≤ q ∧ q ≤ Config.one) :
    (BitVec.ofInt 32 q).toInt = q := by
  obtain ⟨hlo, hhi⟩ := hq
  simp only [Config.one] at hlo hhi
  exact setQe_toInt (by omega) (by omega) State.reset

/-- The run goes on: one sample more, P_TSWITCH ticks more in the run (R95). -/
theorem sampleWrites_computeInv {s : State} {q : Int} {c : Bool} {r : RleRegs} (hc : s.ComputeInv)
    (hi : s.smpIdx ≤ s.smpN.toNat) (hq : -Config.one ≤ q ∧ q ≤ Config.one)
    (hr : rleStep s.rle c = some (none, r)) : (sampleWrites q r s).ComputeInv := by
  obtain ⟨hstarted, hcount⟩ := rleStep_goes_on hr
  have hqe := qe_of_bounded hq
  obtain ⟨ds, hds, hsum⟩ := hc.durations
  exact
    { hc with
      idxRange := Nat.succ_le_succ hi
      qeLow := hq.1.trans_eq hqe.symm
      qeHigh := hqe.trans_le hq.2
      started := by simp [hstarted]
      runs := by
        have := hc.runs
        simp only [sampleWrites_segK, sampleWrites_rleCount, sampleWrites_smpIdx, hcount, rle_count]
        omega
      durations := by
        refine ⟨ds, segReadAll_of_eq hds rfl rfl, ?_⟩
        simp only [sampleWrites_params, sampleWrites_rleCount, sampleWrites_smpIdx, hcount, rle_count,
          Nat.mul_succ]
        omega }

/-- The run ended: its segment takes over its ticks, and the new run holds one sample (R95). -/
theorem appendSeg_sampleWrites_computeInv {s : State} {q : Int} {c : Bool} {n d : U24} {r : RleRegs}
    (h : s.BaseInv) (hc : s.ComputeInv) (hi : s.smpIdx ≤ s.smpN.toNat)
    (hq : -Config.one ≤ q ∧ q ≤ Config.one) (hr : rleStep s.rle c = some (some n, r))
    (hd : lc s.params.tSwitch n = some d) : (appendSeg d (sampleWrites q r s)).ComputeInv := by
  obtain ⟨hopen, rfl, hstarted, hone⟩ := rleStep_ends hr
  have hpos : 1 ≤ s.rleCount.toNat := h.rleRun hopen
  have hcost : d.toNat + s.params.tSwitch.toNat = s.params.tSwitch.toNat * s.rleCount.toNat :=
    lc_add_switch hd hpos
  have hqe := qe_of_bounded hq
  obtain ⟨ds, hds, hsum⟩ := hc.durations
  have hroom : s.segK < s.params.maxSeg := segK_lt_maxSeg h hc hopen
  have hall : segReadAll (appendSeg d (sampleWrites q r s)) (s.segK + 1) = .ok (ds ++ [d]) :=
    segReadAll_appendSeg (s := sampleWrites q r s) (segReadAll_of_eq hds rfl rfl) hroom
  exact
    { hc with
      idxRange := Nat.succ_le_succ hi
      qeLow := hq.1.trans_eq hqe.symm
      qeHigh := hqe.trans_le hq.2
      started := by simp [appendSeg, hstarted]
      runs := by
        have := hc.runs
        simp only [appendSeg, sampleWrites_segK, sampleWrites_rleCount, sampleWrites_smpIdx, hone]
        omega
      durations := by
        refine ⟨ds ++ [d], hall, ?_⟩
        simp only [appendSeg, sampleWrites_params, sampleWrites_rleCount, sampleWrites_smpIdx, hone,
          totalSum_append, hcost, Nat.mul_succ]
        omega }

theorem sampleStep_inv {s t : State} (h : s.Inv) (hp : s.phase = .compute)
    (hi : s.smpIdx ≤ s.smpN.toNat) (ht : sampleStep s = .next t) : t.Inv := by
  have hc := h.compute hp
  obtain ⟨x, c, q, e, r, -, -, hq, hr, hnone, hsome⟩ := sampleStep_of_inv h.base hc hi
  have hbase : (sampleWrites q r s).BaseInv :=
    sampleWrites_baseInv h.base (rleStep_consistent hr) (hi.trans h.base.smpNRange)
  cases e with
  | none =>
    cases (hnone rfl).symm.trans ht
    exact inv_of_compute hbase hp (sampleWrites_computeInv hc hi hq hr)
  | some n =>
    obtain ⟨d, hd, hstep⟩ := hsome n rfl
    cases hstep.symm.trans ht
    have hcompute := appendSeg_sampleWrites_computeInv h.base hc hi hq hr hd
    have hroom : s.segK < s.params.maxSeg := segK_lt_maxSeg h.base hc (rleStep_ends hr).1
    exact inv_of_compute (appendSeg_baseInv hbase hroom) hp hcompute

/-! ### COMPUTE: the flush step (R96, R97) -/

/-- TOTAL = P_TSWITCH · (N + 1) fits 24 bits for every N that is accepted (R97, R105). -/
theorem totalTicks_lt {s : State} (h : s.BaseInv) :
    s.params.tSwitch.toNat * (s.smpN.toNat + 1) < 2 ^ 24 := by
  have hmax := maxN_le h.params
  have hN := h.smpNRange
  have hprod : s.params.tSwitch.toNat * (s.smpN.toNat + 1) ≤ 255 * 65536 :=
    Nat.mul_le_mul (by omega) (by omega)
  omega

/-- The writes of the flush step, with `total` formed (R96, R97). -/
def flushWrites (d : U24) (total : Nat) (s : State) : State :=
  { appendSeg d (setRle RleRegs.clear s) with
    total := BitVec.ofNat 24 total
    hndIdx := s.segK + 1
    phase := .handoff }

/-- After the last sample a run is open (R95). -/
theorem rleStarted_at_flush {s : State} (hc : s.ComputeInv) (hi : s.smpIdx = s.smpN.toNat + 1) :
    s.rleStarted = true := by
  simp [hc.started, hi]

/-- In the states of a run the flush step does not fault and does not stop: it appends the duration of
the last run, and the segments then cost P_TSWITCH for each of the N + 1 samples (R96, R97, R105). -/
theorem flushStep_of_inv {s : State} (h : s.BaseInv) (hc : s.ComputeInv)
    (hi : s.smpIdx = s.smpN.toNat + 1) :
    ∃ (d : U24) (ds : List U24), lc s.params.tSwitch s.rleCount = some d ∧
      segReadAll s s.segK = .ok ds ∧
      totalSum s.params.tSwitch (ds ++ [d]) = s.params.tSwitch.toNat * (s.smpN.toNat + 1) ∧
      flushStep s = .next (flushWrites d (totalSum s.params.tSwitch (ds ++ [d])) s) := by
  have hopen := rleStarted_at_flush hc hi
  have hroom := segK_lt_maxSeg h hc hopen
  obtain ⟨d, hd⟩ := lc_total (t := s.params.tSwitch) (rleCount_le h hc)
  obtain ⟨ds, hds, hsum⟩ := hc.durations
  have htotal : totalSum s.params.tSwitch (ds ++ [d]) =
      s.params.tSwitch.toNat * (s.smpN.toNat + 1) := by
    rw [totalSum_append, lc_add_switch hd (h.rleRun hopen), hsum, hi]
  have hend : rleEnd s.rle = some (s.rleCount, RleRegs.clear) := rleEnd_some_iff.2 ⟨hopen, rfl, rfl⟩
  have happend : segAppend d (setRle RleRegs.clear s) = .ok (appendSeg d (setRle RleRegs.clear s)) :=
    segAppend_eq (s := setRle RleRegs.clear s) hroom
  have hall := segReadAll_appendSeg_setRle (d := d) RleRegs.clear hds hroom
  have hfits : ¬ maxU24 < totalSum s.params.tSwitch (ds ++ [d]) := by
    have := totalTicks_lt h
    rw [htotal, maxU24]
    omega
  refine ⟨d, ds, hd, hds, htotal, ?_⟩
  have hsegK : (appendSeg d (setRle RleRegs.clear s)).segK = s.segK + 1 := rfl
  simp only [flushStep, hend, hd, happend, hsegK, hall, if_neg hfits]
  rfl

/-- TOTAL is formed and nothing is handed over yet (R96, R97). -/
theorem flushWrites_handoffInv {s : State} {d : U24} {ds : List U24} (h : s.BaseInv)
    (hc : s.ComputeInv) (hi : s.smpIdx = s.smpN.toNat + 1) (hds : segReadAll s s.segK = .ok ds)
    (htotal : totalSum s.params.tSwitch (ds ++ [d]) =
      s.params.tSwitch.toNat * (s.smpN.toNat + 1)) :
    (flushWrites d (totalSum s.params.tSwitch (ds ++ [d])) s).HandoffInv := by
  have hopen := rleStarted_at_flush hc hi
  have hroom := segK_lt_maxSeg h hc hopen
  have hall := segReadAll_appendSeg_setRle (d := d) RleRegs.clear hds hroom
  have hticks : (BitVec.ofNat 24 (totalSum s.params.tSwitch (ds ++ [d]))).toNat =
      totalSum s.params.tSwitch (ds ++ [d]) := by
    rw [BitVec.toNat_ofNat, Nat.mod_eq_of_lt (htotal.trans_lt (totalTicks_lt h))]
  have hnone : s.execH = ((ds ++ [d]).drop (s.segK + 1)).reverse := by
    rw [List.drop_of_length_le (segReadAll_length hall).le]
    exact hc.noWords
  have hbound : s.segK + 1 ≤ s.smpN.toNat + 1 := by
    have hruns := hc.runs
    have hcount := h.rleRun hopen
    omega
  exact
    { nPos := hc.nPos
      idx := hi
      rleDone := rfl
      segKPos := Nat.succ_pos _
      segKBound := hbound
      hndRange := Nat.le_refl _
      notStarted := hc.notStarted
      noTicks := hc.noTicks
      total := hticks.trans htotal
      durations := ⟨ds ++ [d], segReadAll_of_eq hall rfl rfl, hticks.symm, hnone⟩ }

theorem flushStep_inv {s t : State} (h : s.Inv) (hp : s.phase = .compute)
    (hi : s.smpIdx = s.smpN.toNat + 1) (ht : flushStep s = .next t) : t.Inv := by
  have hc := h.compute hp
  have hroom := segK_lt_maxSeg h.base hc (rleStarted_at_flush hc hi)
  have hbase : { s with phase := .handoff }.BaseInv := phase_baseInv h.base (by simp [hp]) nofun
  obtain ⟨d, ds, -, hds, htotal, hstep⟩ := flushStep_of_inv h.base hc hi
  cases hstep.symm.trans ht
  have happended := appendSeg_baseInv (d := d) (setRle_baseInv hbase clear_consistent) hroom
  exact inv_of_handoff { happended with hndIdxRange := hroom } rfl
    (flushWrites_handoffInv h.base hc hi hds htotal)

theorem computeStep_inv {s t : State} (h : s.Inv) (hp : s.phase = .compute)
    (ht : computeStep s = .next t) : t.Inv := by
  unfold computeStep at ht
  split at ht
  · exact sampleStep_inv h hp ‹_› ht
  · split at ht
    · exact flushStep_inv h hp ‹_› ht
    · cases ht
      exact h

/-! ### HANDOFF (R98, R99) -/

/-- In the states of HANDOFF the handoff step finds the entry it delivers (R38, R98). -/
theorem handoffStep_of_inv {s : State} (h : s.HandoffInv) (hpos : 0 < s.hndIdx) :
    ∃ (ds : List U24) (w : U24), segReadAll s s.segK = .ok ds ∧
      totalSum s.params.tSwitch ds = s.total.toNat ∧
      s.execH ++ [w] = (ds.drop (s.hndIdx - 1)).reverse ∧ segRead (s.hndIdx - 1) s = .ok w ∧
      handoffStep s = .next (execPush w { s with hndIdx := s.hndIdx - 1 }) := by
  have hrange := h.hndRange
  obtain ⟨ds, hds, hsum, hwords⟩ := h.durations
  obtain ⟨w, hw, hread⟩ := segReadAll_entry hds (i := s.hndIdx - 1) (by omega)
  obtain ⟨hlt, rfl⟩ := List.getElem?_eq_some_iff.1 hw
  refine ⟨ds, _, hds, hsum, ?_, hread, by simp only [handoffStep, hread]⟩
  rw [hwords, List.drop_eq_getElem_cons hlt, List.reverse_cons, Nat.sub_add_cancel hpos]

theorem handoffStep_inv {s t : State} (h : s.Inv) (hp : s.phase = .handoff) (hpos : 0 < s.hndIdx)
    (ht : handoffStep s = .next t) : t.Inv := by
  have hh := h.handoff hp
  obtain ⟨ds, w, hds, hsum, hwords, -, hstep⟩ := handoffStep_of_inv hh hpos
  cases hstep.symm.trans ht
  exact inv_of_handoff
    { h.base with hndIdxRange := (Nat.sub_le _ _).trans h.base.hndIdxRange } hp
    { hh with
      hndRange := (Nat.sub_le _ _).trans hh.hndRange
      durations := ⟨ds, segReadAll_of_eq hds rfl rfl, hsum, hwords⟩ }

/-- The executor is started with TOTAL and with every entry delivered (R99). -/
theorem launchStep_inv {s t : State} (h : s.Inv) (hp : s.phase = .handoff) (hzero : s.hndIdx = 0)
    (ht : launchStep s = .next t) : t.Inv := by
  cases ht
  have hh := h.handoff hp
  obtain ⟨ds, hds, hsum, hwords⟩ := hh.durations
  rw [hzero, List.drop_zero] at hwords
  have hbase : { s with phase := .observe }.BaseInv := phase_baseInv h.base (by simp [hp]) nofun
  exact inv_of_observe { hbase with } rfl
    { hh with
      handedOff := hzero
      started := rfl
      duration := rfl
      ticksRange := by
        show s.ticks.toNat ≤ s.total.toNat
        rw [hh.noTicks]
        exact Nat.zero_le _
      durations := ⟨ds, segReadAll_of_eq hds rfl rfl, hsum, hwords⟩ }

/-- Every step of the CORE's own, by PHASE (R42). -/
theorem coreStep_inv {s t : State} (h : s.Inv) (ht : coreStep s = .next t) : t.Inv := by
  cases hp : s.phase with
  | idle => exact commandStep_inv h (coreStep_accepts (.inl hp) ▸ ht)
  | faulted => exact commandStep_inv h (coreStep_accepts (.inr hp) ▸ ht)
  | compute => exact computeStep_inv h hp (coreStep_compute hp ▸ ht)
  | handoff =>
    rw [coreStep_handoff hp] at ht
    split at ht
    · exact handoffStep_inv h hp ‹_› ht
    · exact launchStep_inv h hp (by omega) ht
  | observe =>
    rw [coreStep_observe hp] at ht
    cases ht
    exact h

/-! ### The executor's moves (R100 to R102) -/

/-- Everything an offered pin state can do (R100). -/
theorem pinStep_cases {b : Bool} {s t : State} (h : pinStep b s = .next t) :
    s.phase ≠ .observe ∧ t = s ∨
    s.phase = .observe ∧ (s.ticks = s.total ∧ t = enterFault .execProtocol pipeOp s ∨
      s.ticks ≠ s.total ∧ s.ticks.toNat + 1 ≤ maxU24 ∧
        t = { emit 0x40 (driveVal (pm b.toNat)) s with ticks := s.ticks + 1 }) := by
  cases hp : s.phase <;> simp only [pinStep, hp] at h
  case observe =>
    split at h
    · exact .inr ⟨rfl, .inl ⟨‹_›, (raise_next_iff ..).1 h⟩⟩
    · split at h <;> cases h
      exact .inr ⟨rfl, .inr ⟨‹_›, not_lt.1 ‹_›, rfl⟩⟩
  all_goals
    cases h
    exact .inl ⟨nofun, rfl⟩

/-- Everything an offered termination can do (R101). -/
theorem doneStep_cases {s t : State} (h : doneStep s = .next t) :
    s.phase ≠ .observe ∧ t = s ∨
    s.phase = .observe ∧ (s.ticks ≠ s.total ∧ t = enterFault .execProtocol pipeOp s ∨
      s.ticks = s.total ∧
        t = { setQe 0 (emit 0x41 s.total s) with execStarted := false, phase := .idle }) := by
  cases hp : s.phase <;> simp only [doneStep, hp] at h
  case observe =>
    split at h
    · exact .inr ⟨rfl, .inl ⟨‹_›, (raise_next_iff ..).1 h⟩⟩
    · cases h
      exact .inr ⟨rfl, .inr ⟨not_not.1 ‹_›, rfl⟩⟩
  all_goals
    cases h
    exact .inl ⟨nofun, rfl⟩

/-- Everything an executor error can do (R102). -/
theorem execErrorStep_cases {s t : State} (h : execErrorStep s = .next t) :
    s.phase ≠ .handoff ∧ s.phase ≠ .observe ∧ t = s ∨
    (s.phase = .handoff ∨ s.phase = .observe) ∧ t = enterFault .execError pipeOp s := by
  cases hp : s.phase <;> simp only [execErrorStep, hp] at h
  case handoff | observe => exact .inr ⟨by simp, (raise_next_iff ..).1 h⟩
  all_goals
    cases h
    exact .inl ⟨nofun, nofun, rfl⟩

/-- A pin state counted below TOTAL is counted up to TOTAL at most (R100). -/
theorem pinStep_inv {b : Bool} {s t : State} (h : s.Inv) (ht : pinStep b s = .next t) : t.Inv := by
  rcases pinStep_cases ht with ⟨-, rfl⟩ | ⟨hp, ⟨-, rfl⟩ | ⟨hne, -, rfl⟩⟩
  · exact h
  · exact enterFault_inv h.base nofun rfl
  · have ho := h.observe hp
    have hlt : s.ticks.toNat < s.total.toNat :=
      lt_of_le_of_ne ho.ticksRange fun heq => hne (BitVec.eq_of_toNat_eq heq)
    have hsucc : (s.ticks + 1).toNat = s.ticks.toNat + 1 := by bv_omega
    obtain ⟨ds, hds, hwords⟩ := ho.durations
    exact inv_of_observe { h.base with } hp
      { ho with
        ticksRange := hsucc.trans_le hlt
        durations := ⟨ds, segReadAll_of_eq hds rfl rfl, hwords⟩ }

theorem doneStep_inv {s t : State} (h : s.Inv) (ht : doneStep s = .next t) : t.Inv := by
  rcases doneStep_cases ht with ⟨-, rfl⟩ | ⟨hp, ⟨-, rfl⟩ | ⟨-, rfl⟩⟩
  · exact h
  · exact enterFault_inv h.base nofun rfl
  · have hbase : { s with phase := .idle }.BaseInv := phase_baseInv h.base (by simp [hp]) nofun
    exact inv_of_idle { hbase with } rfl rfl

theorem execErrorStep_inv {s t : State} (h : s.Inv) (ht : execErrorStep s = .next t) : t.Inv := by
  rcases execErrorStep_cases ht with ⟨-, -, rfl⟩ | ⟨-, rfl⟩
  · exact h
  · exact enterFault_inv h.base nofun rfl

/-! ### Every step -/

theorem eventStep_inv {s t : State} (e : Event) (h : s.Inv) (ht : eventStep e s = .next t) :
    t.Inv := by
  cases e with
  | quiet => exact coreStep_inv h ht
  | hostWrite w | hostTake =>
    cases ht
    exact inv_of_streams h rfl
  | rst =>
    cases ht
    exact rst_inv h.base.params
  | pin b => exact pinStep_inv h ht
  | done => exact doneStep_inv h ht
  | execError => exact execErrorStep_inv h ht

/-- Settles O53: the step is the CORE's own or the first pending move's, and each keeps the invariant. -/
theorem stepKeepsTheInvariant : Obligations.StepKeepsTheInvariant := by
  intro s t h ht
  cases henv : s.env with
  | nil =>
    rw [step_of_env_nil henv] at ht
    exact coreStep_inv h ht
  | cons e es =>
    rw [step_of_env_cons henv] at ht
    exact eventStep_inv e (inv_of_streams h rfl) ht

end Sys2Proof.Machine

/-! What a command can do (R42, R110, R136): it goes on, it writes the registers of its own block or
enters FAULTED, and it appends at most one response word (`Performs`). From this follow the frames of
all commands, that no command stops the model, and that every step appends at most one response word. -/

namespace Sys2Proof.Machine

/-! ### The registers a command writes -/

/-- The registers that a command can write, apart from RSP: none of them, its own block's, or those of
fault entry. -/
inductive RegisterWrites (i : Instr) (s : State) : State → Prop
  /-- A pure command, or one that is not performed (R42, R110). -/
  | none : RegisterWrites i s s
  /-- The modulator's commands write QE (R72, R73). -/
  | qe (q : Int) (hi : i = .dsmClr ∨ ∃ x, i = .dsmIn x) : RegisterWrites i s (setQe q s)
  /-- The run-length encoder's commands write its registers (R79 to R81). -/
  | rle (r : RleRegs) (hi : i = .rleClr ∨ (∃ c, i = .rleIn c) ∨ i = .rleEnd) :
      RegisterWrites i s (setRle r s)
  /-- PIPE.RUN starts a run (R94). -/
  | run (n : U24) (hi : i = .pipeRun n) : RegisterWrites i s (startRun n s)
  /-- Fault entry from IDLE (R118). -/
  | fault (c : Cause) (op : Byte) (hp : s.phase = .idle) :
      RegisterWrites i s { s with cause := c, fop := op, phase := .faulted }

/-- R42's commands that write no register: NOP, LC.IN, PM.IN and the four reads. -/
def IsPure (i : Instr) : Prop :=
  i = .nop ∨ (∃ n, i = .lcIn n) ∨ (∃ x, i = .pmIn x) ∨ i = .statRd ∨ i = .cfgRd ∨ i = .qeRd ∨
    i = .cntRd

namespace RegisterWrites

variable {i : Instr} {s u : State}

/-- No register write touches the parameters, the streams, the pending moves or SEG_BUF. -/
theorem keeps_streams (h : RegisterWrites i s u) :
    u.params = s.params ∧ u.cmd = s.cmd ∧ u.env = s.env ∧ u.segBuf = s.segBuf ∧ u.rsp = s.rsp := by
  cases h <;> exact ⟨rfl, rfl, rfl, rfl, rfl⟩

/-- Only PIPE.RUN writes the pipeline's registers (R136). -/
theorem keeps_pipeline (h : RegisterWrites i s u) (hi : ∀ n, i ≠ .pipeRun n) :
    u.smpN = s.smpN ∧ u.smpIdx = s.smpIdx ∧ u.segK = s.segK ∧ u.total = s.total ∧
    u.hndIdx = s.hndIdx ∧ u.ticks = s.ticks ∧ u.execH = s.execH ∧
    u.execStarted = s.execStarted ∧ u.execDur = s.execDur := by
  cases h with
  | run n hn => exact absurd hn (hi n)
  | none | qe | rle | fault => exact ⟨rfl, rfl, rfl, rfl, rfl, rfl, rfl, rfl, rfl⟩

theorem keeps_qe (h : RegisterWrites i s u) (hin : ∀ x, i ≠ .dsmIn x) (hclr : i ≠ .dsmClr)
    (hrun : ∀ n, i ≠ .pipeRun n) : u.qe = s.qe := by
  cases h with
  | qe q hi => exact (hi.elim hclr fun ⟨x, hx⟩ => hin x hx).elim
  | run n hn => exact absurd hn (hrun n)
  | none | rle | fault => rfl

theorem keeps_rle (h : RegisterWrites i s u) (hin : ∀ c, i ≠ .rleIn c) (hclr : i ≠ .rleClr)
    (hend : i ≠ .rleEnd) (hrun : ∀ n, i ≠ .pipeRun n) : u.rle = s.rle := by
  cases h with
  | rle r hi => exact (hi.elim hclr fun h => h.elim (fun ⟨c, hc⟩ => hin c hc) hend).elim
  | run n hn => exact absurd hn (hrun n)
  | none | qe | fault => rfl

/-- Without fault entry, CAUSE and FOP stay, and PHASE too but for PIPE.RUN (R118). -/
theorem keeps_fault_record (h : RegisterWrites i s u) (hok : s.phase = .idle → u.phase ≠ .faulted) :
    u.cause = s.cause ∧ u.fop = s.fop ∧ ((∀ n, i ≠ .pipeRun n) → u.phase = s.phase) := by
  cases h with
  | fault c op hp => exact absurd rfl (hok hp)
  | run n hn => exact ⟨rfl, rfl, fun hi => absurd hn (hi n)⟩
  | none | qe | rle => exact ⟨rfl, rfl, fun _ => rfl⟩

/-- A pure command that does not fault writes no register (R42). -/
theorem eq_of_isPure (h : RegisterWrites i s u) (hok : s.phase = .idle → u.phase ≠ .faulted)
    (hi : IsPure i) : u = s := by
  cases h with
  | none => rfl
  | qe q hq => rcases hq with rfl | ⟨x, rfl⟩ <;> simp [IsPure] at hi
  | rle r hr => rcases hr with rfl | ⟨c, rfl⟩ | rfl <;> simp [IsPure] at hi
  | run n hn => simp [IsPure, hn] at hi
  | fault c op hp => exact absurd rfl (hok hp)

end RegisterWrites

/-! ### The answer of a command -/

/-- `s` with the words `ws` appended to RSP. -/
def respond (ws : List Word) (s : State) : State := { s with rsp := s.rsp ++ ws }

/-- The command goes on from `s` with the answer `o`: its register writes, then at most one response
word, and none for NOP (R45, R111). -/
def Performs (i : Instr) (s : State) (o : Outcome) : Prop :=
  ∃ (u : State) (ws : List Word), o = .next (respond ws u) ∧ RegisterWrites i s u ∧
    (ws = [] ∨ i ≠ .nop ∧ ∃ w, ws = [w])

section
variable {i : Instr} {s u : State}

theorem performs_silent (h : RegisterWrites i s u) : Performs i s (.next u) :=
  ⟨u, [], by simp [respond], h, .inl rfl⟩

theorem performs_emit (hi : i ≠ .nop) (h : RegisterWrites i s u) (tag : Byte) (val : U24) :
    Performs i s (.next (emit tag val u)) :=
  ⟨u, [tag ++ val], rfl, h, .inr ⟨hi, _, rfl⟩⟩

theorem performs_raise (hi : i ≠ .nop) (hp : s.phase = .idle) (c : Cause) (op : Byte) :
    Performs i s (raise c op s) :=
  performs_emit hi (.fault c op hp) _ _

/-- Outside IDLE a command answers the FAULT word or nothing (R110). -/
theorem whenIdle_performs {body : State → Outcome} (hi : i ≠ .nop)
    (h : s.phase = .idle → Performs i s (body s)) : Performs i s (whenIdle body s) := by
  cases hp : s.phase <;> simp only [whenIdle, hp]
  case idle => exact h hp
  case faulted => exact performs_emit hi .none _ _
  all_goals exact performs_silent .none

theorem whenIdleOrFaulted_performs {body : State → Outcome} (h : Performs i s (body s)) :
    Performs i s (whenIdleOrFaulted body s) := by
  cases hp : s.phase <;> simp only [whenIdleOrFaulted, hp]
  case idle | faulted => exact h
  all_goals exact performs_silent .none

end

theorem execDsmIn_performs (x : Sample) (s : State) : Performs (.dsmIn x) s (execDsmIn x s) :=
  whenIdle_performs (by nofun) fun hp => by
    rcases dsmStep s.qe.toInt (sampleOperand x) with _ | ⟨c, q⟩
    · exact performs_raise (by nofun) hp _ _
    · exact performs_emit (by nofun) (.qe q (.inr ⟨x, rfl⟩)) _ _

theorem execRleIn_performs (c : Bool) (s : State) : Performs (.rleIn c) s (execRleIn c s) :=
  whenIdle_performs (by nofun) fun hp => by
    have hi : Instr.rleIn c = .rleClr ∨ (∃ c', Instr.rleIn c = .rleIn c') ∨ Instr.rleIn c = .rleEnd :=
      .inr (.inl ⟨c, rfl⟩)
    rcases rleStep s.rle c with _ | ⟨_ | n, r⟩
    · exact performs_raise (by nofun) hp _ _
    · exact performs_silent (.rle r hi)
    · exact performs_emit (by nofun) (.rle r hi) _ _

theorem execRleEnd_performs (s : State) : Performs .rleEnd s (execRleEnd s) :=
  whenIdle_performs (by nofun) fun hp => by
    rcases rleEnd s.rle with _ | ⟨n, r⟩
    · exact performs_raise (by nofun) hp _ _
    · exact performs_emit (by nofun) (.rle r (.inr (.inr rfl))) _ _

theorem execLcIn_performs (n : U24) (s : State) : Performs (.lcIn n) s (execLcIn n s) :=
  whenIdle_performs (by nofun) fun hp => by
    cases lc s.params.tSwitch n with
    | none => exact performs_raise (by nofun) hp _ _
    | some d => exact performs_emit (by nofun) .none _ _

theorem execPipeRun_performs (n : U24) (s : State) : Performs (.pipeRun n) s (execPipeRun n s) :=
  whenIdle_performs (by nofun) fun hp => by
    split
    · exact performs_raise (by nofun) hp _ _
    · split
      · exact performs_raise (by nofun) hp _ _
      · exact performs_silent (.run n rfl)

/-- Everything a command can do, from every state; it never stops the model. -/
theorem exec_performs (i : Instr) (s : State) : Performs i s (exec i s) := by
  cases i with
  | nop => exact whenIdleOrFaulted_performs (performs_silent .none)
  | statRd | cfgRd | qeRd | cntRd =>
    simp only [exec, execStatRd, execCfgRd, execQeRd, execCntRd]
    exact whenIdleOrFaulted_performs (performs_emit (by nofun) .none _ _)
  | dsmClr =>
    simp only [exec, execDsmClr]
    exact whenIdle_performs (by nofun) fun _ => performs_silent (.qe 0 (.inl rfl))
  | rleClr =>
    simp only [exec, execRleClr]
    exact whenIdle_performs (by nofun) fun _ => performs_silent (.rle _ (.inl rfl))
  | pmIn x =>
    simp only [exec, execPmIn]
    exact whenIdle_performs (by nofun) fun _ => performs_emit (by nofun) .none _ _
  | dsmIn x => exact execDsmIn_performs x s
  | rleIn c => exact execRleIn_performs c s
  | rleEnd => exact execRleEnd_performs s
  | lcIn n => exact execLcIn_performs n s
  | pipeRun n => exact execPipeRun_performs n s

/-- Settles O57: a response word changes RSP only, so each clause is the one of the register writes. -/
theorem commandFrames : Obligations.CommandFrames := by
  intro i s t h
  have hexec : Performs i s (.next t) := h ▸ exec_performs i s
  obtain ⟨u, ws, ho, hu, hws⟩ := hexec
  cases ho
  obtain ⟨hparams, hcmd, henv, hseg, hrsp⟩ := hu.keeps_streams
  refine ⟨hparams, hcmd, henv, hseg, ?_, hu.keeps_pipeline, hu.keeps_qe, hu.keeps_rle, fun hok => ?_⟩
  · rcases hws with rfl | ⟨hi, w, rfl⟩
    · exact .inl (by simp [respond, hrsp])
    · exact .inr ⟨hi, w, by simp [respond, hrsp]⟩
  · obtain ⟨hcause, hfop, hphase⟩ := hu.keeps_fault_record hok
    refine ⟨hcause, hfop, hphase, fun hi => ?_⟩
    obtain rfl := hu.eq_of_isPure hok hi
    rfl

/-! ### No step from a state of the invariant stops the model -/

theorem exec_goesOn (i : Instr) (s : State) : goesOn (exec i s) := by
  obtain ⟨u, ws, h, -⟩ := exec_performs i s
  exact ⟨_, h⟩

theorem illegalWord_goesOn (w : Word) (s : State) : goesOn (illegalWord w s) := by
  unfold illegalWord
  cases hp : s.phase <;> simp only [whenIdle, hp] <;> exact ⟨_, rfl⟩

theorem runWord_goesOn (w : Word) (s : State) : goesOn (runWord w s) := by
  unfold runWord
  cases decode w with
  | ok i => exact exec_goesOn i s
  | error e => exact illegalWord_goesOn w s

/-- Taking a command never stops the model, in any state (R110). -/
theorem commandStep_goesOn (s : State) : goesOn (commandStep s) := by
  cases hcmd : s.cmd with
  | nil => exact ⟨s, commandStep_nil hcmd⟩
  | cons w ws =>
    rw [commandStep_cons hcmd]
    exact runWord_goesOn w _

/-- In the states of a run every sample is there and SEG_BUF has room (R37, R38, R95, R96). -/
theorem computeStep_goesOn {s : State} (h : s.BaseInv) (hc : s.ComputeInv) :
    goesOn (computeStep s) := by
  unfold computeStep
  split
  · obtain ⟨x, c, q, e, r, -, -, -, -, hnone, hsome⟩ := sampleStep_of_inv h hc ‹_›
    cases e with
    | none => exact ⟨_, hnone rfl⟩
    | some n =>
      obtain ⟨d, -, hstep⟩ := hsome n rfl
      exact ⟨_, hstep⟩
  · split
    · obtain ⟨d, ds, -, -, -, hstep⟩ := flushStep_of_inv h hc ‹_›
      exact ⟨_, hstep⟩
    · exact ⟨s, rfl⟩

/-- In HANDOFF every entry to deliver was written (R38, R98). -/
theorem handoff_goesOn {s : State} (h : s.HandoffInv) :
    goesOn (if 0 < s.hndIdx then handoffStep s else launchStep s) := by
  split
  · obtain ⟨ds, w, -, -, -, -, hstep⟩ := handoffStep_of_inv h ‹_›
    exact ⟨_, hstep⟩
  · exact ⟨_, rfl⟩

theorem coreStep_goesOn {s : State} (h : s.Inv) : goesOn (coreStep s) := by
  cases hp : s.phase with
  | idle =>
    rw [coreStep_accepts (.inl hp)]
    exact commandStep_goesOn s
  | faulted =>
    rw [coreStep_accepts (.inr hp)]
    exact commandStep_goesOn s
  | compute =>
    rw [coreStep_compute hp]
    exact computeStep_goesOn h.base (h.compute hp)
  | handoff =>
    rw [coreStep_handoff hp]
    exact handoff_goesOn (h.handoff hp)
  | observe => exact ⟨s, coreStep_observe hp⟩

/-- A pin state is counted only below TOTAL, so TICKS fits (R9, R100). -/
theorem pinStep_goesOn {s : State} (b : Bool) (h : s.Inv) : goesOn (pinStep b s) := by
  cases hp : s.phase <;> simp only [pinStep, hp]
  case observe =>
    split
    · exact ⟨_, rfl⟩
    · rename_i hne
      have hle := (h.observe hp).ticksRange
      have hfits : ¬ maxU24 < s.ticks.toNat + 1 := by
        rw [maxU24]
        bv_omega
      exact ⟨_, if_neg hfits⟩
  all_goals exact ⟨s, rfl⟩

theorem doneStep_goesOn (s : State) : goesOn (doneStep s) := by
  cases hp : s.phase <;> simp only [doneStep, hp]
  case observe => split <;> exact ⟨_, rfl⟩
  all_goals exact ⟨s, rfl⟩

theorem execErrorStep_goesOn (s : State) : goesOn (execErrorStep s) := by
  cases hp : s.phase <;> simp only [execErrorStep, hp] <;> exact ⟨_, rfl⟩

theorem eventStep_goesOn {s : State} (e : Event) (h : s.Inv) : goesOn (eventStep e s) := by
  cases e with
  | quiet => exact coreStep_goesOn h
  | hostWrite | hostTake | rst => exact ⟨_, rfl⟩
  | pin b => exact pinStep_goesOn b h
  | done => exact doneStep_goesOn s
  | execError => exact execErrorStep_goesOn s

/-- Settles O54: the invariant of each PHASE gives its step what it reads and room for what it writes. -/
theorem invariantStatesGoOn : Obligations.InvariantStatesGoOn := by
  intro s h
  cases henv : s.env with
  | nil =>
    rw [step_of_env_nil henv]
    exact coreStep_goesOn h
  | cons e es =>
    rw [step_of_env_cons henv]
    exact eventStep_goesOn e (inv_of_streams h rfl)

/-! ### The steps of a PIPE.RUN, each once -/

/-- Everything a sample step can answer, in any state (R95). -/
theorem sampleStep_cases {s t : State} (h : sampleStep s = .next t) :
    (∃ c, t = enterFault c pipeOp s) ∨ (∃ q r, t = sampleWrites q r s) ∨
      ∃ d q r, t = appendSeg d (sampleWrites q r s) := by
  unfold sampleStep at h
  split at h
  · cases h
  split at h
  · exact .inl ⟨_, (raise_next_iff ..).1 h⟩
  split at h
  · exact .inl ⟨_, (raise_next_iff ..).1 h⟩
  · cases h
    exact .inr (.inl ⟨_, _, rfl⟩)
  split at h
  · exact .inl ⟨_, (raise_next_iff ..).1 h⟩
  split at h
  · cases h
  · rename_i happend
    cases h
    exact .inr (.inr ⟨_, _, _, (segAppend_ok_iff.1 happend).2⟩)

/-- Everything a flush step can answer, in any state (R96, R97). -/
theorem flushStep_cases {s t : State} (h : flushStep s = .next t) :
    (∃ c, t = enterFault c pipeOp s) ∨ ∃ d total, t = flushWrites d total s := by
  unfold flushStep at h
  split at h
  · exact .inl ⟨_, (raise_next_iff ..).1 h⟩
  rename_i hend
  obtain ⟨-, -, rfl⟩ := rleEnd_some_iff.1 hend
  split at h
  · exact .inl ⟨_, (raise_next_iff ..).1 h⟩
  split at h
  · cases h
  rename_i happend
  obtain ⟨-, rfl⟩ := segAppend_ok_iff.1 happend
  split at h
  · cases h
  split at h
  · exact .inl ⟨_, (raise_next_iff ..).1 h⟩
  · cases h
    exact .inr ⟨_, _, rfl⟩

/-- A handoff step that goes on delivers a word (R98). -/
theorem handoffStep_cases {s t : State} (h : handoffStep s = .next t) :
    ∃ w, t = execPush w { s with hndIdx := s.hndIdx - 1 } := by
  unfold handoffStep at h
  split at h <;> cases h
  exact ⟨_, rfl⟩

/-! ### What every step leaves of RSP and of the parameters -/

/-- `t` has the parameters of `s` and at most one response word more (R45, R134). -/
structure Extends (s t : State) : Prop where
  params : t.params = s.params
  rsp : t.rsp = s.rsp ∨ ∃ w, t.rsp = s.rsp ++ [w]

section
variable {s t : State}

theorem extends_silent (hp : t.params = s.params) (hr : t.rsp = s.rsp) : Extends s t :=
  ⟨hp, .inl hr⟩

theorem extends_refl (s : State) : Extends s s := extends_silent rfl rfl

theorem extends_word {w : Word} (hp : t.params = s.params) (hr : t.rsp = s.rsp ++ [w]) :
    Extends s t :=
  ⟨hp, .inr ⟨w, hr⟩⟩

theorem extends_enterFault (c : Cause) (op : Byte) (s : State) : Extends s (enterFault c op s) :=
  extends_word rfl rfl

theorem exec_extends {i : Instr} (h : exec i s = .next t) : Extends s t := by
  obtain ⟨hparams, -, -, -, hrsp, -⟩ := commandFrames i s t h
  exact ⟨hparams, hrsp.imp id And.right⟩

theorem runWord_extends {w : Word} (h : runWord w s = .next t) : Extends s t := by
  unfold runWord at h
  cases hd : decode w <;> simp only [hd] at h
  case ok i => exact exec_extends h
  case error e =>
    rcases whenIdle_cases (body := raise .illegalCommand (opField w)) h with
      ⟨-, hb⟩ | ⟨-, rfl⟩ | ⟨-, rfl⟩
    · obtain rfl := (raise_next_iff ..).1 hb
      exact extends_enterFault _ _ s
    · exact extends_word rfl rfl
    · exact extends_refl _

theorem commandStep_extends (h : commandStep s = .next t) : Extends s t := by
  cases hcmd : s.cmd with
  | nil =>
    rw [commandStep_nil hcmd] at h
    cases h
    exact extends_refl s
  | cons w ws =>
    rw [commandStep_cons hcmd] at h
    obtain ⟨hparams, hrsp⟩ := runWord_extends h
    exact ⟨hparams, hrsp⟩

theorem computeStep_extends (h : computeStep s = .next t) : Extends s t := by
  unfold computeStep at h
  split at h
  · rcases sampleStep_cases h with ⟨c, rfl⟩ | ⟨q, r, rfl⟩ | ⟨d, q, r, rfl⟩
    · exact extends_enterFault c _ s
    · exact extends_silent rfl rfl
    · exact extends_silent rfl rfl
  · split at h
    · rcases flushStep_cases h with ⟨c, rfl⟩ | ⟨d, total, rfl⟩
      · exact extends_enterFault c _ s
      · exact extends_silent rfl rfl
    · cases h
      exact extends_refl s

theorem coreStep_extends (h : coreStep s = .next t) : Extends s t := by
  cases hp : s.phase with
  | idle => exact commandStep_extends (coreStep_accepts (.inl hp) ▸ h)
  | faulted => exact commandStep_extends (coreStep_accepts (.inr hp) ▸ h)
  | compute => exact computeStep_extends (coreStep_compute hp ▸ h)
  | handoff =>
    rw [coreStep_handoff hp] at h
    split at h
    · obtain ⟨w, rfl⟩ := handoffStep_cases h
      exact extends_silent rfl rfl
    · cases h
      exact extends_silent rfl rfl
  | observe =>
    rw [coreStep_observe hp] at h
    cases h
    exact extends_refl s

/-- Every outside move but a reset and a taken response (R45). -/
theorem eventStep_extends {e : Event} (hrst : e ≠ .rst) (htake : e ≠ .hostTake)
    (h : eventStep e s = .next t) : Extends s t := by
  cases e with
  | quiet => exact coreStep_extends h
  | hostWrite w =>
    cases h
    exact extends_silent rfl rfl
  | hostTake => exact absurd rfl htake
  | rst => exact absurd rfl hrst
  | pin b =>
    rcases pinStep_cases h with ⟨-, rfl⟩ | ⟨-, ⟨-, rfl⟩ | ⟨-, -, rfl⟩⟩
    · exact extends_refl _
    · exact extends_enterFault _ _ s
    · exact extends_word rfl rfl
  | done =>
    rcases doneStep_cases h with ⟨-, rfl⟩ | ⟨-, ⟨-, rfl⟩ | ⟨-, rfl⟩⟩
    · exact extends_refl _
    · exact extends_enterFault _ _ s
    · exact extends_word rfl rfl
  | execError =>
    rcases execErrorStep_cases h with ⟨-, -, rfl⟩ | ⟨-, rfl⟩
    · exact extends_refl _
    · exact extends_enterFault _ _ s

/-- A reset and a taken response keep the parameters too (R34, R134). -/
theorem eventStep_params (e : Event) (h : eventStep e s = .next t) : t.params = s.params := by
  by_cases hrst : e = .rst
  · subst hrst
    cases h
    rfl
  by_cases htake : e = .hostTake
  · subst htake
    cases h
    rfl
  · exact (eventStep_extends hrst htake h).params

theorem step_extends (h : step s = .next t) (hrst : s.env.head? ≠ some .rst)
    (htake : s.env.head? ≠ some .hostTake) : Extends s t := by
  cases henv : s.env with
  | nil => exact coreStep_extends (step_of_env_nil henv ▸ h)
  | cons e es =>
    rw [henv, List.head?_cons, ne_eq, Option.some.injEq] at hrst htake
    rw [step_of_env_cons henv] at h
    obtain ⟨hparams, hrsp⟩ := eventStep_extends hrst htake h
    exact ⟨hparams, hrsp⟩

theorem step_params (h : step s = .next t) : t.params = s.params := by
  cases henv : s.env with
  | nil => exact (coreStep_extends (step_of_env_nil henv ▸ h)).params
  | cons e es =>
    rw [step_of_env_cons henv] at h
    exact (eventStep_params e h).trans (withEnv_params es s)

end

/-- Settles O56: `step_extends` for the responses, and CONFIG is made of the parameters alone (R30). -/
theorem stepsAppendResponsesAndKeepParameters :
    Obligations.StepsAppendResponsesAndKeepParameters :=
  ⟨fun _ _ h hrst htake => (step_extends h hrst htake).rsp,
    fun _ _ h => ⟨step_params h, congrArg configWord (step_params h)⟩⟩

end Sys2Proof.Machine

/-! The decoder against the encoder (R51 to R59): the operand fields under their reserved bits, the
rows one by one, and the search of the rows, which finds the one row that matches. -/

namespace Sys2Proof

/-! ### The operand fields under their reserved bits (R53) -/

/-- A field whose upper bits are 0 is its lower bits, extended. -/
theorem zero_append_low {m k : Nat} {x : BitVec (m + k)}
    (h : x &&& (BitVec.allOnes m ++ 0#k) = 0#(m + k)) : 0#m ++ x.extractLsb' 0 k = x := by
  refine BitVec.eq_of_getLsbD_eq fun i hi => ?_
  have hbit := congrArg (BitVec.getLsbD · i) h
  simp only [BitVec.getLsbD_and, BitVec.getLsbD_append, BitVec.getLsbD_zero] at hbit ⊢
  split
  · simp [*]
  · rw [if_neg ‹_›, BitVec.getLsbD_allOnes, decide_eq_true (by omega), Bool.and_true] at hbit
    exact hbit.symm

/-- A format S operand sets no reserved bit (R55). -/
theorem sample_field_reserved (s : Sample) : ((0#8 ++ s : U24) &&& 0xFF0000) = 0 := by
  rw [show (0xFF0000 : U24) = BitVec.allOnes 8 ++ 0#16 from rfl, BitVec.and_append]
  simp

theorem sample_field_read (s : Sample) : (0#8 ++ s : U24).extractLsb' 0 16 = s :=
  BitVec.extractLsb'_append_eq_right

/-- With no reserved bit set, a format S field is its operand's (R53, R55). -/
theorem sample_field_of_reserved {arg : U24} (h : arg &&& 0xFF0000 = 0) :
    (0#8 ++ arg.extractLsb' 0 16 : U24) = arg :=
  zero_append_low (m := 8) (k := 16) h

/-- With no reserved bit set, a format B field is its symbol code (R53, R56). -/
theorem symbol_field_of_reserved {arg : U24} (h : arg &&& 0xFFFFFE = 0) :
    (0#23 ++ BitVec.ofBool (arg.getLsbD 0) : U24) = arg := by
  have hbit : arg.extractLsb' 0 1 = BitVec.ofBool (arg.getLsbD 0) := by
    ext i hi
    obtain rfl : i = 0 := by omega
    simp
  rw [← hbit]
  exact zero_append_low (m := 23) (k := 1) h

/-! ### Encoding, then decoding -/

/-- Settles O1: over the fields of a word, the OP selects the command's row and the operand is read
back from the bits it was laid out in. -/
theorem decodeOfEncodeIsTheCommand : Obligations.DecodeOfEncodeIsTheCommand := by
  intro i
  rw [encode, decode_fields]
  cases i with
  | nop | dsmClr | rleClr | rleEnd | statRd | cfgRd | qeRd | cntRd => rfl
  | dsmIn s =>
    rw [show (Instr.dsmIn s).op = 0x02 from rfl, if_neg (by simp), if_neg (by simp),
      if_pos ⟨rfl, sample_field_reserved s⟩]
    exact congrArg (fun x => Except.ok (Instr.dsmIn x)) (sample_field_read s)
  | rleIn c => cases c <;> rfl
  | lcIn n | pmIn n | pipeRun n => rfl

/-! ### The rows (R58, R59) -/

/-- Every mask covers the OP field. -/
theorem opField_mask : ∀ r ∈ rows, opField r.mask = 0xFF := by
  simp only [rows, List.forall_mem_cons]
  decide

/-- A pattern has no ARG bits. -/
theorem argField_pattern : ∀ r ∈ rows, argField r.pattern = 0 := by
  simp only [rows, List.forall_mem_cons]
  decide

/-- The ARG bits of a mask are the reserved bits of the OP's format (R53). -/
theorem formatOf_pattern :
    ∀ r ∈ rows, ∃ f, formatOf (opField r.pattern) = some f ∧ argField r.mask = f.reserved := by
  have h : ∀ r ∈ rows,
      (formatOf (opField r.pattern)).map Format.reserved = some (argField r.mask) := by
    simp only [rows, List.forall_mem_cons]
    decide
  intro r hr
  obtain ⟨f, hf, hmask⟩ := Option.map_eq_some_iff.1 (h r hr)
  exact ⟨f, hf, hmask.symm⟩

/-- Every assigned OP has a row (R58). -/
theorem exists_row_of_formatOf {op : Byte} {f : Format} (h : formatOf op = some f) :
    ∃ r ∈ rows, opField r.pattern = op := by
  have hall : ∀ op : Byte, formatOf op = none ∨ op ∈ rows.map (fun r => opField r.pattern) := by
    decide
  exact List.mem_map.1 ((hall op).resolve_left (by simp [h]))

/-- The OP values of the rows are distinct. -/
theorem rows_op_ne : rows.Pairwise (fun a b => opField a.pattern ≠ opField b.pattern) := by
  decide

section
variable {w : Word} {r : Row}

/-- A row matches by its OP and by the ARG bits of its mask. -/
theorem matches_iff (hr : r ∈ rows) :
    w &&& r.mask = r.pattern ↔
      opField w = opField r.pattern ∧ argField w &&& argField r.mask = 0 := by
  rw [← row_matches_iff, ← opField_mask r hr, ← argField_pattern r hr]
  simp only [← word_eq_fields]

/-- The command of a row has the row's OP. -/
theorem op_build (hr : r ∈ rows) (w : Word) : (r.build w).op = opField r.pattern := by
  revert r
  simp only [rows, List.forall_mem_cons]
  refine ⟨?_, ?_, ?_, ?_, ?_, ?_, ?_, ?_, ?_, ?_, ?_, ?_, ?_, nofun⟩ <;> rfl

/-- The command of a row has the ARG field of the word, if no reserved bit is set (R53 to R57). -/
theorem arg_build (hr : r ∈ rows) (h : argField w &&& argField r.mask = 0) :
    (r.build w).arg = argField w := by
  have hz : argField w &&& argField 0xFFFFFFFF = 0 → 0 = argField w := fun h => by
    rw [show argField 0xFFFFFFFF = BitVec.allOnes 24 from rfl, BitVec.and_allOnes] at h
    exact h.symm
  have hs : argField w &&& argField 0xFFFF0000 = 0 → 0#8 ++ w.extractLsb' 0 16 = argField w :=
    fun h => by
      have hlow : w.extractLsb' 0 16 = (argField w).extractLsb' 0 16 := by
        rw [argField, BitVec.extractLsb'_extractLsb'_of_le (by decide)]
      rw [hlow]
      exact sample_field_of_reserved h
  have hb : argField w &&& argField 0xFFFFFFFE = 0 →
      0#23 ++ BitVec.ofBool (w.getLsbD 0) = argField w := fun h => by
    have hlow : w.getLsbD 0 = (argField w).getLsbD 0 := by simp [argField]
    rw [hlow]
    exact symbol_field_of_reserved h
  revert r
  simp only [rows, List.forall_mem_cons]
  exact ⟨hz, hz, hs, hz, hb, hz, fun _ => rfl, fun _ => rfl, fun _ => rfl, hz, hz, hz, hz, nofun⟩

/-- A word of a row is the encoding of the command that the row builds. -/
theorem encode_build (hr : r ∈ rows) (h : w &&& r.mask = r.pattern) : encode (r.build w) = w := by
  obtain ⟨hop, harg⟩ := (matches_iff hr).1 h
  rw [encode, op_build hr, arg_build hr harg, ← hop, ← word_eq_fields]

/-! ### The search of the rows -/

/-- Two rows that a word matches are one row (R59). -/
theorem row_unique {r' : Row} (hr : r ∈ rows) (hr' : r' ∈ rows) (h : w &&& r.mask = r.pattern)
    (h' : w &&& r'.mask = r'.pattern) : r = r' := by
  have hop : opField r.pattern = opField r'.pattern :=
    ((matches_iff hr).1 h).1.symm.trans ((matches_iff hr').1 h').1
  have : Std.Symm fun a b : Row => opField a.pattern ≠ opField b.pattern := ⟨fun _ _ => Ne.symm⟩
  by_contra hne
  exact rows_op_ne.forall hr hr' hne hop

/-- The row that matches is the row that the search finds. -/
theorem decode_of_matches (hr : r ∈ rows) (h : w &&& r.mask = r.pattern) :
    decode w = .ok (r.build w) := by
  cases hfind : rows.find? (fun r => w &&& r.mask == r.pattern) with
  | none => exact absurd h (by simpa using List.find?_eq_none.1 hfind r hr)
  | some r' =>
    have hmem := List.mem_of_find?_eq_some hfind
    have hmatch : w &&& r'.mask = r'.pattern := by simpa using List.find?_some hfind
    rw [row_unique hr hmem h hmatch]
    simp only [decode, hfind]

/-- Without a row that matches, a word is ILLEGAL (R64). -/
theorem decode_of_not_matches (h : ∀ r ∈ rows, w &&& r.mask ≠ r.pattern) :
    ∃ e, decode w = .error e := by
  have hfind : rows.find? (fun r => w &&& r.mask == r.pattern) = none := by
    simpa [List.find?_eq_none] using h
  simp only [decode, hfind]
  split <;> exact ⟨_, rfl⟩

/-- A word that decodes has a row that matches and builds the command. -/
theorem row_of_decode {i : Instr} (h : decode w = .ok i) :
    ∃ r ∈ rows, w &&& r.mask = r.pattern ∧ r.build w = i := by
  by_cases hm : ∃ r ∈ rows, w &&& r.mask = r.pattern
  · obtain ⟨r, hr, hmatch⟩ := hm
    rw [decode_of_matches hr hmatch] at h
    exact ⟨r, hr, hmatch, Except.ok.inj h⟩
  · obtain ⟨e, he⟩ := decode_of_not_matches (w := w) (by simpa using hm)
    rw [he] at h
    cases h

/-- A word is legal exactly when a row matches: a mask has its format's reserved bits (R53, R64). -/
theorem wordWf_iff_matches : wordWf w = true ↔ ∃ r ∈ rows, w &&& r.mask = r.pattern := by
  have hwf : wordWf w = true ↔
      ∃ f, formatOf (opField w) = some f ∧ argField w &&& f.reserved = 0 := by
    unfold wordWf
    rw [← opField, ← argField]
    cases formatOf (opField w) <;> simp
  rw [hwf]
  constructor
  · rintro ⟨f, hf, hres⟩
    obtain ⟨r, hr, hop⟩ := exists_row_of_formatOf hf
    obtain ⟨f', hf', hmask⟩ := formatOf_pattern r hr
    obtain rfl : f = f' := Option.some.inj (hf.symm.trans (hop ▸ hf'))
    exact ⟨r, hr, (matches_iff hr).2 ⟨hop.symm, hmask ▸ hres⟩⟩
  · rintro ⟨r, hr, hmatch⟩
    obtain ⟨hop, harg⟩ := (matches_iff hr).1 hmatch
    obtain ⟨f, hf, hmask⟩ := formatOf_pattern r hr
    exact ⟨f, hop ▸ hf, hmask ▸ harg⟩

end

/-- Settles O2: a word is legal when a row matches, and the word is then the encoding of that row's
command. -/
theorem legalWordsAreExactlyTheEncodings : Obligations.LegalWordsAreExactlyTheEncodings := by
  refine fun w => ⟨wordWf_iff_matches.trans ⟨?_, ?_⟩, ?_⟩
  · rintro ⟨r, hr, hmatch⟩
    exact ⟨_, decode_of_matches hr hmatch⟩
  · rintro ⟨i, hi⟩
    obtain ⟨r, hr, hmatch, -⟩ := row_of_decode hi
    exact ⟨r, hr, hmatch⟩
  · intro i hi
    obtain ⟨r, hr, hmatch, rfl⟩ := row_of_decode hi
    exact encode_build hr hmatch

/-- Settles O3: the rows differ in OP, which every mask covers. -/
theorem rowsAreDisjointAndDecide : Obligations.RowsAreDisjointAndDecide := by
  refine ⟨rows_op_ne.imp_of_mem fun ha hb hne w ⟨hwa, hwb⟩ => ?_, ?_,
    fun w r hr => decode_of_matches hr, fun w => decode_of_not_matches⟩
  · exact hne (((matches_iff ha).1 hwa).1.symm.trans ((matches_iff hb).1 hwb).1)
  · simp only [rows, List.forall_mem_cons]
    decide

/-- Settles O4: each word is an encoding, or has an OP or a reserved bit that makes it ILLEGAL. -/
theorem knownWordsDecode : Obligations.KnownWordsDecode := by
  have henc := decodeOfEncodeIsTheCommand
  exact ⟨henc .nop, henc (.dsmIn 0xC000), henc (.rleIn true), henc (.lcIn 4), henc (.pmIn 0x800000),
    henc (.pipeRun 4095), henc .cntRd, by decide, by decide⟩

end Sys2Proof

/-! The response words (R60, R62, R63): each `emit` of the model under its own tag, and with that
every step. By the invariant a run that is emitted has a symbol, and a recorded fault has a cause. -/

namespace Sys2Proof.Machine

/-! ### The words, tag by tag -/

/-- R60 over the fields of a word. -/
theorem legalResponse_fields (tag : Byte) (val : U24) :
    legalResponse (tag ++ val) =
      if tag = 0x02 then val == 0 || val == 1
      else if tag = 0x11 || tag = 0x12 then val != 0
      else if tag = 0x30 || tag = 0x40 then val == 1 || val == 3
      else if tag = 0xFF then
        val.extractLsb' 16 8 == 0 && decide (1 ≤ val.extractLsb' 0 8) &&
          decide (val.extractLsb' 0 8 ≤ 9)
      else
        tag == 0x20 || tag == 0x41 || tag == 0xF0 || tag == 0xF1 || tag == 0xF2 || tag == 0xF3 := by
  have htag : respTag (tag ++ val) = tag := opField_append tag val
  have hval : respVal (tag ++ val) = val := argField_append tag val
  rw [legalResponse, htag, hval]

/-- LC.D, PIPE.DONE, STATUS, CONFIG, QE and COUNT carry any 24-bit value (R60). -/
theorem legalResponse_value {tag : Byte} (h : tag ∈ [0x20, 0x41, 0xF0, 0xF1, 0xF2, 0xF3])
    (val : U24) : legalResponse (tag ++ val) = true := by
  rw [legalResponse_fields]
  simp only [List.mem_cons, List.not_mem_nil, or_false] at h
  rcases h with rfl | rfl | rfl | rfl | rfl | rfl <;> rfl

/-- DSM.Y carries a symbol code (R60, R61). -/
theorem legalResponse_symbol (c : Bool) : legalResponse ((0x02 : Byte) ++ symVal c) = true := by
  cases c <;> rfl

/-- PM.D and PIPE.DRIVE carry a drive code that `pm` gives (R62, R90). -/
theorem legalResponse_drive {tag : Byte} (h : tag = 0x30 ∨ tag = 0x40) (x : Nat) :
    legalResponse (tag ++ driveVal (pm x)) = true := by
  have hpm : pm x = 1 ∨ pm x = -1 := by
    unfold pm
    split <;> simp
  rcases h with rfl | rfl <;> rcases hpm with hx | hx <;> rw [hx] <;> rfl

/-- RLE.RUN and RLE.LAST carry the count of a run, at least 1 (R60). -/
theorem legalResponse_run {tag : Byte} (h : tag = 0x11 ∨ tag = 0x12) {n : U24}
    (hn : 1 ≤ n.toNat) : legalResponse (tag ++ n) = true := by
  have hval : (n != 0) = true := by
    rw [bne_iff_ne]
    rintro rfl
    exact absurd hn (by decide)
  rw [legalResponse_fields]
  rcases h with rfl | rfl <;> exact hval

/-- A FAULT word carries a cause that can be recorded (R63, R116). -/
theorem legalResponse_fault {c : Cause} (hc : c ≠ .none) (op : Byte) :
    legalResponse ((0xFF : Byte) ++ faultVal c op) = true := by
  have hhigh : (faultVal c op).extractLsb' 16 8 = 0 := by
    rw [faultVal, BitVec.append_assoc]
    exact BitVec.extractLsb'_append_eq_left
  have hlow : (faultVal c op).extractLsb' 0 8 = c.code := BitVec.extractLsb'_append_eq_right
  have hcode : (decide (1 ≤ c.code) && decide (c.code ≤ 9)) = true := by
    revert hc
    cases c <;> decide
  rw [legalResponse_fields, hhigh, hlow]
  exact hcode

/-! ### Emitting a word -/

/-- Every word in RSP is one of R60. -/
def RspLegal (s : State) : Prop := ∀ w ∈ s.rsp, legalResponse w = true

section
variable {s t : State}

theorem emit_rspLegal {tag : Byte} {val : U24} (h : RspLegal s)
    (hw : legalResponse (tag ++ val) = true) : RspLegal (emit tag val s) := by
  intro w hmem
  rw [emit_rsp, List.mem_append, List.mem_singleton] at hmem
  rcases hmem with hmem | rfl
  · exact h w hmem
  · exact hw

theorem enterFault_rspLegal {c : Cause} {op : Byte} (h : RspLegal s) (hc : c ≠ .none) :
    RspLegal (enterFault c op s) :=
  emit_rspLegal (s := { s with cause := c, fop := op, phase := .faulted }) h
    (legalResponse_fault hc op)

theorem raise_rspLegal {c : Cause} {op : Byte} (h : RspLegal s) (ht : raise c op s = .next t)
    (hc : c ≠ .none) : RspLegal t := by
  obtain rfl := (raise_next_iff ..).1 ht
  exact enterFault_rspLegal h hc

/-- In FAULTED a cause is recorded, which the FAULT word repeats (R26, R110). -/
theorem whenIdle_rspLegal {body : State → Outcome} (hinv : s.Inv) (h : RspLegal s)
    (hbody : body s = .next t → RspLegal t) (ht : whenIdle body s = .next t) : RspLegal t := by
  rcases whenIdle_cases ht with ⟨-, hb⟩ | ⟨hp, rfl⟩ | ⟨-, rfl⟩
  · exact hbody hb
  · exact emit_rspLegal h (legalResponse_fault (hinv.base.causePhase.1 hp) _)
  · exact h

theorem whenIdleOrFaulted_rspLegal {body : State → Outcome} (h : RspLegal s)
    (hbody : body s = .next t → RspLegal t) (ht : whenIdleOrFaulted body s = .next t) :
    RspLegal t := by
  rcases whenIdleOrFaulted_cases ht with ⟨-, hb⟩ | ⟨-, rfl⟩
  · exact hbody hb
  · exact h

/-! ### The commands -/

theorem execDsmIn_rspLegal {x : Sample} (hinv : s.Inv) (h : RspLegal s)
    (ht : execDsmIn x s = .next t) : RspLegal t := by
  refine whenIdle_rspLegal hinv h (fun hb => ?_) ht
  rcases hd : dsmStep s.qe.toInt (sampleOperand x) with _ | ⟨c, q⟩ <;> simp only [hd] at hb
  · exact raise_rspLegal h hb nofun
  · cases hb
    exact emit_rspLegal h (legalResponse_symbol c)

/-- The run that a symbol ends has a symbol (R17, R80). -/
theorem execRleIn_rspLegal {c : Bool} (hinv : s.Inv) (h : RspLegal s)
    (ht : execRleIn c s = .next t) : RspLegal t := by
  refine whenIdle_rspLegal hinv h (fun hb => ?_) ht
  rcases hr : rleStep s.rle c with _ | ⟨_ | n, r⟩ <;> simp only [hr] at hb
  · exact raise_rspLegal h hb nofun
  · cases hb
    exact h
  · cases hb
    obtain ⟨hopen, rfl, -, -⟩ := rleStep_ends hr
    exact emit_rspLegal h (legalResponse_run (.inl rfl) (hinv.base.rleRun hopen))

/-- The last run has a symbol (R17, R81). -/
theorem execRleEnd_rspLegal (hinv : s.Inv) (h : RspLegal s) (ht : execRleEnd s = .next t) :
    RspLegal t := by
  refine whenIdle_rspLegal hinv h (fun hb => ?_) ht
  rcases hr : rleEnd s.rle with _ | ⟨n, r⟩ <;> simp only [hr] at hb
  · exact raise_rspLegal h hb nofun
  · cases hb
    obtain ⟨hopen, rfl, -⟩ := rleEnd_some_iff.1 hr
    exact emit_rspLegal h (legalResponse_run (.inr rfl) (hinv.base.rleRun hopen))

theorem execLcIn_rspLegal {n : U24} (hinv : s.Inv) (h : RspLegal s)
    (ht : execLcIn n s = .next t) : RspLegal t := by
  refine whenIdle_rspLegal hinv h (fun hb => ?_) ht
  cases hd : lc s.params.tSwitch n <;> simp only [hd] at hb
  · exact raise_rspLegal h hb nofun
  · cases hb
    exact emit_rspLegal h (legalResponse_value (by decide) _)

theorem execPipeRun_rspLegal {n : U24} (hinv : s.Inv) (h : RspLegal s)
    (ht : execPipeRun n s = .next t) : RspLegal t := by
  refine whenIdle_rspLegal hinv h (fun hb => ?_) ht
  split at hb
  · exact raise_rspLegal h hb nofun
  · split at hb
    · exact raise_rspLegal h hb nofun
    · cases hb
      exact h

theorem exec_rspLegal (i : Instr) (hinv : s.Inv) (h : RspLegal s) (ht : exec i s = .next t) :
    RspLegal t := by
  cases i with
  | nop => exact whenIdleOrFaulted_rspLegal h (fun hb => by cases hb; exact h) ht
  | statRd | cfgRd | qeRd | cntRd =>
    simp only [exec, execStatRd, execCfgRd, execQeRd, execCntRd] at ht
    refine whenIdleOrFaulted_rspLegal h (fun hb => ?_) ht
    cases hb
    exact emit_rspLegal h (legalResponse_value (by decide) _)
  | dsmClr | rleClr =>
    simp only [exec, execDsmClr, execRleClr] at ht
    exact whenIdle_rspLegal hinv h (fun hb => by cases hb; exact h) ht
  | pmIn x =>
    simp only [exec, execPmIn] at ht
    refine whenIdle_rspLegal hinv h (fun hb => ?_) ht
    cases hb
    exact emit_rspLegal h (legalResponse_drive (.inl rfl) _)
  | dsmIn x => exact execDsmIn_rspLegal hinv h ht
  | rleIn c => exact execRleIn_rspLegal hinv h ht
  | rleEnd => exact execRleEnd_rspLegal hinv h ht
  | lcIn n => exact execLcIn_rspLegal hinv h ht
  | pipeRun n => exact execPipeRun_rspLegal hinv h ht

theorem runWord_rspLegal {w : Word} (hinv : s.Inv) (h : RspLegal s) (ht : runWord w s = .next t) :
    RspLegal t := by
  unfold runWord at ht
  cases hd : decode w <;> simp only [hd] at ht
  case ok i => exact exec_rspLegal i hinv h ht
  case error e =>
    exact whenIdle_rspLegal (body := raise .illegalCommand (opField w)) hinv h
      (fun hb => raise_rspLegal h hb nofun) ht

theorem commandStep_rspLegal (hinv : s.Inv) (h : RspLegal s) (ht : commandStep s = .next t) :
    RspLegal t := by
  cases hcmd : s.cmd with
  | nil =>
    rw [commandStep_nil hcmd] at ht
    cases ht
    exact h
  | cons w ws =>
    rw [commandStep_cons hcmd] at ht
    exact runWord_rspLegal (s := { s with cmd := ws }) (inv_of_streams hinv rfl) h ht

/-! ### The steps of a PIPE.RUN, and the outside world's moves -/

/-- The state after fault entry meets the invariant only with a cause recorded (R26). -/
theorem cause_ne_none_of_enterFault_inv {c : Cause} {op : Byte} (hinv : (enterFault c op s).Inv) :
    c ≠ .none :=
  hinv.base.causePhase.1 rfl

theorem computeStep_rspLegal (hinv : t.Inv) (h : RspLegal s) (ht : computeStep s = .next t) :
    RspLegal t := by
  unfold computeStep at ht
  split at ht
  · rcases sampleStep_cases ht with ⟨c, rfl⟩ | ⟨q, r, rfl⟩ | ⟨d, q, r, rfl⟩
    · exact enterFault_rspLegal h (cause_ne_none_of_enterFault_inv hinv)
    · exact h
    · exact h
  · split at ht
    · rcases flushStep_cases ht with ⟨c, rfl⟩ | ⟨d, total, rfl⟩
      · exact enterFault_rspLegal h (cause_ne_none_of_enterFault_inv hinv)
      · exact h
    · cases ht
      exact h

theorem coreStep_rspLegal (hinv : s.Inv) (h : RspLegal s) (ht : coreStep s = .next t) :
    RspLegal t := by
  cases hp : s.phase with
  | idle => exact commandStep_rspLegal hinv h (coreStep_accepts (.inl hp) ▸ ht)
  | faulted => exact commandStep_rspLegal hinv h (coreStep_accepts (.inr hp) ▸ ht)
  | compute => exact computeStep_rspLegal (coreStep_inv hinv ht) h (coreStep_compute hp ▸ ht)
  | handoff =>
    rw [coreStep_handoff hp] at ht
    split at ht
    · obtain ⟨w, rfl⟩ := handoffStep_cases ht
      exact h
    · cases ht
      exact h
  | observe =>
    rw [coreStep_observe hp] at ht
    cases ht
    exact h

theorem eventStep_rspLegal (e : Event) (hinv : s.Inv) (h : RspLegal s)
    (ht : eventStep e s = .next t) : RspLegal t := by
  cases e with
  | quiet => exact coreStep_rspLegal hinv h ht
  | hostWrite w =>
    cases ht
    exact h
  | hostTake =>
    cases ht
    exact fun w hw => h w (List.mem_of_mem_tail hw)
  | rst =>
    cases ht
    exact nofun
  | pin b =>
    rcases pinStep_cases ht with ⟨-, rfl⟩ | ⟨-, ⟨-, rfl⟩ | ⟨-, -, rfl⟩⟩
    · exact h
    · exact enterFault_rspLegal h nofun
    · exact emit_rspLegal h (legalResponse_drive (.inr rfl) _)
  | done =>
    rcases doneStep_cases ht with ⟨-, rfl⟩ | ⟨-, ⟨-, rfl⟩ | ⟨-, rfl⟩⟩
    · exact h
    · exact enterFault_rspLegal h nofun
    · exact emit_rspLegal h (legalResponse_value (by decide) _)
  | execError =>
    rcases execErrorStep_cases ht with ⟨-, -, rfl⟩ | ⟨-, rfl⟩
    · exact h
    · exact enterFault_rspLegal h nofun

end

/-- Settles O55: the step is the CORE's own or the first pending move's, and each appends only words
that its tag allows. -/
theorem responsesStayLegal : Obligations.ResponsesStayLegal := by
  intro s t hinv h ht
  cases henv : s.env with
  | nil => exact coreStep_rspLegal hinv h (step_of_env_nil henv ▸ ht)
  | cons e es =>
    rw [step_of_env_cons henv] at ht
    exact eventStep_rspLegal (s := s.withEnv es) e (inv_of_streams hinv rfl) h ht

end Sys2Proof.Machine

/-! The assembler on statements (R67 to R69): the words of one statement, of statements one after
the other, and of a list of statements of one kind, so that each pseudo-instruction gives the words of
its expansion. -/

namespace Sys2Proof.Machine

/-! ### Statements in sequence -/

@[simp] theorem assemble_nil : assemble [] = some [] := rfl

theorem assemble_singleton (st : Stmt) :
    assemble [st] = if st.wf = true then some ((expandStmt st).map encode) else none := by
  simp [assemble_cons]

/-- R69: the words of two parts follow each other, and an error in either leaves none. -/
theorem assemble_append (a b : List Stmt) :
    assemble (a ++ b) = match assemble a, assemble b with
      | some x, some y => some (x ++ y)
      | _, _ => none := by
  simp only [assemble, mapM_append_option]
  cases a.mapM assembleStmt <;> cases b.mapM assembleStmt <;> simp

/-- A statement that is not well formed is an error of the whole program. -/
theorem assemble_of_ill_formed {ss : List Stmt} (h : ∃ st ∈ ss, st.wf = false) :
    assemble ss = none := by
  obtain ⟨st, hmem, hwf⟩ := h
  obtain ⟨a, b, rfl⟩ := List.append_of_mem hmem
  have htail : assemble (st :: b) = none := by simp [assemble_cons, hwf]
  rw [assemble_append, htail]
  cases assemble a <;> rfl

/-- The word of a command is legal (R53, R58, R64). -/
theorem wordWf_encode (i : Instr) : wordWf (encode i) = true :=
  (legalWordsAreExactlyTheEncodings (encode i)).1.2 ⟨i, decodeOfEncodeIsTheCommand i⟩

/-- The assembler emits encodings only. -/
theorem wordWf_of_assemble {ss : List Stmt} {ws : List Word} (h : assemble ss = some ws) :
    ∀ w ∈ ws, wordWf w = true := by
  obtain ⟨is, -, rfl⟩ := Option.map_eq_some_iff.1 h
  intro w hw
  obtain ⟨i, -, rfl⟩ := List.mem_map.1 hw
  exact wordWf_encode i

/-- Statements of one kind: all their commands, or an error where one operand is out of range. -/
theorem assemble_map {α : Type} {mk : α → Stmt} {wf : α → Bool} {cmd : α → Instr}
    (hwf : ∀ x, (mk x).wf = wf x) (hcmd : ∀ x, expandStmt (mk x) = [cmd x]) (xs : List α) :
    assemble (xs.map mk) =
      if xs.all wf = true then some ((xs.map cmd).map encode) else none := by
  induction xs with
  | nil => rfl
  | cons x xs ih =>
    rw [List.map_cons, assemble_cons, hwf, hcmd, ih, List.all_cons]
    cases wf x <;> cases xs.all wf <;> rfl

/-! ### Rounding (R68) -/

/-- `roundHalfUp` answers the integer nearest to the quotient, the larger one at a tie. -/
theorem roundHalfUp_eq_floor (num : Nat) {den : Nat} (hden : 0 < den) :
    (roundHalfUp num den : Int) = ⌊(num / den + 1 / 2 : ℚ)⌋ := by
  have hquot : (num / den + 1 / 2 : ℚ) = ((2 * num + den : Nat) : ℚ) / ((2 * den : Nat) : ℚ) := by
    have hne : (den : ℚ) ≠ 0 := by exact_mod_cast hden.ne'
    push_cast
    field_simp
  rw [hquot, Rat.floor_natCast_div_natCast]
  rfl

/-- The integer nearest to a quotient that is not negative, away from zero at a tie, is its floor
after adding a half. -/
theorem floor_add_half_of_nearest {y : ℚ} {q : Int} (hy : 0 ≤ y) (h : |(q : ℚ) - y| ≤ 1 / 2)
    (htie : |(q : ℚ) - y| = 1 / 2 → |y| < |(q : ℚ)|) : ⌊y + 1 / 2⌋ = q := by
  obtain ⟨hlo, hhi⟩ := abs_le.1 h
  rw [Int.floor_eq_iff]
  refine ⟨by linarith, lt_of_le_of_ne (by linarith) fun heq => ?_⟩
  have hq : (0 : ℚ) ≤ q := by
    have hgt : (-1 : ℚ) < q := by linarith
    have : -1 < q := by exact_mod_cast hgt
    exact_mod_cast (by omega : 0 ≤ q)
  have hhalf : (q : ℚ) - y = -(1 / 2) := by linarith
  have hlt := htie (by rw [hhalf, abs_neg]; norm_num)
  rw [abs_of_nonneg hy, abs_of_nonneg hq] at hlt
  linarith

/-- R68: the sample of DSM.INF is the real times 16384, rounded half away from zero. -/
theorem dsmInfValue_eq_of_nearest {neg : Bool} {digits places : Nat} {q : Int} {x : ℚ}
    (hx : x = (if neg then -1 else 1) * digits / 10 ^ places * 16384)
    (h : |(q : ℚ) - x| ≤ 1 / 2) (htie : |(q : ℚ) - x| = 1 / 2 → |x| < |(q : ℚ)|) :
    dsmInfValue neg digits places = q := by
  have hround := roundHalfUp_eq_floor (digits * 16384) (den := 10 ^ places) (by positivity)
  have hpos : (0 : ℚ) ≤ ((digits * 16384 : Nat) : ℚ) / ((10 ^ places : Nat) : ℚ) := by positivity
  have hmag : ((digits * 16384 : Nat) : ℚ) / ((10 ^ places : Nat) : ℚ) =
      digits / 10 ^ places * 16384 := by
    push_cast
    ring
  rw [hmag] at hround hpos
  cases neg with
  | false =>
    simp only [Bool.false_eq_true, if_false, one_mul] at hx
    rw [← hx] at hround hpos
    rw [dsmInfValue, roundHalfAway, if_neg (by simp), hround, floor_add_half_of_nearest hpos h htie]
  | true =>
    have hneg : (digits / 10 ^ places * 16384 : ℚ) = -x := by
      rw [hx, if_pos rfl]
      ring
    have hdist : |((-q : Int) : ℚ) - -x| = |(q : ℚ) - x| := by
      rw [Int.cast_neg, ← neg_sub', abs_neg]
    have habs : |((-q : Int) : ℚ)| = |(q : ℚ)| := by rw [Int.cast_neg, abs_neg]
    rw [hneg] at hround hpos
    rw [dsmInfValue, roundHalfAway, if_pos rfl, hround,
      floor_add_half_of_nearest (q := -q) hpos (by rwa [hdist]) (by rwa [hdist, abs_neg, habs]),
      neg_neg]

/-! ### The statements one by one (R67, R68) -/

theorem SampleOperand.wf_dec (v : Int) :
    (SampleOperand.dec v).wf = true ↔ -32768 ≤ v ∧ v ≤ 32767 := by
  simp [SampleOperand.wf]

theorem u24Wf_iff (n : Nat) : u24Wf n = true ↔ n ≤ 16777215 := by simp [u24Wf]

/-- The word of DSM.IN (R53, R55). -/
theorem encode_dsmIn (s : Sample) : encode (.dsmIn s) = (0x02 : Byte) ++ 0#8 ++ s := by
  rw [BitVec.append_assoc]
  rfl

theorem assemble_dsmIn (s : SampleOperand) :
    assemble [.dsmIn s] =
      if s.wf = true then some [(0x02 : Byte) ++ 0#8 ++ operandSample s] else none := by
  rw [assemble_singleton, ← encode_dsmIn]
  rfl

theorem assemble_dsmIn_dec (v : Int) :
    assemble [.dsmIn (.dec v)] =
      if -32768 ≤ v ∧ v ≤ 32767 then some [(0x02 : Byte) ++ 0#8 ++ BitVec.ofInt 16 v]
      else none := by
  rw [assemble_dsmIn]
  simp only [SampleOperand.wf_dec, operandSample]

theorem assemble_dsmIn_pattern (p : Nat) :
    assemble [.dsmIn (.pattern p)] =
      if p ≤ 0xFFFF then some [(0x02 : Byte) ++ 0#8 ++ BitVec.ofNat 16 p] else none := by
  rw [assemble_dsmIn]
  simp only [SampleOperand.wf, decide_eq_true_eq, operandSample]

/-- A statement with one operand of format U. -/
theorem assemble_u24 {st : Stmt} {op : Byte} {n : Nat} (hwf : st.wf = u24Wf n)
    (hword : (expandStmt st).map encode = [op ++ BitVec.ofNat 24 n]) :
    assemble [st] = if n ≤ 16777215 then some [op ++ BitVec.ofNat 24 n] else none := by
  rw [assemble_singleton, hwf, hword]
  simp only [u24Wf_iff]

/-- DSM.INF is DSM.IN of the rounded value (R68). -/
theorem assemble_dsmInf (neg : Bool) (digits places : Nat) :
    assemble [.dsmInf neg digits places] =
      assemble [.dsmIn (.dec (dsmInfValue neg digits places))] := by
  rw [assemble_singleton, assemble_singleton]
  rfl

/-- A sequence of m ≥ 1 operands that only repeats its command (R68). -/
theorem assemble_repeat {α : Type} {mk : α → Stmt} {wf : α → Bool} {cmd : α → Instr} {st : Stmt}
    {xs : List α} (hmk : ∀ x, (mk x).wf = wf x) (hcmd : ∀ x, expandStmt (mk x) = [cmd x])
    (hwf : st.wf = xs.all wf) (hexp : expandStmt st = xs.map cmd) :
    assemble [st] = assemble (xs.map mk) := by
  rw [assemble_singleton, assemble_map hmk hcmd, hwf, hexp]

theorem assemble_lcSeq {ns : List Nat} (h : ns ≠ []) :
    assemble [.lcSeq ns] = assemble (ns.map .lcIn) :=
  assemble_repeat (fun _ => rfl) (fun _ => rfl) (by simp [Stmt.wf, h]) rfl

theorem assemble_pmSeq {ns : List Nat} (h : ns ≠ []) :
    assemble [.pmSeq ns] = assemble (ns.map .pmIn) :=
  assemble_repeat (fun _ => rfl) (fun _ => rfl) (by simp [Stmt.wf, h]) rfl

theorem assemble_dsmSeq {xs : List SampleOperand} (h : xs ≠ []) :
    assemble [.dsmSeq xs] = assemble (.dsmClr :: xs.map .dsmIn) := by
  have hwf : (Stmt.dsmSeq xs).wf = xs.all SampleOperand.wf := by simp [Stmt.wf, h]
  rw [assemble_singleton, assemble_cons, if_pos (show Stmt.dsmClr.wf = true from rfl), hwf,
    assemble_map (wf := SampleOperand.wf) (fun _ => rfl) (fun _ => rfl)]
  cases xs.all SampleOperand.wf <;> rfl

theorem assemble_rleSeq {vs : List Bool} (h : vs ≠ []) :
    assemble [.rleSeq vs] = assemble (.rleClr :: vs.map .rleIn ++ [.rleEnd]) := by
  have hwf : (Stmt.rleSeq vs).wf = true := by simp [Stmt.wf, h]
  have hmap : assemble (vs.map .rleIn) = some ((vs.map .rleIn).map encode) := by
    rw [assemble_map (wf := fun _ => true) (fun _ => rfl) (fun _ => rfl),
      List.all_eq_true.2 (by simp)]
    rfl
  rw [assemble_singleton, List.cons_append, assemble_cons, assemble_append, hmap, hwf]
  simp [expandStmt, assemble_singleton, Stmt.wf]

/-- Settles O58: each clause is a lemma about `assemble`; the words are encodings, hence legal. -/
theorem assemblerEmitsTheWordList : Obligations.AssemblerEmitsTheWordList := by
  refine ⟨assemble_append, fun _ => assemble_of_ill_formed,
    fun st h => by rw [assemble_singleton, if_pos h], fun _ _ => wordWf_of_assemble,
    ⟨rfl, rfl, rfl, rfl, rfl, rfl, rfl, rfl⟩, assemble_dsmIn_dec, assemble_dsmIn_pattern,
    ⟨rfl, rfl⟩,
    fun n => ⟨assemble_u24 rfl rfl, assemble_u24 rfl rfl, assemble_u24 rfl rfl⟩,
    fun neg digits places q => ?_, fun _ => assemble_dsmSeq, fun _ => assemble_rleSeq,
    fun _ => assemble_lcSeq, fun _ => assemble_pmSeq, fun n => ?_, rfl, rfl, rfl, rfl, rfl⟩
  · intro x h htie
    rw [assemble_dsmInf, dsmInfValue_eq_of_nearest rfl h htie, assemble_dsmIn_dec]
  · rw [assemble_singleton, assemble_singleton]
    rfl

end Sys2Proof.Machine

/-! The assembler on text (R66, R68, R69; log 20). A line is read by what stands before its comment,
trimmed: its first word and the operands after it. A text is read line by line, so that a sequence
with its operands gives what the lines of its expansion give. -/

namespace Sys2Proof.Machine

/-! ### Blanks and names -/

theorem isBlank_iff (c : Char) : isBlank c = true ↔ c = ' ' ∨ c = '\t' ∨ c = '\r' := by
  simp [isBlank, or_assoc]

theorem isBlank_eq_false_iff (c : Char) : isBlank c = false ↔ c ∉ [' ', '\t', '\r'] := by
  rw [← Bool.not_eq_true, isBlank_iff]
  simp

/-- `m` can be the first word of a line: it is not empty and holds no blank, comment or line end. -/
def IsName (m : List Char) : Prop := m ≠ [] ∧ ∀ c ∈ m, c ∉ [' ', '\t', '\r', ';', '\n']

/-- A name written out is checked by evaluation. -/
theorem isName_of_check {m : List Char}
    (h : (!m.isEmpty && m.all (fun c => !isBlank c && c != ';' && c != '\n')) = true) :
    IsName m := by
  rw [Bool.and_eq_true, List.all_eq_true] at h
  obtain ⟨hne, hall⟩ := h
  refine ⟨by simpa using hne, fun c hc => ?_⟩
  have hchar := hall c hc
  simp [isBlank] at hchar
  simp [hchar]

theorem IsName.ne_blank_comment {m : List Char} (h : IsName m) :
    ∀ c ∈ m, isBlank c = false ∧ c ≠ ';' := by
  intro c hc
  have hout := h.2 c hc
  simp only [List.mem_cons, List.not_mem_nil, or_false, not_or] at hout
  obtain ⟨hspace, htab, hreturn, hcomment, -⟩ := hout
  exact ⟨by simp [isBlank, hspace, htab, hreturn], hcomment⟩

theorem IsName.no_line_end {m : List Char} (h : IsName m) : '\n' ∉ m :=
  fun hc => h.2 _ hc (by decide)

/-! ### Texts and their lines (R66, R69) -/

theorem assembleText_eq (text : List Char) :
    assembleText text =
      ((splitAt '\n' text).mapM parseLine).bind (fun ls => assemble ls.flatten) := by
  unfold assembleText
  cases (splitAt '\n' text).mapM parseLine <;> rfl

/-- R66, R69: the words of the lines before a line end, then those after it. -/
theorem assembleText_append (a b : List Char) :
    assembleText (a ++ '\n' :: b) = match assembleText a, assembleText b with
      | some x, some y => some (x ++ y)
      | _, _ => none := by
  simp only [assembleText_eq, splitAt_append, mapM_append_option]
  cases (splitAt '\n' a).mapM parseLine with
  | none => rfl
  | some x =>
    cases (splitAt '\n' b).mapM parseLine with
    | none => simp
    | some y => exact (congrArg assemble List.flatten_append).trans (assemble_append _ _)

/-- Lines that are read alike give the same words. -/
theorem assembleText_congr {a b : List Char} (ha : '\n' ∉ a) (hb : '\n' ∉ b)
    (h : parseLine a = parseLine b) : assembleText a = assembleText b := by
  rw [assembleText_line ha, assembleText_line hb, h]

/-! ### One line -/

/-- A line is read by what stands before its comment, trimmed (R66). -/
theorem parseLine_congr {a b : List Char}
    (h : trimBlanks (a.takeWhile (· != ';')) = trimBlanks (b.takeWhile (· != ';'))) :
    parseLine a = parseLine b := by
  simp only [parseLine, h]

/-- What stands before the first comment mark. -/
theorem takeWhile_append_comment (line comment : List Char) :
    (line ++ ';' :: comment).takeWhile (· != ';') = line.takeWhile (· != ';') := by
  induction line with
  | nil => rfl
  | cons c line ih =>
    by_cases h : c = ';'
    · simp [h]
    · simp [h, ih]

theorem takeWhile_of_no_comment {x : List Char} (h : ';' ∉ x) : x.takeWhile (· != ';') = x :=
  List.takeWhile_eq_self_iff.2 fun c hc => by
    rw [bne_iff_ne]
    rintro rfl
    exact h hc

theorem no_comment_of_blank {l : List Char} (h : ∀ c ∈ l, isBlank c = true) : ';' ∉ l :=
  fun hc => absurd (h _ hc) (by decide)

theorem no_line_end_of_blank {l : List Char} (h : ∀ c ∈ l, isBlank c = true) : '\n' ∉ l :=
  fun hc => absurd (h _ hc) (by decide)

/-- Blanks before a text stay before what stands before its comment. -/
theorem takeWhile_append_of_blank {l : List Char} (hl : ∀ c ∈ l, isBlank c = true)
    (x : List Char) : (l ++ x).takeWhile (· != ';') = l ++ x.takeWhile (· != ';') := by
  refine List.takeWhile_append_of_pos fun c hc => ?_
  rw [bne_iff_ne]
  rintro rfl
  exact no_comment_of_blank hl hc

/-- Blanks around a line change nothing. -/
theorem parseLine_pad {l r : List Char} (hl : ∀ c ∈ l, isBlank c = true)
    (hr : ∀ c ∈ r, isBlank c = true) (line : List Char) :
    parseLine (l ++ line ++ r) = parseLine line := by
  refine parseLine_congr ?_
  rw [List.append_assoc, takeWhile_append_of_blank hl]
  by_cases hc : ';' ∈ line
  · obtain ⟨a, b, rfl⟩ := List.append_of_mem hc
    rw [List.append_assoc, List.cons_append, takeWhile_append_comment, takeWhile_append_comment]
    simpa using trimBlanks_pad hl (r := []) (by simp) (a.takeWhile (· != ';'))
  · have hcr : ';' ∉ line ++ r := by simp [hc, no_comment_of_blank hr]
    rw [takeWhile_of_no_comment hcr, takeWhile_of_no_comment hc, ← List.append_assoc]
    exact trimBlanks_pad hl hr line

theorem parseLine_of_blank {line : List Char} (h : ∀ c ∈ line, isBlank c = true) :
    parseLine line = some [] := by
  have hnil := parseLine_pad h (r := []) (by simp) []
  rw [List.append_nil, List.append_nil] at hnil
  exact hnil

/-- A name, blanks, and the text of the operands, up to a comment. -/
theorem parseLine_spaced {m l : List Char} (hm : IsName m) (hl : ∀ c ∈ l, isBlank c = true)
    (hne : l ≠ []) (x : List Char) :
    parseLine (m ++ (l ++ x)) =
      (parseStmt (m.map Char.toUpper) (parseOperands (x.takeWhile (· != ';')))).map
        (fun st => [st]) := by
  have hends : endsWord (l ++ x) := by
    obtain ⟨a, l, rfl⟩ := List.exists_cons_of_ne_nil hne
    intro c hc
    obtain rfl : a = c := by simpa using hc
    exact .inl (hl a List.mem_cons_self)
  have hops : parseOperands ((l ++ x).takeWhile (· != ';')) =
      parseOperands (x.takeWhile (· != ';')) := by
    rw [takeWhile_append_of_blank hl]
    refine parseOperands_congr ?_
    simpa using trimBlanks_pad hl (r := []) (by simp) (x.takeWhile (· != ';'))
  rw [parseLine_word hm.1 hm.ne_blank_comment hends, hops]

/-- A name, one space, and operands without a comment. -/
theorem parseLine_name {m x : List Char} (hm : IsName m) (hx : ';' ∉ x) :
    parseLine (m ++ ' ' :: x) =
      (parseStmt (m.map Char.toUpper) (parseOperands x)).map (fun st => [st]) := by
  have h := parseLine_spaced hm (l := [' ']) (by simp [isBlank]) (by simp) x
  rw [takeWhile_of_no_comment hx] at h
  exact h

theorem assembleText_spaced {m x : List Char} (hm : IsName m) (hn : '\n' ∉ x) :
    assembleText (m ++ ' ' :: x) =
      (parseStmt (m.map Char.toUpper) (parseOperands (x.takeWhile (· != ';')))).bind
        (fun st => assemble [st]) := by
  have h := parseLine_spaced hm (l := [' ']) (by simp [isBlank]) (by simp) x
  rw [List.singleton_append] at h
  rw [assembleText_line (by simp [hm.no_line_end, hn]), h, Option.bind_map]
  rfl

theorem assembleText_name {m x : List Char} (hm : IsName m) (hx : ';' ∉ x) (hn : '\n' ∉ x) :
    assembleText (m ++ ' ' :: x) =
      (parseStmt (m.map Char.toUpper) (parseOperands x)).bind (fun st => assemble [st]) := by
  rw [assembleText_spaced hm hn, takeWhile_of_no_comment hx]

/-- A line that starts with a word: what follows is its operands, up to a comment. -/
theorem assembleText_word {m rest : List Char} (hm : IsName m) (hrest : '\n' ∉ rest)
    (hends : endsWord rest) :
    assembleText (m ++ rest) =
      (parseStmt (m.map Char.toUpper) (parseOperands (rest.takeWhile (· != ';')))).bind
        (fun st => assemble [st]) := by
  rw [assembleText_line (by simp [hm.no_line_end, hrest]),
    parseLine_word hm.1 hm.ne_blank_comment hends, Option.bind_map]
  rfl

/-- Two statements that give the same words for each operand. -/
theorem oneOperand_bind_congr {α β : Type} {parse : List Char → Option α} {mk mk' : α → Stmt}
    {F : Stmt → Option β} (h : ∀ a, F (mk a) = F (mk' a)) (xs : List (List Char)) :
    (oneOperand parse mk xs).bind F = (oneOperand parse mk' xs).bind F := by
  unfold oneOperand
  split
  · rw [Option.bind_map, Option.bind_map]
    exact congrArg _ (funext h)
  · rfl

/-! ### Sequences (R68) -/

/-- Reading each element and then building from it is reading the list and then building. -/
theorem mapM_eq_map_mapM {α β γ : Type} {f : α → Option β} {h : α → Option γ} {g : β → γ}
    {xs : List α} (hx : ∀ x ∈ xs, h x = (f x).map g) :
    xs.mapM h = (xs.mapM f).map (List.map g) := by
  induction xs with
  | nil => rfl
  | cons x xs ih =>
    rw [List.mapM_cons, List.mapM_cons, hx x List.mem_cons_self,
      ih fun y hy => hx y (List.mem_cons_of_mem _ hy)]
    cases f x with
    | none => rfl
    | some b => cases xs.mapM f <;> rfl

/-- What is read of a list with an element has an element. -/
theorem bind_mapM_congr {α β γ : Type} {f : α → Option β} {F G : List β → Option γ} {xs : List α}
    (hne : xs ≠ []) (h : ∀ bs, bs ≠ [] → F bs = G bs) :
    (xs.mapM f).bind F = (xs.mapM f).bind G := by
  obtain ⟨x, xs, rfl⟩ := List.exists_cons_of_ne_nil hne
  rw [List.mapM_cons]
  cases f x with
  | none => rfl
  | some b =>
    cases xs.mapM f with
    | none => rfl
    | some bs => exact h (b :: bs) (by simp)

theorem mem_intercalate {c sep : Char} {ls : List (List Char)} (h : c ∈ [sep].intercalate ls) :
    c = sep ∨ ∃ l ∈ ls, c ∈ l := by
  induction ls with
  | nil => simp at h
  | cons l ls ih =>
    by_cases hls : ls = []
    · exact .inr ⟨l, List.mem_cons_self, by simpa [hls] using h⟩
    · rw [List.intercalate_cons_of_ne_nil hls, List.mem_append, List.mem_append,
        List.mem_singleton] at h
      rcases h with (hc | rfl) | hc
      · exact .inr ⟨l, List.mem_cons_self, hc⟩
      · exact .inl rfl
      · exact (ih hc).imp id fun ⟨l', hl', hc'⟩ => ⟨l', List.mem_cons_of_mem _ hl', hc'⟩

/-- `name` reads one operand with `parse`, and `seqName` a list of them, of which there must be one
(R67, R68). -/
structure Repeats {α : Type} (parse : List Char → Option α) (name : List Char) (mk : α → Stmt)
    (seqName : List Char) (mkSeq : List α → Stmt) : Prop where
  blank : parse [] = none
  isName : IsName name
  stmt : ∀ xs, parseStmt (name.map Char.toUpper) xs = oneOperand parse mk xs
  isSeqName : IsName seqName
  seqStmt : ∀ xs, parseStmt (seqName.map Char.toUpper) xs = listOperand parse mkSeq xs
  empty : assemble [mkSeq []] = none

theorem dsmSeq_repeats :
    Repeats parseSample "DSM.IN".toList .dsmIn "DSM.SEQ".toList .dsmSeq :=
  ⟨rfl, isName_of_check rfl, parseStmt_dsmIn, isName_of_check rfl, parseStmt_dsmSeq, rfl⟩

theorem rleSeq_repeats :
    Repeats parseSymbol "RLE.IN".toList .rleIn "RLE.SEQ".toList .rleSeq :=
  ⟨rfl, isName_of_check rfl, parseStmt_rleIn, isName_of_check rfl, parseStmt_rleSeq, rfl⟩

theorem lcSeq_repeats : Repeats parseNat "LC.IN".toList .lcIn "LC.SEQ".toList .lcSeq :=
  ⟨rfl, isName_of_check rfl, parseStmt_lcIn, isName_of_check rfl, parseStmt_lcSeq, rfl⟩

theorem pmSeq_repeats : Repeats parseNat "PM.IN".toList .pmIn "PM.SEQ".toList .pmSeq :=
  ⟨rfl, isName_of_check rfl, parseStmt_pmIn, isName_of_check rfl, parseStmt_pmSeq, rfl⟩

/-- The operands of a sequence as written: each a text between blanks, itself without blanks around
it, and with no comma, comment or line end. -/
def SequenceParts (parts : List (List Char × List Char × List Char)) : Prop :=
  ∀ p ∈ parts, (∀ c ∈ p.1, isBlank c = true) ∧ (∀ c ∈ p.2.2, isBlank c = true) ∧
    (∀ c ∈ p.2.1, c ∉ [';', '\n', ',']) ∧ (∀ c ∈ p.2.1.head?, isBlank c = false) ∧
    ∀ c ∈ p.2.1.getLast?, isBlank c = false

section
variable {α : Type} {parse : List Char → Option α} {name seqName : List Char} {mk : α → Stmt}
  {mkSeq : List α → Stmt}

/-- A sequence's operands, read one by one; a blank text between commas is an error, as is no
operand at all. -/
theorem assembleText_sequence (h : Repeats parse name mk seqName mkSeq) {ts : List (List Char)}
    (hne : ts ≠ []) (hclean : ∀ t ∈ ts, ∀ c ∈ t, c ∉ [';', '\n', ',']) :
    assembleText (seqName ++ ' ' :: [','].intercalate ts) =
      ((ts.map trimBlanks).mapM parse).bind (fun as => assemble [mkSeq as]) := by
  have hmem : ∀ c ∈ [';', '\n'], c ∉ [','].intercalate ts := by
    intro c hc hin
    rcases mem_intercalate hin with rfl | ⟨t, ht, hct⟩
    · simp at hc
    · exact hclean t ht c hct (by simp at hc ⊢; tauto)
  rw [assembleText_name h.isSeqName (hmem _ (by simp)) (hmem _ (by simp)), h.seqStmt]
  by_cases hb : ∃ t, ts = [t] ∧ trimBlanks t = []
  · obtain ⟨t, rfl, ht⟩ := hb
    have hops : parseOperands ([','].intercalate [t]) = [] := by
      rw [List.intercalate_singleton, parseOperands_eq, if_pos ht]
    rw [hops]
    simp [listOperand, ht, h.blank, h.empty]
  · rw [parseOperands_list hne (fun t ht hc => hclean t ht _ hc (by simp))
      (fun t ht hblank => hb ⟨t, ht, hblank⟩), listOperand, Option.bind_map]
    rfl

/-- The lines of the repeated command, an operand each. -/
theorem mapM_parseLine_repeat (h : Repeats parse name mk seqName mkSeq) {xs : List (List Char)}
    (htrim : ∀ x ∈ xs, trimBlanks x = x) (hclean : ∀ x ∈ xs, ∀ c ∈ x, c ∉ [';', '\n', ',']) :
    (xs.map (fun x => name ++ ' ' :: x)).mapM parseLine =
      (xs.mapM parse).map (List.map (fun a => [mk a])) := by
  rw [List.mapM_map]
  refine mapM_eq_map_mapM fun x hx => ?_
  have hcomment : ';' ∉ x := fun hc => hclean x hx _ hc (by simp)
  have hcomma : ',' ∉ x := fun hc => hclean x hx _ hc (by simp)
  rw [Function.comp_apply, parseLine_name h.isName hcomment, h.stmt]
  by_cases hnil : x = []
  · subst hnil
    rw [h.blank]
    rfl
  · rw [parseOperands_one hnil (htrim x hx) hcomma, oneOperand, Option.map_map]
    rfl

/-- Such lines between others, put together: the words of the statements in order. -/
theorem assembleText_repeat (h : Repeats parse name mk seqName mkSeq) {xs : List (List Char)}
    (hne : xs ≠ []) (htrim : ∀ x ∈ xs, trimBlanks x = x)
    (hclean : ∀ x ∈ xs, ∀ c ∈ x, c ∉ [';', '\n', ','])
    {pre post : List (List Char)} {before after : List Stmt}
    (hpre : pre.mapM parseLine = some (before.map fun st => [st]))
    (hpost : post.mapM parseLine = some (after.map fun st => [st]))
    (hends : ∀ l ∈ pre ++ post, '\n' ∉ l) :
    assembleText (['\n'].intercalate (pre ++ xs.map (fun x => name ++ ' ' :: x) ++ post)) =
      (xs.mapM parse).bind (fun as => assemble (before ++ as.map mk ++ after)) := by
  have hlines : ∀ l ∈ pre ++ xs.map (fun x => name ++ ' ' :: x) ++ post, '\n' ∉ l := by
    intro l hl
    rw [List.mem_append, List.mem_append, List.mem_map] at hl
    rcases hl with (hl | ⟨x, hx, rfl⟩) | hl
    · exact hends l (List.mem_append_left _ hl)
    · have hno : '\n' ∉ x := fun hc => hclean x hx _ hc (by simp)
      simp [h.isName.no_line_end, hno]
    · exact hends l (List.mem_append_right _ hl)
  rw [assembleText_lines (by simp [hne]) hlines, mapM_append_option, mapM_append_option, hpre,
    hpost, mapM_parseLine_repeat h htrim hclean]
  cases xs.mapM parse with
  | none => rfl
  | some as => simp [← List.flatMap_def, ← List.map_eq_flatMap]

/-- R68: a sequence with its operands gives what the lines of its expansion give. -/
theorem assembleText_sequence_eq_lines (h : Repeats parse name mk seqName mkSeq)
    {pre post : List (List Char)} {before after : List Stmt}
    (hpre : pre.mapM parseLine = some (before.map fun st => [st]))
    (hpost : post.mapM parseLine = some (after.map fun st => [st]))
    (hends : ∀ l ∈ pre ++ post, '\n' ∉ l)
    (hexpand : ∀ as, as ≠ [] → assemble [mkSeq as] = assemble (before ++ as.map mk ++ after))
    {parts : List (List Char × List Char × List Char)} (hne : parts ≠ [])
    (hparts : SequenceParts parts) :
    assembleText (seqName ++ ' ' ::
        [','].intercalate (parts.map (fun p => p.1 ++ p.2.1 ++ p.2.2))) =
      assembleText (['\n'].intercalate
        (pre ++ parts.map (fun p => name ++ ' ' :: p.2.1) ++ post)) := by
  have htrim : ∀ p ∈ parts, trimBlanks p.2.1 = p.2.1 := fun p hp => by
    obtain ⟨-, -, -, hhead, hlast⟩ := hparts p hp
    exact trimBlanks_ends hhead hlast
  have htexts : (parts.map (fun p => p.1 ++ p.2.1 ++ p.2.2)).map trimBlanks =
      parts.map (fun p => p.2.1) := by
    rw [List.map_map]
    refine List.map_congr_left fun p hp => ?_
    obtain ⟨hl, hr, -⟩ := hparts p hp
    rw [Function.comp_apply, trimBlanks_pad hl hr, htrim p hp]
  have hcleanText : ∀ p ∈ parts, ∀ c ∈ p.2.1, c ∉ [';', '\n', ','] := fun p hp => by
    obtain ⟨-, -, hx, -⟩ := hparts p hp
    exact hx
  have hblankClean : ∀ {c}, isBlank c = true → c ∉ [';', '\n', ','] := fun hc => by
    rcases (isBlank_iff _).1 hc with rfl | rfl | rfl <;> decide
  have hclean : ∀ p ∈ parts, ∀ c ∈ p.1 ++ p.2.1 ++ p.2.2, c ∉ [';', '\n', ','] := by
    intro p hp c hc
    obtain ⟨hl, hr, -⟩ := hparts p hp
    rw [List.mem_append, List.mem_append] at hc
    rcases hc with (hc | hc) | hc
    · exact hblankClean (hl c hc)
    · exact hcleanText p hp c hc
    · exact hblankClean (hr c hc)
  have hlines := assembleText_repeat h (xs := parts.map (fun p => p.2.1)) (by simpa using hne)
    (List.forall_mem_map.2 htrim) (List.forall_mem_map.2 hcleanText) hpre hpost hends
  rw [List.map_map] at hlines
  rw [assembleText_sequence h (by simpa using hne) (List.forall_mem_map.2 hclean), htexts]
  exact (bind_mapM_congr (by simpa using hne) hexpand).trans hlines.symm

/-- Where the expansion has nothing after the repeated command. -/
theorem assembleText_sequence_eq_lines_front (h : Repeats parse name mk seqName mkSeq)
    {pre : List (List Char)} {before : List Stmt}
    (hpre : pre.mapM parseLine = some (before.map fun st => [st])) (hends : ∀ l ∈ pre, '\n' ∉ l)
    (hexpand : ∀ as, as ≠ [] → assemble [mkSeq as] = assemble (before ++ as.map mk))
    {parts : List (List Char × List Char × List Char)} (hne : parts ≠ [])
    (hparts : SequenceParts parts) :
    assembleText (seqName ++ ' ' ::
        [','].intercalate (parts.map (fun p => p.1 ++ p.2.1 ++ p.2.2))) =
      assembleText (['\n'].intercalate (pre ++ parts.map (fun p => name ++ ' ' :: p.2.1))) := by
  have hall := assembleText_sequence_eq_lines h (post := []) (after := []) hpre rfl
    (by simpa using hends) (by simpa using hexpand) hne hparts
  rwa [List.append_nil] at hall

end

/-- Settles O59: lines that are read alike give the same words, and a sequence and its expansion read
the same operands. -/
theorem assemblerReadsLines : Obligations.AssemblerReadsLines := by
  unfold Obligations.AssemblerReadsLines
  intro blanks word afterWord
  have hblanks : ∀ {l : List Char}, blanks l → ∀ c ∈ l, isBlank c = true :=
    fun h c hc => (isBlank_iff c).2 (h c hc)
  have hends : ∀ {rest : List Char}, afterWord rest → endsWord rest := fun h c hc => by
    rw [isBlank_iff]
    simpa [or_assoc] using h.2 c hc
  refine ⟨assembleText_append, fun line comment hl hc => ?_, fun line h => ?_,
    fun l line r hl hr hline => ?_, fun m l x hm hne hl hl' hx => ?_,
    fun m m' rest hm hm' hrest hupper => ?_, fun m rest hne hm hrest hunknown => ?_,
    fun parts hne hparts => ?_, fun x hx => ?_, rfl⟩
  · refine assembleText_congr (by simp [hl, hc]) hl (parseLine_congr ?_)
    rw [takeWhile_append_comment]
  · rw [assembleText_line (no_line_end_of_blank (hblanks h)), parseLine_of_blank (hblanks h)]
    rfl
  · refine assembleText_congr ?_ hline (parseLine_pad (hblanks hl) (hblanks hr) line)
    simp [hline, no_line_end_of_blank (hblanks hl), no_line_end_of_blank (hblanks hr)]
  · have hname : IsName m := ⟨hne, hm⟩
    rw [List.append_assoc]
    refine assembleText_congr ?_ ?_ ?_
    · simp [hname.no_line_end, hx, no_line_end_of_blank (hblanks hl)]
    · simp [hname.no_line_end, hx]
    · rw [parseLine_spaced hname (hblanks hl) hl']
      exact (parseLine_spaced hname (l := [' ']) (by simp [isBlank]) (by simp) x).symm
  · by_cases hnil : m = []
    · obtain rfl : m' = [] := by simpa [hnil] using hupper
      rw [hnil]
    · have hnil' : m' ≠ [] := by
        rintro rfl
        exact hnil (by simpa using hupper)
      rw [assembleText_word ⟨hnil, hm⟩ hrest.1 (hends hrest),
        assembleText_word ⟨hnil', hm'⟩ hrest.1 (hends hrest), hupper]
  · rw [assembleText_word ⟨hne, hm⟩ hrest.1 (hends hrest), parseStmt_unknown hunknown]
    rfl
  · have hseq : SequenceParts parts := fun p hp => by
      obtain ⟨hl, hr, hx, hhead, hlast⟩ := hparts p hp
      exact ⟨hblanks hl, hblanks hr, hx, fun c hc => (isBlank_eq_false_iff c).2 (hhead c hc),
        fun c hc => (isBlank_eq_false_iff c).2 (hlast c hc)⟩
    exact ⟨assembleText_sequence_eq_lines_front dsmSeq_repeats (pre := ["DSM.CLR".toList])
        (before := [.dsmClr]) rfl (by decide) (fun _ => assemble_dsmSeq) hne hseq,
      assembleText_sequence_eq_lines rleSeq_repeats (pre := ["RLE.CLR".toList])
        (post := ["RLE.END".toList]) (before := [.rleClr]) (after := [.rleEnd]) rfl rfl (by decide)
        (fun _ => assemble_rleSeq) hne hseq,
      assembleText_sequence_eq_lines_front lcSeq_repeats (pre := []) (before := []) rfl (by simp)
        (fun _ => assemble_lcSeq) hne hseq,
      assembleText_sequence_eq_lines_front pmSeq_repeats (pre := []) (before := []) rfl (by simp)
        (fun _ => assemble_pmSeq) hne hseq⟩
  · rw [assembleText_spaced (isName_of_check rfl) hx,
      assembleText_spaced (isName_of_check rfl) hx, parseStmt_run, parseStmt_pipeRun]
    refine oneOperand_bind_congr (fun n => ?_) _
    rw [assemble_singleton, assemble_singleton]
    rfl

end Sys2Proof.Machine

/-! The operands of each format (R67, R68; log 20): the texts that are read, with their values, and
the refusal of every other operand of a line. -/

namespace Sys2Proof.Machine

/-! ### Digits as text -/

/-- Decimal digits as written. -/
def decText (ds : List (Fin 10)) : List Char := ds.map (fun d => Nat.digitChar d.val)

/-- The number that decimal digits stand for. -/
def decNum (ds : List (Fin 10)) : Nat := ds.foldl (fun v d => v * 10 + d.val) 0

/-- Hexadecimal digits as written, each in capitals or not. -/
def hexText (ds : List (Fin 16 × Bool)) : List Char :=
  ds.map (fun d => if d.2 then (Nat.digitChar d.1.val).toUpper else Nat.digitChar d.1.val)

/-- The number that hexadecimal digits stand for. -/
def hexNum (ds : List (Fin 16 × Bool)) : Nat := ds.foldl (fun v d => v * 16 + d.1.val) 0

theorem decText_append (ds fs : List (Fin 10)) : decText (ds ++ fs) = decText ds ++ decText fs :=
  List.map_append

theorem decText_ne_nil {ds : List (Fin 10)} (h : ds ≠ []) : decText ds ≠ [] := by
  simpa [decText] using h

/-- A decimal text holds no character but the ten digits. -/
theorem not_mem_decText {c : Char} (h : ∀ d : Fin 10, Nat.digitChar d.val ≠ c)
    (ds : List (Fin 10)) : c ∉ decText ds := fun hc => by
  obtain ⟨d, -, hd⟩ := List.mem_map.1 hc
  exact h d hd

theorem no_sign_decText (ds : List (Fin 10)) : '+' ∉ decText ds ∧ '-' ∉ decText ds :=
  ⟨not_mem_decText (by decide) ds, not_mem_decText (by decide) ds⟩

/-- A character that neither separates operands nor ends a line, a comment mark or a blank. -/
def isOperandChar (c : Char) : Bool := !isBlank c && c != ';' && c != '\n' && c != ','

theorem decText_all (ds : List (Fin 10)) : (decText ds).all isOperandChar = true := by
  have hdigit : ∀ d : Fin 10, isOperandChar (Nat.digitChar d.val) = true := by decide
  simp [decText, hdigit]

theorem hexText_all (ds : List (Fin 16 × Bool)) : (hexText ds).all isOperandChar = true := by
  have hdigit : ∀ d : Fin 16 × Bool, isOperandChar
      (if d.2 then (Nat.digitChar d.1.val).toUpper else Nat.digitChar d.1.val) = true := by decide
  rw [hexText, List.all_map, List.all_eq_true]
  exact fun d _ => hdigit d

/-! ### What the formats read (R67, R68) -/

/-- A text without an `x` is read as a decimal. -/
theorem parseNat_of_no_x {x : List Char} (h : 'x' ∉ x) : parseNat x = parseDec x := by
  unfold parseNat
  split
  · simp at h
  · rfl

theorem parseNat_decText {ds : List (Fin 10)} (h : ds ≠ []) :
    parseNat (decText ds) = some (decNum ds) := by
  rw [parseNat_of_no_x (not_mem_decText (by decide) ds)]
  exact parseDec_digitChar h

theorem digitsFrom_hexText (ds : List (Fin 16 × Bool)) :
    digitsFrom 16 hexDigit 0 (hexText ds) = some (hexNum ds) :=
  digitsFrom_map hexDigit_digitChar_case ds 0

theorem hexText_isEmpty {ds : List (Fin 16 × Bool)} (h : ds ≠ []) :
    (hexText ds).isEmpty = false := by
  simpa [hexText] using h

theorem parseNat_hexText {ds : List (Fin 16 × Bool)} (h : ds ≠ []) :
    parseNat ('0' :: 'x' :: hexText ds) = some (hexNum ds) := by
  simp [parseNat, hexText_isEmpty h, digitsFrom_hexText]

theorem parseSample_hexText {ds : List (Fin 16 × Bool)} (h : ds ≠ []) :
    parseSample ('0' :: 'x' :: hexText ds) = some (.pattern (hexNum ds)) := by
  simp [parseSample, hexText_isEmpty h, digitsFrom_hexText]

/-- The three ways to sign a text, and whether each is a minus. -/
def signs : List (List Char × Bool) := [([], false), (['+'], false), (['-'], true)]

theorem parseSign_signed {t : List Char} (hplus : '+' ∉ t) (hminus : '-' ∉ t)
    {p : List Char × Bool} (hp : p ∈ signs) : parseSign (p.1 ++ t) = (p.2, t) := by
  have hplain : parseSign t = (false, t) := by
    unfold parseSign
    split <;> simp_all
  simp only [signs, List.mem_cons, List.not_mem_nil, or_false] at hp
  rcases hp with rfl | rfl | rfl
  · exact hplain
  · rfl
  · rfl

/-- A sign is a text of operand characters without an `x`. -/
theorem sign_all {p : List Char × Bool} (hp : p ∈ signs) :
    p.1.all isOperandChar = true ∧ 'x' ∉ p.1 := by
  revert p
  decide

theorem parseSample_signed {x : List Char} {neg : Bool} {ds : List (Fin 10)} (hds : ds ≠ [])
    (hx : 'x' ∉ x) (hs : parseSign x = (neg, decText ds)) :
    parseSample x = some (.dec (if neg then -(decNum ds : Int) else (decNum ds : Int))) := by
  have hdec : parseDec (decText ds) = some (decNum ds) := parseDec_digitChar hds
  unfold parseSample
  split
  · simp at hx
  · rw [hs]
    simp only [hdec, Option.map_some]

theorem parseReal_whole {x : List Char} {neg : Bool} {ds : List (Fin 10)} (hds : ds ≠ [])
    (hs : parseSign x = (neg, decText ds)) : parseReal x = some (neg, decNum ds, 0) := by
  have hdec : parseDec (decText ds) = some (decNum ds) := parseDec_digitChar hds
  unfold parseReal
  rw [hs]
  simp only [splitAt_of_not_mem (not_mem_decText (c := '.') (by decide) ds), hdec, Option.map_some]

theorem parseReal_point {x : List Char} {neg : Bool} {ds fs : List (Fin 10)} (hds : ds ≠ [])
    (hfs : fs ≠ []) (hs : parseSign x = (neg, decText ds ++ '.' :: decText fs)) :
    parseReal x = some (neg, decNum (ds ++ fs), fs.length) := by
  have hdec : parseDec (decText ds ++ decText fs) = some (decNum (ds ++ fs)) := by
    rw [← decText_append]
    exact parseDec_digitChar (by simp [hds])
  have hsplit : splitAt '.' (decText ds ++ '.' :: decText fs) = [decText ds, decText fs] := by
    rw [splitAt_append, splitAt_of_not_mem (not_mem_decText (by decide) ds),
      splitAt_of_not_mem (not_mem_decText (by decide) fs)]
    rfl
  have hlen : (decText fs).length = fs.length := List.length_map ..
  unfold parseReal
  rw [hs]
  simp [hsplit, hdec, decText_ne_nil hds, decText_ne_nil hfs, hlen]

/-! ### A name and one operand on a line -/

/-- What a line can hold as an operand: no comment, no line end, no blanks around it. -/
def IsOperand (x : List Char) : Prop :=
  ';' ∉ x ∧ '\n' ∉ x ∧ (∀ c ∈ x.head?, c ∉ [' ', '\t', '\r']) ∧
    ∀ c ∈ x.getLast?, c ∉ [' ', '\t', '\r']

section
variable {x name : List Char}

theorem not_mem_of_all (h : x.all isOperandChar = true) {c : Char} (hc : isOperandChar c = false) :
    c ∉ x := fun hmem => by
  rw [List.all_eq_true.1 h c hmem] at hc
  cases hc

theorem IsOperand.trimmed (hx : IsOperand x) : trimBlanks x = x := by
  obtain ⟨-, -, hhead, hlast⟩ := hx
  exact trimBlanks_ends (fun c hc => (isBlank_eq_false_iff c).2 (hhead c hc))
    fun c hc => (isBlank_eq_false_iff c).2 (hlast c hc)

theorem assembleText_operand (hname : IsName name) (hx : IsOperand x) :
    assembleText (name ++ ' ' :: x) =
      (parseStmt (name.map Char.toUpper) (parseOperands x)).bind (fun st => assemble [st]) := by
  obtain ⟨hcomment, hend, -, -⟩ := hx
  exact assembleText_name hname hcomment hend

theorem isOperand_of_all (h : x.all isOperandChar = true) : IsOperand x := by
  have hblank : ∀ c ∈ x, c ∉ [' ', '\t', '\r'] := fun c hc => by
    have hchar := List.all_eq_true.1 h c hc
    rw [← isBlank_eq_false_iff, ← Bool.not_eq_true']
    simp only [isOperandChar, Bool.and_eq_true] at hchar
    obtain ⟨⟨⟨hc, -⟩, -⟩, -⟩ := hchar
    exact hc
  exact ⟨not_mem_of_all h rfl, not_mem_of_all h rfl,
    fun c hc => hblank c (List.mem_of_mem_head? hc),
    fun c hc => hblank c (List.mem_of_mem_getLast? hc)⟩

/-- A statement without operands refuses every operand (format Z, R67). -/
theorem assembleText_noOperand {st : Stmt} (hname : IsName name)
    (hstmt : ∀ xs, parseStmt (name.map Char.toUpper) xs = noOperand st xs) (hx : IsOperand x)
    (hne : x ≠ []) : assembleText (name ++ ' ' :: x) = none := by
  rw [assembleText_operand hname hx, hstmt]
  obtain ⟨y, ys, hops⟩ := List.exists_cons_of_ne_nil (parseOperands_ne_nil hne hx.trimmed)
  rw [hops]
  rfl

theorem assembleText_bare {st : Stmt} (hname : IsName name)
    (hstmt : ∀ xs, parseStmt (name.map Char.toUpper) xs = noOperand st xs) :
    assembleText name = assemble [st] := by
  have h := assembleText_word (rest := []) hname (by simp) nofun
  rw [List.append_nil, hstmt] at h
  exact h

variable {α : Type} {parse : List Char → Option α} {mk : α → Stmt}

/-- A statement with one operand, which its format reads. -/
theorem assembleText_oneOperand (hname : IsName name)
    (hstmt : ∀ xs, parseStmt (name.map Char.toUpper) xs = oneOperand parse mk xs)
    (hx : x.all isOperandChar = true) (hne : x ≠ []) {a : α} (ha : parse x = some a) :
    assembleText (name ++ ' ' :: x) = assemble [mk a] := by
  have hop := isOperand_of_all hx
  rw [assembleText_operand hname hop, hstmt,
    parseOperands_one hne hop.trimmed (not_mem_of_all hx rfl), oneOperand, ha]
  rfl

/-- A statement with one operand refuses what its format does not read, and no operand too. -/
theorem assembleText_oneOperand_none (hname : IsName name)
    (hstmt : ∀ xs, parseStmt (name.map Char.toUpper) xs = oneOperand parse mk xs)
    (hx : IsOperand x) (hnone : ∀ a, parse x ≠ some a) :
    assembleText (name ++ ' ' :: x) = none := by
  rw [assembleText_operand hname hx, hstmt,
    oneOperand_none hx.trimmed fun _ => Option.eq_none_iff_forall_ne_some.2 hnone]
  rfl

end

/-! ### The formats -/

/-- A command of format Z: its word without an operand, and an error with one (R67). -/
theorem assembleText_formatZ {name : List Char} {st : Stmt} {w : Word} (hname : IsName name)
    (hstmt : ∀ xs, parseStmt (name.map Char.toUpper) xs = noOperand st xs)
    (hword : assemble [st] = some [w]) :
    assembleText name = some [w] ∧
      ∀ x, IsOperand x → x ≠ [] → assembleText (name ++ ' ' :: x) = none :=
  ⟨(assembleText_bare hname hstmt).trans hword, fun _ => assembleText_noOperand hname hstmt⟩

/-- A command of format U: decimal and hexadecimal integers up to 16777215, nothing else (R67). -/
theorem assembleText_formatU {name : List Char} {mk : Nat → Stmt} {op : Byte} (hname : IsName name)
    (hstmt : ∀ xs, parseStmt (name.map Char.toUpper) xs = oneOperand parseNat mk xs)
    (hword : ∀ n, assemble [mk n] =
      if n ≤ 16777215 then some [op ++ BitVec.ofNat 24 n] else none) :
    (∀ ds, ds ≠ [] → assembleText (name ++ ' ' :: decText ds) =
      if decNum ds ≤ 16777215 then some [op ++ BitVec.ofNat 24 (decNum ds)] else none) ∧
    (∀ ds, ds ≠ [] → assembleText (name ++ ' ' :: '0' :: 'x' :: hexText ds) =
      if hexNum ds ≤ 16777215 then some [op ++ BitVec.ofNat 24 (hexNum ds)] else none) ∧
    ∀ x, IsOperand x → (¬∃ ds, ds ≠ [] ∧ x = decText ds) →
      (¬∃ ds, ds ≠ [] ∧ x = '0' :: 'x' :: hexText ds) → assembleText (name ++ ' ' :: x) = none := by
  refine ⟨fun ds hds => ?_, fun ds hds => ?_, fun x hx hdec hhex => ?_⟩
  · rw [assembleText_oneOperand hname hstmt (decText_all ds) (decText_ne_nil hds)
      (parseNat_decText hds), hword]
  · have hall : ('0' :: 'x' :: hexText ds).all isOperandChar = true := hexText_all ds
    rw [assembleText_oneOperand hname hstmt hall (by simp) (parseNat_hexText hds), hword]
  · refine assembleText_oneOperand_none hname hstmt hx fun n hn => ?_
    rcases parseNat_some hn with h | h
    · exact hdec h
    · exact hhex h

/-- DSM.IN with a decimal (format S, R67). -/
theorem assembleText_dsmIn_dec {ds : List (Fin 10)} (hds : ds ≠ []) {p : List Char × Bool}
    (hp : p ∈ signs) {v : Int} (hv : v = if p.2 then -(decNum ds : Int) else (decNum ds : Int)) :
    assembleText ("DSM.IN".toList ++ ' ' :: (p.1 ++ decText ds)) =
      if -32768 ≤ v ∧ v ≤ 32767 then some [(0x02 : Byte) ++ 0#8 ++ BitVec.ofInt 16 v]
      else none := by
  obtain ⟨hall, hx⟩ := sign_all hp
  have hread : parseSample (p.1 ++ decText ds) = some (.dec v) := by
    rw [hv]
    obtain ⟨hplus, hminus⟩ := no_sign_decText ds
    refine parseSample_signed hds ?_ (parseSign_signed hplus hminus hp)
    simp [hx, not_mem_decText (c := 'x') (by decide) ds]
  rw [assembleText_oneOperand (isName_of_check rfl) parseStmt_dsmIn
    (by rw [List.all_append, hall, decText_all]; rfl) (by simp [decText_ne_nil hds]) hread,
    assemble_dsmIn_dec]

/-- DSM.IN with a pattern (format S, R67). -/
theorem assembleText_dsmIn_pattern {ds : List (Fin 16 × Bool)} (hds : ds ≠ []) :
    assembleText ("DSM.IN".toList ++ ' ' :: '0' :: 'x' :: hexText ds) =
      if hexNum ds ≤ 0xFFFF then some [(0x02 : Byte) ++ 0#8 ++ BitVec.ofNat 16 (hexNum ds)]
      else none := by
  have hall : ('0' :: 'x' :: hexText ds).all isOperandChar = true := hexText_all ds
  rw [assembleText_oneOperand (isName_of_check rfl) parseStmt_dsmIn hall (by simp)
    (parseSample_hexText hds), assemble_dsmIn_pattern]

/-- DSM.INF with a decimal real (R68). -/
theorem assembleText_dsmInf {ds fs : List (Fin 10)} (hds : ds ≠ []) (hfs : fs ≠ [])
    {p : List Char × Bool} (hp : p ∈ signs) :
    assembleText ("DSM.INF".toList ++ ' ' :: (p.1 ++ decText ds)) =
      assemble [.dsmInf p.2 (decNum ds) 0] ∧
    assembleText ("DSM.INF".toList ++ ' ' :: (p.1 ++ decText ds ++ '.' :: decText fs)) =
      assemble [.dsmInf p.2 (decNum (ds ++ fs)) fs.length] := by
  obtain ⟨hall, -⟩ := sign_all hp
  obtain ⟨hplus, hminus⟩ := no_sign_decText ds
  obtain ⟨hplus', hminus'⟩ := no_sign_decText fs
  have hpoint : parseSign (p.1 ++ decText ds ++ '.' :: decText fs) =
      (p.2, decText ds ++ '.' :: decText fs) := by
    rw [List.append_assoc]
    exact parseSign_signed (by simp [hplus, hplus']) (by simp [hminus, hminus']) hp
  have hpointAll : (p.1 ++ decText ds ++ '.' :: decText fs).all isOperandChar = true := by
    rw [List.all_append, List.all_append, List.all_cons, hall, decText_all, decText_all]
    rfl
  exact ⟨assembleText_oneOperand (isName_of_check rfl) parseStmt_dsmInf
      (by rw [List.all_append, hall, decText_all]; rfl) (by simp [decText_ne_nil hds])
      (parseReal_whole hds (parseSign_signed hplus hminus hp)),
    assembleText_oneOperand (isName_of_check rfl) parseStmt_dsmInf hpointAll (by simp)
      (parseReal_point hds hfs hpoint)⟩

/-- Settles O60: each format's texts are read by its lemma, and a format reads only those. -/
theorem assemblerReadsOperands : Obligations.AssemblerReadsOperands := by
  unfold Obligations.AssemblerReadsOperands
  intro decDigits decValue hexDigits hexValue decimal hexadecimal real signed operand
  refine ⟨?_, fun x => assembleText_noOperand (isName_of_check rfl) parseStmt_clrAll, ?_,
    fun ds hds => ?_, fun ds => assembleText_dsmIn_pattern, fun x hx hdec hhex => ?_, rfl, rfl,
    fun x hx hplus hminus => ?_, fun ds fs hds hfs p => assembleText_dsmInf hds hfs,
    fun x hx hreal => ?_, ?_⟩
  · simp only [List.forall_mem_cons]
    exact ⟨assembleText_formatZ (isName_of_check rfl) parseStmt_nop rfl,
      assembleText_formatZ (isName_of_check rfl) parseStmt_dsmClr rfl,
      assembleText_formatZ (isName_of_check rfl) parseStmt_rleClr rfl,
      assembleText_formatZ (isName_of_check rfl) parseStmt_rleEnd rfl,
      assembleText_formatZ (isName_of_check rfl) parseStmt_statRd rfl,
      assembleText_formatZ (isName_of_check rfl) parseStmt_cfgRd rfl,
      assembleText_formatZ (isName_of_check rfl) parseStmt_qeRd rfl,
      assembleText_formatZ (isName_of_check rfl) parseStmt_cntRd rfl, nofun⟩
  · simp only [List.forall_mem_cons]
    exact ⟨assembleText_formatU (isName_of_check rfl) parseStmt_lcIn fun n => assemble_u24 rfl rfl,
      assembleText_formatU (isName_of_check rfl) parseStmt_pmIn fun n => assemble_u24 rfl rfl,
      assembleText_formatU (isName_of_check rfl) parseStmt_pipeRun fun n => assemble_u24 rfl rfl,
      nofun⟩
  · simp only [List.forall_mem_cons]
    exact ⟨assembleText_dsmIn_dec hds (p := ([], false)) (by decide) (one_mul _),
      assembleText_dsmIn_dec hds (p := (['+'], false)) (by decide) (one_mul _),
      assembleText_dsmIn_dec hds (p := (['-'], true)) (by decide) (neg_one_mul _), nofun⟩
  · refine assembleText_oneOperand_none (isName_of_check rfl) parseStmt_dsmIn hx fun a ha => ?_
    rcases parseSample_some ha with ⟨ds, t, hds, rfl, hsign⟩ | h
    · exact hdec (hsign.imp (fun h => ⟨ds, hds, h⟩) fun h => ⟨_, ⟨ds, hds, rfl⟩, h⟩)
    · exact hhex h
  · refine assembleText_oneOperand_none (isName_of_check rfl) parseStmt_rleIn hx fun c hc => ?_
    rw [parseSymbol, if_neg hplus, if_neg hminus] at hc
    cases hc
  · refine assembleText_oneOperand_none (isName_of_check rfl) parseStmt_dsmInf hx fun r hr => ?_
    obtain ⟨t, ds, hds, hsign, ht⟩ := parseReal_some hr
    have hnumber : real t := ht.imp (fun h => ⟨ds, hds, h⟩) fun ⟨fs, hfs, h⟩ =>
      ⟨_, _, ⟨ds, hds, rfl⟩, ⟨fs, hfs, rfl⟩, h⟩
    rcases hsign with rfl | h
    · exact hreal (.inl hnumber)
    · exact hreal (.inr ⟨t, hnumber, h⟩)
  · simp only [List.forall_mem_cons]
    exact ⟨rfl, rfl, rfl, rfl, rfl, rfl, rfl, rfl, rfl, rfl, rfl, nofun⟩

end Sys2Proof.Machine

/-! The delta-sigma modulator (R70 to R76). Commands DSM.IN one after another run
`modulate` over their samples, one response word per symbol, up to the first overflow
(`execAll_dsmIn`, `execAll_dsmIn_overflow`). So the bound, the telescoped sum and the symbol density
are facts about `modulate` on integers. -/

namespace Sys2Proof.Machine

/-! ### The recurrence (R70, R71) -/

theorem dsmStep_nonpos {q x : Int} (hlo : -2 ^ 31 ≤ q + x) (hle : q + x ≤ 0) :
    dsmStep q x = some (false, q + x + 16384) := by
  simp only [dsmStep]
  rw [if_neg (by omega), if_neg (by omega)]
  simp [Config.one]

theorem dsmStep_pos {q x : Int} (hpos : 0 < q + x) (hhi : q + x ≤ 2 ^ 31 - 1) :
    dsmStep q x = some (true, q + x - 16384) := by
  simp only [dsmStep]
  rw [if_neg (by omega), if_pos hpos]
  simp [Config.one]

/-- Settles O11: `dsmStep` case by case of the exact sum. -/
theorem dsmStepIsTheRecurrence : Obligations.DsmStepIsTheRecurrence := by
  refine fun q x => ⟨(dsmStep_none_iff q x).2, fun hlo hle => ⟨dsmStep_nonpos hlo hle, ?_⟩,
    fun hpos hhi => ⟨dsmStep_pos hpos hhi, ?_⟩⟩ <;> omega

/-! ### The commands (R72, R73) -/

/-- The response word of a symbol, DSM.Y (R60, R73). -/
def symbolWord (c : Bool) : Word := (0x02 : Byte) ++ symVal c

/-- `s` after the modulator's symbols `ys`, with the accumulator at `q`. -/
def modulated (ys : List Bool) (q : Int) (s : State) : State :=
  respond (ys.map symbolWord) (setQe q s)

section
variable {s : State} {x : Sample}

theorem modulated_nil : modulated [] s.qe.toInt s = s := by
  simp [modulated, respond, setQe]

theorem modulated_modulated (ys zs : List Bool) (q r : Int) :
    modulated zs r (modulated ys q s) = modulated (ys ++ zs) r s := by
  simp [modulated, respond, setQe]

theorem modulated_toInt {q : Int} (hlo : -2 ^ 31 ≤ q) (hhi : q ≤ 2 ^ 31 - 1) (ys : List Bool) :
    (modulated ys q s).qe.toInt = q :=
  setQe_toInt hlo hhi s

theorem exec_dsmIn_some {c : Bool} {q : Int} (hp : s.phase = .idle)
    (h : dsmStep s.qe.toInt x.toInt = some (c, q)) :
    exec (.dsmIn x) s = .next (modulated [c] q s) := by
  rw [exec, execDsmIn, whenIdle_idle hp, sampleOperand, h]
  rfl

theorem exec_dsmIn_none (hp : s.phase = .idle) (h : dsmStep s.qe.toInt x.toInt = none) :
    exec (.dsmIn x) s = .next (enterFault .accOverflow 0x02 s) := by
  rw [exec, execDsmIn, whenIdle_idle hp, sampleOperand, h]
  rfl

theorem exec_dsmIn_faulted (hp : s.phase = .faulted) :
    exec (.dsmIn x) s = .next (refuseFaulted s) := by
  rw [exec, execDsmIn, whenIdle_faulted hp]

end

/-- Settles O10: DSM.CLR is performed in IDLE and refused in FAULTED. -/
theorem dsmClrClearsTheAccumulator : Obligations.DsmClrClearsTheAccumulator := by
  refine ⟨decodeOfEncodeIsTheCommand .dsmClr, fun s hp => ?_, fun s hp => ?_⟩
  · rw [exec, execDsmClr, whenIdle_idle hp]
    rfl
  · rw [exec, execDsmClr, whenIdle_faulted hp]
    rfl

/-- With OP DSM.IN and a bit of ARG[23:16] set, no row matches (R55, R64). -/
theorem decode_dsmIn_reserved {w : Word} (hop : opField w = 0x02)
    (harg : (argField w).extractLsb' 16 8 ≠ 0) : decode w = .error (.reservedBits 0x02) := by
  have hres : ¬ argField w &&& 0xFF0000 = 0 := fun h => by
    rw [← sample_field_of_reserved h] at harg
    exact harg BitVec.extractLsb'_append_eq_left
  rw [word_eq_fields w, hop, decode_fields, if_neg (by simp), if_neg (by simp),
    if_neg fun h => hres h.2]
  simp [formatOf]

/-! ### The modulator over a sequence of samples (R70, R74, R75) -/

theorem modulate_cons {q q' : Int} {c : Bool} {x : Int} (h : dsmStep q x = some (c, q'))
    (xs : List Int) :
    modulate q (x :: xs) = (modulate q' xs).map fun r => (c :: r.1, r.2) := by
  simp only [modulate, h]

/-- Everything that the modulator answers over one sample and more. -/
theorem modulate_cons_some {q r x : Int} {xs : List Int} {ys : List Bool}
    (h : modulate q (x :: xs) = some (ys, r)) :
    ∃ c q' zs, dsmStep q x = some (c, q') ∧ modulate q' xs = some (zs, r) ∧ ys = c :: zs := by
  cases hd : dsmStep q x with
  | none => simp [modulate, hd] at h
  | some p =>
    obtain ⟨c, q'⟩ := p
    rw [modulate_cons hd, Option.map_eq_some_iff] at h
    obtain ⟨⟨zs, r'⟩, hm, heq⟩ := h
    cases heq
    exact ⟨c, q', zs, rfl, hm, rfl⟩

/-- R74: samples in [−ONE, ONE] keep the accumulator there. -/
theorem modulate_bounded {xs : List Int} (hxs : ∀ x ∈ xs, -Config.one ≤ x ∧ x ≤ Config.one)
    {q : Int} (hlo : -Config.one ≤ q) (hhi : q ≤ Config.one) :
    ∃ ys r, modulate q xs = some (ys, r) ∧ -Config.one ≤ r ∧ r ≤ Config.one := by
  induction xs generalizing q with
  | nil => exact ⟨[], q, rfl, hlo, hhi⟩
  | cons x xs ih =>
    obtain ⟨hx, hxs⟩ := List.forall_mem_cons.1 hxs
    obtain ⟨c, q', hd, hlo', hhi'⟩ := dsmStep_bounded hlo hhi hx.1 hx.2
    obtain ⟨ys, r, hm, hr⟩ := ih hxs hlo' hhi'
    exact ⟨c :: ys, r, by rw [modulate_cons hd, hm, Option.map_some], hr⟩

/-- R75: one symbol per sample, and the accumulator telescopes. -/
theorem modulate_telescopes {xs : List Int} {q r : Int} {ys : List Bool}
    (h : modulate q xs = some (ys, r)) :
    ys.length = xs.length ∧ r = q + xs.sum - Config.one * (ys.map sym).sum := by
  induction xs generalizing q ys with
  | nil => cases h; simp
  | cons x xs ih =>
    obtain ⟨c, q', zs, hd, hm, rfl⟩ := modulate_cons_some h
    obtain ⟨hlen, hsum⟩ := ih hm
    obtain ⟨-, -, -, hq'⟩ := dsmStep_some hd
    refine ⟨by simp [hlen], ?_⟩
    rw [hsum, hq', List.map_cons, List.sum_cons, List.sum_cons]
    ring

/-- The accumulator stays in int32 (R70). -/
theorem modulate_int32 {xs : List Int} {q r : Int} {ys : List Bool}
    (h : modulate q xs = some (ys, r)) (hlo : -2 ^ 31 ≤ q) (hhi : q ≤ 2 ^ 31 - 1) :
    -2 ^ 31 ≤ r ∧ r ≤ 2 ^ 31 - 1 := by
  induction xs generalizing q ys with
  | nil => cases h; exact ⟨hlo, hhi⟩
  | cons x xs ih =>
    obtain ⟨c, q', zs, hd, hm, -⟩ := modulate_cons_some h
    obtain ⟨hlo', hhi'⟩ := dsmStep_int32 hd
    exact ih hm hlo' hhi'

/-- While a constant sample gives the same symbol each time, the accumulator moves by the same
amount. -/
theorem modulate_replicate {x d : Int} {c : Bool} {n : Nat} {q : Int}
    (h : ∀ k : Nat, k < n → dsmStep (q + k * d) x = some (c, q + (k + 1) * d)) :
    modulate q (List.replicate n x) = some (List.replicate n c, q + n * d) := by
  induction n generalizing q with
  | zero => simp [modulate]
  | succ n ih =>
    have hfirst : dsmStep q x = some (c, q + d) := by simpa using h 0 n.succ_pos
    have hrest : modulate (q + d) (List.replicate n x) =
        some (List.replicate n c, q + d + n * d) := ih fun k hk => by
      have hstep := h (k + 1) (Nat.succ_lt_succ hk)
      push_cast at hstep
      rw [show q + d + k * d = q + (k + 1) * d by ring,
        show q + d + (k + 1) * d = q + (k + 1 + 1) * d by ring]
      exact hstep
    rw [List.replicate_succ, List.replicate_succ, modulate_cons hfirst, hrest, Option.map_some]
    push_cast
    rw [show q + d + n * d = q + (n + 1) * d by ring]

/-! ### DSM.IN over a sequence of samples (R45, R73) -/

/-- A command that goes on is followed by the others from its next state (R45). -/
theorem execAll_cons {i : Instr} {s t : State} (h : exec i s = .next t) (is : List Instr) :
    execAll (i :: is) s = execAll is t := by
  simp only [execAll, h]

/-- Where the modulator does not overflow, DSM.IN of each sample answers its symbols. -/
theorem execAll_dsmIn {xs : List Sample} {s : State} {ys : List Bool} {q : Int}
    (hp : s.phase = .idle) (h : modulate s.qe.toInt (xs.map BitVec.toInt) = some (ys, q)) :
    execAll (xs.map .dsmIn) s = .next (modulated ys q s) := by
  induction xs generalizing s ys with
  | nil =>
    cases h
    rw [modulated_nil]
    rfl
  | cons x xs ih =>
    obtain ⟨c, q', zs, hd, hm, rfl⟩ := modulate_cons_some h
    obtain ⟨hlo, hhi⟩ := dsmStep_int32 hd
    rw [List.map_cons, execAll_cons (exec_dsmIn_some hp hd),
      ih (s := modulated [c] q' s) hp (by rw [modulated_toInt hlo hhi, hm]), modulated_modulated]
    rfl

/-- FAULTED stays under DSM.IN (R122). -/
theorem execAll_dsmIn_faulted {s : State} (hp : s.phase = .faulted) (xs : List Sample) :
    ∃ t, execAll (xs.map .dsmIn) s = .next t ∧ t.phase = .faulted := by
  induction xs generalizing s with
  | nil => exact ⟨s, rfl, hp⟩
  | cons x xs ih =>
    rw [List.map_cons, execAll_cons (exec_dsmIn_faulted hp)]
    exact ih hp

/-- Where the modulator overflows, the sequence ends in FAULTED (R73, R122). -/
theorem execAll_dsmIn_overflow {xs : List Sample} {s : State} (hp : s.phase = .idle)
    (h : modulate s.qe.toInt (xs.map BitVec.toInt) = none) :
    ∃ t, execAll (xs.map .dsmIn) s = .next t ∧ t.phase = .faulted := by
  induction xs generalizing s with
  | nil => cases h
  | cons x xs ih =>
    cases hd : dsmStep s.qe.toInt x.toInt with
    | none =>
      rw [List.map_cons, execAll_cons (exec_dsmIn_none hp hd)]
      exact execAll_dsmIn_faulted rfl xs
    | some p =>
      obtain ⟨c, q'⟩ := p
      obtain ⟨hlo, hhi⟩ := dsmStep_int32 hd
      rw [List.map_cons, modulate_cons hd, Option.map_eq_none_iff] at h
      rw [List.map_cons, execAll_cons (exec_dsmIn_some hp hd)]
      exact ih (s := modulated [c] q' s) hp (by rw [modulated_toInt hlo hhi, h])

/-- A sequence of DSM.IN that ends in IDLE is a run of the modulator without overflow. -/
theorem execAll_dsmIn_next {xs : List Sample} {s t : State} (hp : s.phase = .idle)
    (h : execAll (xs.map .dsmIn) s = .next t) (ht : t.phase = .idle) :
    ∃ ys q, modulate s.qe.toInt (xs.map BitVec.toInt) = some (ys, q) ∧ t = modulated ys q s := by
  cases hm : modulate s.qe.toInt (xs.map BitVec.toInt) with
  | none =>
    obtain ⟨u, hu, hfault⟩ := execAll_dsmIn_overflow hp hm
    cases hu.symm.trans h
    rw [ht] at hfault
    cases hfault
  | some p =>
    rw [execAll_dsmIn hp hm] at h
    cases h
    exact ⟨p.1, p.2, rfl, rfl⟩

/-- A constant sample that moves the accumulator by `d` each time from a clear, until the sum leaves
int32 at the sample after the first `n` (R73). -/
theorem execAll_dsmIn_constant {s : State} {x : Sample} {c : Bool} {d : Int} {n : Nat}
    (hp : s.phase = .idle) (hq : s.qe = 0)
    (hstep : ∀ k : Nat, k < n → dsmStep (k * d) x.toInt = some (c, (k + 1) * d))
    (hover : dsmStep (n * d) x.toInt = none) :
    ∃ t, execAll (List.replicate n (.dsmIn x)) s = .next t ∧ t.phase = .idle ∧
      t.qe.toInt = n * d ∧ ∃ u, exec (.dsmIn x) t = .next u ∧ u.cause = .accOverflow := by
  have hzero : s.qe.toInt = 0 := by rw [hq]; rfl
  have hm : modulate 0 (List.replicate n x.toInt) = some (List.replicate n c, n * d) := by
    simpa using modulate_replicate (q := 0) (by simpa using hstep)
  obtain ⟨hlo, hhi⟩ := modulate_int32 hm (by decide) (by decide)
  have hqe : (modulated (List.replicate n c) (n * d) s).qe.toInt = n * d :=
    modulated_toInt hlo hhi _
  have hexec := execAll_dsmIn (xs := List.replicate n x) hp (by rw [hzero, List.map_replicate, hm])
  rw [List.map_replicate] at hexec
  exact ⟨_, hexec, hp, hqe, _, exec_dsmIn_none hp (by rw [hqe, hover]), rfl⟩

/-- Settles O12: the clauses for one sample are the cases of the recurrence. From a clear, the
sample 32767 moves QE by 16383 each time and the sample −32768 by −16384. -/
theorem dsmInTakesOneSample : Obligations.DsmInTakesOneSample := by
  refine ⟨fun x => encode_dsmIn x ▸ decodeOfEncodeIsTheCommand (.dsmIn x),
    fun w => decode_dsmIn_reserved,
    fun x s hp h => exec_dsmIn_none hp ((dsmStep_none_iff _ _).2 h),
    fun x s hp hlo hle => ⟨exec_dsmIn_some hp (dsmStep_nonpos hlo hle), by omega⟩,
    fun x s hp hpos hhi => ⟨exec_dsmIn_some hp (dsmStep_pos hpos hhi), by omega⟩,
    fun x s => exec_dsmIn_faulted, fun s hp hq => ?_, fun s hp hq => ?_⟩
  · have hx : (0x7FFF : Sample).toInt = 32767 := rfl
    refine execAll_dsmIn_constant (c := true) (d := 16383) hp hq (fun k hk => ?_) ?_
    · rw [hx, dsmStep_pos (by omega) (by omega),
        show (k : Int) * 16383 + 32767 - 16384 = (k + 1) * 16383 by ring]
    · rw [hx, dsmStep_none_iff]
      norm_num
  · have hx : (0x8000 : Sample).toInt = -32768 := rfl
    refine execAll_dsmIn_constant (c := false) (d := -16384) hp hq (fun k hk => ?_) ?_
    · rw [hx, dsmStep_nonpos (by omega) (by omega),
        show (k : Int) * -16384 + -32768 + 16384 = (k + 1) * -16384 by ring]
    · rw [hx, dsmStep_none_iff]
      norm_num

/-! ### Bound, telescoping, density (R74 to R76) -/

/-- R74 for the commands, with the modulator's answer. -/
theorem execAll_dsmIn_bounded {xs : List Sample} {s : State} (hp : s.phase = .idle)
    (hlo : -16384 ≤ s.qe.toInt) (hhi : s.qe.toInt ≤ 16384)
    (hxs : ∀ x ∈ xs, -16384 ≤ x.toInt ∧ x.toInt ≤ 16384) :
    ∃ ys q, modulate s.qe.toInt (xs.map BitVec.toInt) = some (ys, q) ∧
      execAll (xs.map .dsmIn) s = .next (modulated ys q s) ∧ -16384 ≤ q ∧ q ≤ 16384 := by
  obtain ⟨ys, q, hm, hq⟩ := modulate_bounded (List.forall_mem_map.2 hxs) hlo hhi
  exact ⟨ys, q, hm, execAll_dsmIn hp hm, hq⟩

/-- Settles O13: the bounded modulator neither overflows nor leaves the range. -/
theorem boundedSamplesKeepTheAccumulatorBounded :
    Obligations.BoundedSamplesKeepTheAccumulatorBounded := by
  intro xs s hp hlo hhi hxs
  obtain ⟨ys, q, -, hexec, hqlo, hqhi⟩ := execAll_dsmIn_bounded hp hlo hhi hxs
  have hqe : (modulated ys q s).qe.toInt = q := modulated_toInt (by omega) (by omega) ys
  exact ⟨_, hexec, hp, rfl, hqe.symm ▸ hqlo, hqe.symm ▸ hqhi⟩

/-- Settles O14: without an overflow the sequence is a run of the modulator, which telescopes. -/
theorem accumulatorTelescopes : Obligations.AccumulatorTelescopes := by
  intro xs s t hp hq h ht
  obtain ⟨ys, q, hm, rfl⟩ := execAll_dsmIn_next hp h ht
  obtain ⟨hlo, hhi⟩ := modulate_int32 hm s.qe.le_toInt (Int.le_sub_one_of_lt s.qe.toInt_lt)
  obtain ⟨hlen, hsum⟩ := modulate_telescopes hm
  refine ⟨ys, by simpa using hlen, rfl, ?_⟩
  rw [modulated_toInt hlo hhi, hsum, hq]
  simp [Config.one]

/-- The symbols' sum is the number of +1 less the number of −1 (R61). -/
theorem sum_sym (ys : List Bool) : (ys.map sym).sum = 2 * ys.count true - ys.length := by
  induction ys with
  | nil => rfl
  | cons c ys ih =>
    cases c <;> simp [ih, sym] <;> ring

/-- R76 on numbers: what is left in the accumulator is the distance, in units of 2·ONE. -/
theorem density_of_telescoped {P m : Nat} {c q : Int} (hlo : -16384 ≤ q) (hhi : q ≤ 16384)
    (h : q = m * c - 16384 * (2 * P - m)) :
    |(P : ℚ) - m * (1 + (c : ℚ) / 16384) / 2| ≤ 1 / 2 := by
  have hdist : (P : ℚ) - m * (1 + (c : ℚ) / 16384) / 2 = -q / 32768 := by
    rw [h]
    push_cast
    ring
  have hlo' : (-16384 : ℚ) ≤ q := by exact_mod_cast hlo
  have hhi' : (q : ℚ) ≤ 16384 := by exact_mod_cast hhi
  rw [hdist, abs_le]
  constructor <;> linarith

/-- Settles O15: the bounded accumulator telescopes over the constant sample; dividing by `m` gives
the second bound. -/
theorem symbolDensityFollowsTheSample : Obligations.SymbolDensityFollowsTheSample := by
  intro c m s hp hq hlo hhi
  have hzero : s.qe.toInt = 0 := by rw [hq]; rfl
  obtain ⟨ys, q, hm, hexec, hqlo, hqhi⟩ := execAll_dsmIn_bounded (xs := List.replicate m c) hp
    (by omega) (by omega) fun x hx => List.eq_of_mem_replicate hx ▸ ⟨hlo, hhi⟩
  obtain ⟨hlen, hsum⟩ := modulate_telescopes hm
  have hlen : ys.length = m := by simpa using hlen
  have hdensity := density_of_telescoped (P := ys.count true) (m := m) (c := c.toInt) hqlo hqhi (by
    rw [hsum, sum_sym, hlen, hzero]
    simp [Config.one])
  rw [List.map_replicate] at hexec
  refine ⟨_, ys, hexec, hlen, rfl, hdensity, fun hpos => ?_⟩
  have hpos : (0 : ℚ) < m := by exact_mod_cast hpos
  have hdiv : (ys.count true : ℚ) / m - ((c.toInt : ℚ) / 16384 + 1) / 2 =
      (ys.count true - m * (1 + (c.toInt : ℚ) / 16384) / 2) / m := by
    field_simp
    ring
  rw [hdiv, abs_div, abs_of_pos hpos, show 1 / (2 * (m : ℚ)) = 1 / 2 / m by ring]
  exact div_le_div_of_nonneg_right hdensity hpos.le

end Sys2Proof.Machine

/-! The run-length encoder (R77 to R83). Commands RLE.IN one after another run `encodeRuns` over their
symbols, one RLE.RUN word per run that ended, up to the first overflow (`execAll_rleIn`,
`execAll_rleIn_overflow`); RLE.END answers the run still open. So the reconstruction of the symbols,
the bounds on the run lengths and their number are facts about `encodeRuns` from an open run. -/

namespace Sys2Proof.Machine

/-! ### One symbol (R77) -/

/-- A symbol other than the last ends the run. -/
theorem rleStep_of_change {st : RleRegs} {c : Bool} (hs : st.started = true) (hc : c ≠ st.last) :
    rleStep st c = some (some st.count, { started := true, last := c, count := 1 }) := by
  simp [rleStep, hs, hc, maxU24]

/-- The first symbol of a sequence and a repeated one are counted on, up to 2^24 − 1. -/
theorem rleStep_of_same {st : RleRegs} {c : Bool} (hc : st.started = false ∨ c = st.last)
    (hlt : st.count.toNat < 2 ^ 24 - 1) :
    rleStep st c = some (none, { started := true, last := c, count := st.count + 1 }) := by
  have hrun : (st.started && (c != st.last)) = false := by
    rcases hc with hs | hc
    · rw [hs, Bool.false_and]
    · rw [hc, bne_self_eq_false, Bool.and_false]
  have hfits : ¬ maxU24 < st.count.toNat + 1 := by simp only [maxU24]; omega
  have hcount : BitVec.ofNat 24 (st.count.toNat + 1) = st.count + 1 := by bv_omega
  simp [rleStep, hrun, hfits, hcount]

/-- Settles O17: the two ways to go on, and the overflow. -/
theorem rleStepCountsRuns : Obligations.RleStepCountsRuns := by
  refine fun st c => ⟨fun ⟨hs, hc⟩ => rleStep_of_change hs hc,
    fun hc hle => rleStep_of_same hc (by omega), fun hc hover => ?_⟩
  have hlt := st.count.isLt
  exact (rleStep_none_iff st c).2 ⟨hc, by omega⟩

/-! ### The commands (R79 to R81) -/

/-- The response word of a run that ended, RLE.RUN (R60, R80). -/
def runResponse (n : U24) : Word := (0x11 : Byte) ++ n

/-- `s` after the encoder's emitted counts `ns`, with its registers at `r`. -/
def encoded (ns : List U24) (r : RleRegs) (s : State) : State :=
  respond (ns.map runResponse) (setRle r s)

/-- `s` after the end of a sequence whose last run has `n` symbols: RLE.LAST (R60, R81). -/
def sequenceEnded (n : U24) (s : State) : State := emit 0x12 n (setRle RleRegs.clear s)

section
variable {s : State} {c : Bool}

theorem encoded_nil : encoded [] s.rle s = s := by
  simp [encoded, respond, setRle]

theorem encoded_encoded (ms ns : List U24) (q r : RleRegs) :
    encoded ns r (encoded ms q s) = encoded (ms ++ ns) r s := by
  simp [encoded, respond, setRle]

theorem exec_rleClr (hp : s.phase = .idle) :
    exec .rleClr s = .next (setRle RleRegs.clear s) := by
  rw [exec, execRleClr, whenIdle_idle hp]

theorem exec_rleClr_faulted (hp : s.phase = .faulted) :
    exec .rleClr s = .next (refuseFaulted s) := by
  rw [exec, execRleClr, whenIdle_faulted hp]

theorem exec_rleIn_some {e : Option U24} {r : RleRegs} (hp : s.phase = .idle)
    (h : rleStep s.rle c = some (e, r)) :
    exec (.rleIn c) s = .next (encoded e.toList r s) := by
  rw [exec, execRleIn, whenIdle_idle hp, h]
  cases e with
  | none => simp [encoded, respond, setRle]
  | some n => rfl

theorem exec_rleIn_none (hp : s.phase = .idle) (h : rleStep s.rle c = none) :
    exec (.rleIn c) s = .next (enterFault .countOverflow 0x11 s) := by
  rw [exec, execRleIn, whenIdle_idle hp, h]
  rfl

theorem exec_rleIn_faulted (hp : s.phase = .faulted) :
    exec (.rleIn c) s = .next (refuseFaulted s) := by
  rw [exec, execRleIn, whenIdle_faulted hp]

theorem exec_rleEnd_started (hp : s.phase = .idle) (hs : s.rleStarted = true) :
    exec .rleEnd s = .next (sequenceEnded s.rleCount s) := by
  rw [exec, execRleEnd, whenIdle_idle hp, rleEnd_some_iff.2 ⟨hs, rfl, rfl⟩]
  rfl

theorem exec_rleEnd_empty (hp : s.phase = .idle) (hs : s.rleStarted = false) :
    exec .rleEnd s = .next (enterFault .rleEmpty 0x12 s) := by
  rw [exec, execRleEnd, whenIdle_idle hp, rleEnd_none_iff.2 hs]
  rfl

theorem exec_rleEnd_faulted (hp : s.phase = .faulted) :
    exec .rleEnd s = .next (refuseFaulted s) := by
  rw [exec, execRleEnd, whenIdle_faulted hp]

end

/-- Settles O16: RLE.CLR is performed in IDLE and refused in FAULTED. -/
theorem rleClrAbandonsTheSequence : Obligations.RleClrAbandonsTheSequence :=
  ⟨decodeOfEncodeIsTheCommand .rleClr, fun _ => exec_rleClr, fun _ => exec_rleClr_faulted⟩

theorem encode_rleIn (c : Bool) :
    encode (.rleIn c) = (0x11 : Byte) ++ 0#23 ++ BitVec.ofBool c := by
  rw [BitVec.append_assoc]
  rfl

/-- With OP RLE.IN and a bit of ARG[23:1] set, no row matches (R56, R64). -/
theorem decode_rleIn_reserved {w : Word} (hop : opField w = 0x11)
    (harg : (argField w).extractLsb' 1 23 ≠ 0) : decode w = .error (.reservedBits 0x11) := by
  have hres : ¬ argField w &&& 0xFFFFFE = 0 := fun h => by
    rw [← symbol_field_of_reserved h] at harg
    exact harg BitVec.extractLsb'_append_eq_left
  rw [word_eq_fields w, hop, decode_fields, if_neg (by simp), if_neg (by simp), if_neg (by simp),
    if_neg (by simp), if_neg fun h => hres h.2]
  simp [formatOf]

/-- Settles O18: the clauses for one symbol are the cases of `rleStep`; a run that ends has a symbol
by R17's part of the invariant. -/
theorem rleInTakesOneSymbol : Obligations.RleInTakesOneSymbol := by
  refine ⟨fun c => encode_rleIn c ▸ decodeOfEncodeIsTheCommand (.rleIn c),
    fun w => decode_rleIn_reserved, fun c s hp hs hc => ?_, fun c s hp hc hlt => ?_,
    fun c s hp hc hmax => exec_rleIn_none hp ((rleStep_none_iff _ _).2 ⟨hc, hmax⟩),
    fun c s => exec_rleIn_faulted, fun s hinv => hinv.base.rleRun⟩
  · rw [exec_rleIn_some hp (rleStep_of_change hs hc)]
    simp [encoded, respond, setRle, runResponse, hs]
  · rw [exec_rleIn_some hp (rleStep_of_same hc hlt)]
    simp [encoded, respond, setRle]

/-- Settles O19: RLE.END of a started sequence clears the registers, so that the next one is empty. -/
theorem rleEndEmitsTheLastRun : Obligations.RleEndEmitsTheLastRun :=
  ⟨decodeOfEncodeIsTheCommand .rleEnd, fun _ => exec_rleEnd_started, fun _ => exec_rleEnd_empty,
    fun _ hp hs => ⟨_, _, exec_rleEnd_started hp hs, exec_rleEnd_empty hp rfl, rfl⟩,
    fun _ => exec_rleEnd_faulted⟩

/-! ### The encoder over a sequence of symbols (R77, R82, R83) -/

theorem encodeRuns_cons {st st' : RleRegs} {c : Bool} {e : Option U24}
    (h : rleStep st c = some (e, st')) (cs : List Bool) :
    encodeRuns st (c :: cs) = (encodeRuns st' cs).map fun x => (e.toList ++ x.1, x.2) := by
  simp only [encodeRuns, h]

/-- Everything that the encoder answers over one symbol and more. -/
theorem encodeRuns_cons_some {st r : RleRegs} {c : Bool} {cs : List Bool} {ns : List U24}
    (h : encodeRuns st (c :: cs) = some (ns, r)) :
    ∃ e st' ms, rleStep st c = some (e, st') ∧ encodeRuns st' cs = some (ms, r) ∧
      ns = e.toList ++ ms := by
  cases hr : rleStep st c with
  | none => simp [encodeRuns, hr] at h
  | some p =>
    obtain ⟨e, st'⟩ := p
    rw [encodeRuns_cons hr, Option.map_eq_some_iff] at h
    obtain ⟨⟨ms, r'⟩, hm, heq⟩ := h
    cases heq
    exact ⟨e, st', ms, rfl, hm, rfl⟩

/-- The registers after the first symbol `c` of a sequence: a run of one (R77). -/
def firstRun (c : Bool) : RleRegs := { started := true, last := c, count := 1 }

theorem encodeRuns_clear_cons (c : Bool) (cs : List Bool) :
    encodeRuns RleRegs.clear (c :: cs) = encodeRuns (firstRun c) cs := by
  rw [encodeRuns_cons (rleStep_of_same (.inl rfl) (by decide))]
  exact Option.map_id'

/-- With a run open, a symbol either ends the run and opens one of one symbol, or is counted into it. -/
theorem encodeRuns_cons_cases {st r : RleRegs} {c : Bool} {cs : List Bool} {ns : List U24}
    (hs : st.started = true) (h : encodeRuns st (c :: cs) = some (ns, r)) :
    ∃ st' ms, encodeRuns st' cs = some (ms, r) ∧ st'.started = true ∧ st'.last = c ∧
      ((c ≠ st.last ∧ ns = st.count :: ms ∧ st'.count.toNat = 1) ∨
        (c = st.last ∧ ns = ms ∧ st'.count.toNat = st.count.toNat + 1)) := by
  obtain ⟨e, st', ms, hr, hm, rfl⟩ := encodeRuns_cons_some h
  obtain ⟨hs', hl', ⟨-, hc, rfl, hone⟩ | ⟨hc, rfl, hgrown⟩⟩ := rleStep_some hr
  · exact ⟨st', ms, hm, hs', hl', .inl ⟨hc, rfl, congrArg BitVec.toNat hone⟩⟩
  · exact ⟨st', ms, hm, hs', hl', .inr ⟨hc.resolve_left (by simp [hs]), rfl, hgrown⟩⟩

section
variable {st r : RleRegs} {cs : List Bool} {ns : List U24}

/-- A started sequence stays started. -/
theorem encodeRuns_started (hs : st.started = true) (h : encodeRuns st cs = some (ns, r)) :
    r.started = true := by
  induction cs generalizing st ns with
  | nil => cases h; exact hs
  | cons c cs ih =>
    obtain ⟨st', ms, hm, hs', -⟩ := encodeRuns_cons_cases hs h
    exact ih hs' hm

/-- R82: the counts emitted, with the run still open, expand to the symbols of the run open at the
start and those that followed. -/
theorem expandRuns_encodeRuns (hs : st.started = true) (h : encodeRuns st cs = some (ns, r)) :
    expandRuns st.last ((ns ++ [r.count]).map BitVec.toNat) =
      List.replicate st.count.toNat st.last ++ cs := by
  induction cs generalizing st ns with
  | nil => cases h; simp [expandRuns]
  | cons c cs ih =>
    obtain ⟨st', ms, hm, hs', rfl, hcase⟩ := encodeRuns_cons_cases hs h
    have hrest := ih hs' hm
    rcases hcase with ⟨hc, rfl, hone⟩ | ⟨hc, rfl, hgrown⟩
    · rw [hone] at hrest
      rw [List.cons_append, List.map_cons, expandRuns, ← Bool.eq_not_of_ne hc, hrest]
      rfl
    · rw [← hc, hrest, hgrown, List.replicate_succ', List.append_assoc, List.singleton_append]

/-- R83: no run is empty. -/
theorem encodeRuns_pos (hs : st.started = true) (hpos : 1 ≤ st.count.toNat)
    (h : encodeRuns st cs = some (ns, r)) : ∀ n ∈ ns ++ [r.count], 1 ≤ n.toNat := by
  induction cs generalizing st ns with
  | nil => cases h; simpa using hpos
  | cons c cs ih =>
    obtain ⟨st', ms, hm, hs', -, hcase⟩ := encodeRuns_cons_cases hs h
    rcases hcase with ⟨-, rfl, hone⟩ | ⟨-, rfl, hgrown⟩
    · exact List.forall_mem_cons.2 ⟨hpos, ih hs' hone.ge hm⟩
    · exact ih hs' (by omega) hm

/-- R83: one count is emitted at each change of symbol. -/
theorem encodeRuns_length (hs : st.started = true) (h : encodeRuns st cs = some (ns, r)) :
    ns.length = ((st.last :: cs).zip cs).countP (fun p => p.1 != p.2) := by
  induction cs generalizing st ns with
  | nil => cases h; rfl
  | cons c cs ih =>
    obtain ⟨st', ms, hm, hs', rfl, hcase⟩ := encodeRuns_cons_cases hs h
    have hrest := ih hs' hm
    rw [List.zip_cons_cons, List.countP_cons, ← hrest]
    rcases hcase with ⟨hc, rfl, -⟩ | ⟨hc, rfl, -⟩
    · simp [Ne.symm hc]
    · simp [hc]

/-- R83: with fewer than 2^24 symbols in all, nothing overflows. -/
theorem encodeRuns_total (hlen : st.count.toNat + cs.length ≤ 2 ^ 24 - 1) :
    ∃ ns r, encodeRuns st cs = some (ns, r) := by
  induction cs generalizing st with
  | nil => exact ⟨[], st, rfl⟩
  | cons c cs ih =>
    rw [List.length_cons] at hlen
    cases hr : rleStep st c with
    | none =>
      obtain ⟨-, hmax⟩ := (rleStep_none_iff st c).1 hr
      omega
    | some p =>
      obtain ⟨e, st'⟩ := p
      obtain ⟨-, -, hcount⟩ := rleStep_some hr
      have hle : st'.count.toNat ≤ st.count.toNat + 1 := by
        rcases hcount with ⟨-, -, -, hone⟩ | ⟨-, -, hgrown⟩
        · rw [hone]
          exact Nat.le_add_left 1 _
        · exact hgrown.le
      obtain ⟨ms, r, hm⟩ := ih (st := st') (by omega)
      exact ⟨_, r, by rw [encodeRuns_cons hr, hm, Option.map_some]⟩

end

/-- The run lengths sum to the number of symbols they expand to. -/
theorem expandRuns_length (c : Bool) (ns : List Nat) : (expandRuns c ns).length = ns.sum := by
  induction ns generalizing c with
  | nil => rfl
  | cons n ns ih => rw [expandRuns, List.length_append, List.length_replicate, ih, List.sum_cons]

/-! ### RLE.IN over a sequence of symbols (R45, R80, R81) -/

/-- Commands that FAULTED refuses leave it FAULTED (R110, R122). -/
theorem execAll_faulted {is : List Instr}
    (hi : ∀ i ∈ is, ∀ s, s.phase = .faulted → exec i s = .next (refuseFaulted s))
    {s : State} (hp : s.phase = .faulted) :
    ∃ t, execAll is s = .next t ∧ t.phase = .faulted := by
  induction is generalizing s with
  | nil => exact ⟨s, rfl, hp⟩
  | cons i is ih =>
    obtain ⟨hfirst, hrest⟩ := List.forall_mem_cons.1 hi
    rw [execAll_cons (hfirst s hp)]
    exact ih hrest hp

/-- Where the encoder does not overflow, RLE.IN of each symbol answers its counts, and what follows
starts from there. -/
theorem execAll_rleIn {cs : List Bool} {s : State} {ns : List U24} {r : RleRegs}
    (hp : s.phase = .idle) (h : encodeRuns s.rle cs = some (ns, r)) (is : List Instr) :
    execAll (cs.map .rleIn ++ is) s = execAll is (encoded ns r s) := by
  induction cs generalizing s ns with
  | nil =>
    cases h
    rw [encoded_nil]
    rfl
  | cons c cs ih =>
    obtain ⟨e, st', ms, hr, hm, rfl⟩ := encodeRuns_cons_some h
    rw [List.map_cons, List.cons_append, execAll_cons (exec_rleIn_some hp hr),
      ih (s := encoded e.toList st' s) hp hm, encoded_encoded]

/-- Where the encoder overflows, the sequence ends in FAULTED (R80, R122). -/
theorem execAll_rleIn_overflow {cs : List Bool} {s : State} (hp : s.phase = .idle)
    (h : encodeRuns s.rle cs = none) :
    ∃ t, execAll (cs.map .rleIn ++ [.rleEnd]) s = .next t ∧ t.phase = .faulted := by
  induction cs generalizing s with
  | nil => cases h
  | cons c cs ih =>
    rw [List.map_cons, List.cons_append]
    cases hr : rleStep s.rle c with
    | none =>
      rw [execAll_cons (exec_rleIn_none hp hr)]
      refine execAll_faulted (fun i hi s hs => ?_) rfl
      rcases List.mem_append.1 hi with hi | hi
      · obtain ⟨c, -, rfl⟩ := List.mem_map.1 hi
        exact exec_rleIn_faulted hs
      · obtain rfl := List.mem_singleton.1 hi
        exact exec_rleEnd_faulted hs
    | some p =>
      obtain ⟨e, st'⟩ := p
      rw [encodeRuns_cons hr, Option.map_eq_none_iff] at h
      rw [execAll_cons (exec_rleIn_some hp hr)]
      exact ih (s := encoded e.toList st' s) hp h

/-- R82's commands: clear, the symbols, end. -/
def rleCommands (cs : List Bool) : List Instr := .rleClr :: cs.map .rleIn ++ [.rleEnd]

/-- RLE.CLR first: the sequence starts from cleared registers. -/
theorem execAll_rleCommands {s : State} (hp : s.phase = .idle) (cs : List Bool) :
    execAll (rleCommands cs) s =
      execAll (cs.map .rleIn ++ [.rleEnd]) (setRle RleRegs.clear s) :=
  execAll_cons (exec_rleClr hp) _

/-- Without an overflow a sequence answers its run lengths, the last one as RLE.LAST. -/
theorem execAll_rleCommands_some {c : Bool} {cs : List Bool} {s : State} {ns : List U24}
    {r : RleRegs} (hp : s.phase = .idle)
    (h : encodeRuns (firstRun c) cs = some (ns, r)) :
    execAll (rleCommands (c :: cs)) s =
      .next (sequenceEnded r.count (encoded ns r (setRle RleRegs.clear s))) := by
  have hstarted := encodeRuns_started rfl h
  rw [execAll_rleCommands hp,
    execAll_rleIn (s := setRle RleRegs.clear s) hp ((encodeRuns_clear_cons c cs).trans h),
    execAll_cons (exec_rleEnd_started (s := encoded ns r (setRle RleRegs.clear s)) hp hstarted)]
  rfl

/-- A sequence that ends in IDLE is a run of the encoder without overflow. -/
theorem execAll_rleCommands_next {c : Bool} {cs : List Bool} {s t : State} (hp : s.phase = .idle)
    (h : execAll (rleCommands (c :: cs)) s = .next t) (ht : t.phase = .idle) :
    ∃ ns r, encodeRuns (firstRun c) cs = some (ns, r) ∧
      t.rsp = s.rsp ++ ns.map runResponse ++ [(0x12 : Byte) ++ r.count] := by
  cases hm : encodeRuns (firstRun c) cs with
  | none =>
    obtain ⟨u, hu, hfault⟩ := execAll_rleIn_overflow (s := setRle RleRegs.clear s) hp
      ((encodeRuns_clear_cons c cs).trans hm)
    rw [execAll_rleCommands hp, hu] at h
    cases h
    rw [ht] at hfault
    cases hfault
  | some p =>
    rw [execAll_rleCommands_some hp hm] at h
    cases h
    exact ⟨p.1, p.2, rfl, rfl⟩

/-! ### Run lengths (R82, R83) -/

/-- Settles O20: without an overflow the sequence is a run of the encoder from the first symbol's run,
whose counts expand to the symbols. -/
theorem runLengthsReconstructTheSymbols : Obligations.RunLengthsReconstructTheSymbols := by
  intro v₁ v s t hp h ht
  obtain ⟨rs, r, hm, hrsp⟩ := execAll_rleCommands_next hp h ht
  have hexpand : expandRuns v₁ ((rs ++ [r.count]).map BitVec.toNat) = v₁ :: v :=
    expandRuns_encodeRuns rfl hm
  exact ⟨rs, r.count, hrsp, hexpand, by rw [← expandRuns_length v₁, hexpand]⟩

/-- Settles O21: the run lengths are the encoder's counts from the first symbol's run; there is at most
one change at each symbol after the first. -/
theorem runLengthBounds : Obligations.RunLengthBounds := by
  refine ⟨fun v₁ v s t hp h ht => ?_, fun v₁ v s hp hlen => ?_⟩
  · obtain ⟨rs, r, hm, hrsp⟩ := execAll_rleCommands_next hp h ht
    have hchanges : rs.length = ((v₁ :: v).zip v).countP (fun p => p.1 != p.2) :=
      encodeRuns_length rfl hm
    refine ⟨rs, r.count, hrsp, encodeRuns_pos rfl le_rfl hm, hchanges, ?_⟩
    calc rs.length + 1
        ≤ ((v₁ :: v).zip v).length + 1 := by rw [hchanges]; gcongr; exact List.countP_le_length
      _ ≤ (v₁ :: v).length := by simp
  · rw [List.length_cons, Nat.add_comm] at hlen
    obtain ⟨ns, r, hm⟩ := encodeRuns_total (st := firstRun v₁) hlen
    exact ⟨_, execAll_rleCommands_some hp hm, hp⟩

end Sys2Proof.Machine

/-! The latency compensator (R84 to R87). `lc` is the product P_TSWITCH·(n − 1) on naturals where
that fits 24 bits (`lc_some_iff`, `lc_none_iff`); the response of LC.IN and the laws of the compensation
are read off that product. -/

namespace Sys2Proof.Machine

/-! ### The formula (R84) -/

/-- R84's duration max(0, t·(n − 1)) is the product with the natural n − 1, which is 0 for n = 0. -/
theorem compensation_eq_natMul (t n : Nat) :
    max 0 ((t : Int) * ((n : Int) - 1)) = (t * (n - 1) : Nat) := by
  cases n with
  | zero => simp
  | succ m => simp [mul_nonneg]

/-- A product that fits 24 bits is the compensated duration. -/
theorem lc_of_lt {t : BitVec 8} {n : U24} (h : t.toNat * (n.toNat - 1) < 2 ^ 24) :
    lc t n = some (BitVec.ofNat 24 (t.toNat * (n.toNat - 1))) := by
  rw [lc_some_iff, BitVec.toNat_ofNat, Nat.mod_eq_of_lt h]

/-- A P_TSWITCH of at most 1 does not lengthen the run length, so it fits 24 bits. -/
theorem lc_ne_none_of_le_one {t : BitVec 8} (ht : t.toNat ≤ 1) (n : U24) : lc t n ≠ none := by
  rw [Ne, lc_none_iff, not_le]
  calc t.toNat * (n.toNat - 1)
      ≤ 1 * (n.toNat - 1) := Nat.mul_le_mul_right _ ht
    _ < 2 ^ 24 := by omega

/-- The largest run length k that fits, by the products for k and for k + 1. -/
theorem lc_none_iff_threshold {t : BitVec 8} {n : U24} {k : Nat}
    (hfits : t.toNat * (k - 1) < 2 ^ 24) (hover : 2 ^ 24 ≤ t.toNat * k) :
    lc t n = none ↔ k < n.toNat := by
  rw [lc_none_iff]
  constructor <;> intro h
  · by_contra! hle
    have : t.toNat * (n.toNat - 1) ≤ t.toNat * (k - 1) := by gcongr
    omega
  · exact hover.trans (Nat.mul_le_mul_left _ (Nat.le_sub_one_of_lt h))

/-- Settles O22: the two answers of `lc`, with the largest run length for each P_TSWITCH. -/
theorem lcIsTheCompensationFormula : Obligations.LcIsTheCompensationFormula := by
  refine ⟨fun t n d => ?_, fun t n => ?_,
    fun n => ⟨lc_ne_none_of_le_one (by decide) n, lc_ne_none_of_le_one (by decide) n⟩,
    fun n => lc_none_iff_threshold (by decide) (by decide),
    fun n => lc_none_iff_threshold (by decide) (by decide), lc_of_lt (by decide),
    lc_of_lt (by decide)⟩
  · rw [lc_some_iff, compensation_eq_natMul, Nat.cast_inj]
  · rw [lc_none_iff, compensation_eq_natMul]
    omega

/-! ### The command (R85) -/

section
variable {s : State} {n : U24}

theorem exec_lcIn_some {d : U24} (hp : s.phase = .idle) (h : lc s.params.tSwitch n = some d) :
    exec (.lcIn n) s = .next (emit 0x20 d s) := by
  rw [exec, execLcIn, whenIdle_idle hp, h]

theorem exec_lcIn_none (hp : s.phase = .idle) (h : lc s.params.tSwitch n = none) :
    exec (.lcIn n) s = .next (enterFault .durOverflow 0x20 s) := by
  rw [exec, execLcIn, whenIdle_idle hp, h]
  rfl

theorem exec_lcIn_faulted (hp : s.phase = .faulted) :
    exec (.lcIn n) s = .next (refuseFaulted s) := by
  rw [exec, execLcIn, whenIdle_faulted hp]

end

/-- Settles O23: LC.IN answers `lc`; the fault word is that of DUR_OVERFLOW in OP 0x20. -/
theorem lcInCompensatesOneRun : Obligations.LcInCompensatesOneRun :=
  ⟨fun n => decodeOfEncodeIsTheCommand (.lcIn n),
    fun _ _ hp hfits => exec_lcIn_some hp (lc_of_lt hfits),
    fun _ _ hp hover => exec_lcIn_none hp (lc_none_iff.2 hover),
    fun _ _ => exec_lcIn_faulted⟩

/-! ### The laws (R86, R87) -/

/-- A run length of at most 1 needs no time of its own. -/
theorem lc_eq_zero_of_le_one (t : BitVec 8) {n : U24} (h : n.toNat ≤ 1) : lc t n = some 0 := by
  simp [lc_some_iff, Nat.sub_eq_zero_of_le h]

/-- R86: one symbol more in a run costs P_TSWITCH. -/
theorem lc_succ {t : BitVec 8} {n m d e : U24} (hn : 1 ≤ n.toNat) (hm : m.toNat = n.toNat + 1)
    (hd : lc t n = some d) (he : lc t m = some e) : e.toNat = d.toNat + t.toNat := by
  rw [lc_add_switch hd hn, lc_some_iff.1 he, hm, Nat.add_sub_cancel]

/-- R86: a longer run does not take less time. -/
theorem lc_mono {t : BitVec 8} {n m d e : U24} (h : n.toNat ≤ m.toNat)
    (hd : lc t n = some d) (he : lc t m = some e) : d.toNat ≤ e.toNat := by
  rw [lc_some_iff.1 hd, lc_some_iff.1 he]
  gcongr

/-- Everything that `pad_durations` answers over one run length and more. -/
theorem padDurations_cons_some {t : BitVec 8} {n : U24} {ns ds : List U24}
    (h : padDurations t (n :: ns) = some ds) :
    ∃ d es, lc t n = some d ∧ padDurations t ns = some es ∧ ds = d :: es := by
  simp only [padDurations, List.mapM_cons, Option.bind_eq_bind, Option.bind_eq_some_iff,
    Option.pure_def, Option.some.injEq] at h
  obtain ⟨d, hd, es, hes, rfl⟩ := h
  exact ⟨d, es, hd, hes, rfl⟩

/-- One duration per run length. -/
theorem padDurations_length {t : BitVec 8} {ns ds : List U24} (h : padDurations t ns = some ds) :
    ds.length = ns.length := by
  induction ns generalizing ds with
  | nil => cases h; rfl
  | cons n ns ih =>
    obtain ⟨d, es, -, hes, rfl⟩ := padDurations_cons_some h
    rw [List.length_cons, List.length_cons, ih hes]

/-- R87: the durations and P_TSWITCH per segment sum to P_TSWITCH per symbol. -/
theorem totalSum_padDurations {t : BitVec 8} {ns ds : List U24} (hns : ∀ n ∈ ns, 1 ≤ n.toNat)
    (h : padDurations t ns = some ds) : totalSum t ds = t.toNat * (ns.map BitVec.toNat).sum := by
  induction ns generalizing ds with
  | nil => cases h; simp [totalSum]
  | cons n ns ih =>
    obtain ⟨hn, hns⟩ := List.forall_mem_cons.1 hns
    obtain ⟨d, es, hd, hes, rfl⟩ := padDurations_cons_some h
    calc totalSum t (d :: es)
        = (d.toNat + t.toNat) + totalSum t es := by
          simp only [totalSum, List.map_cons, List.sum_cons, List.length_cons]
          ring
      _ = t.toNat * n.toNat + t.toNat * (ns.map BitVec.toNat).sum := by
          rw [lc_add_switch hd hn, ih hns hes]
      _ = t.toNat * ((n :: ns).map BitVec.toNat).sum := by
          rw [List.map_cons, List.sum_cons, Nat.mul_add]

/-- Settles O24: a run costs P_TSWITCH per symbol, and the runs' costs add up. -/
theorem compensationLaws : Obligations.CompensationLaws := by
  refine ⟨fun t => ⟨lc_eq_zero_of_le_one t (by decide), lc_eq_zero_of_le_one t (by decide)⟩,
    fun t n m d e => lc_succ, fun t n m d e => lc_mono, fun t n d hn hd => lc_add_switch hd hn,
    fun t ns ds hns h => ?_⟩
  rw [← padDurations_length h]
  exact totalSum_padDurations hns h

end Sys2Proof.Machine

/-! The polarity mapper (R88 to R90). `pm` answers one of two values, and both survive the 2-bit drive
code of a response; PM.IN emits that code for the truthiness of its whole operand. -/

namespace Sys2Proof.Machine

/-! ### The two values and their drive codes (R62, R88, R90) -/

theorem pm_of_ne_zero {x : Nat} (h : x ≠ 0) : pm x = 1 := (pm_eq_one_iff x).2 h

theorem pm_range (x : Nat) : pm x = -1 ∨ pm x = 1 := by
  by_cases h : x = 0
  · exact .inl (by rw [h]; rfl)
  · exact .inr (pm_of_ne_zero h)

/-- A drive value is read back from its code alone: the tag takes no part (R62). -/
theorem driveValue_append (tag : Byte) (v : Int) :
    driveValue (tag ++ driveVal v) = (BitVec.ofInt 2 v).toInt := by
  have hval : respVal (tag ++ driveVal v : Word) = driveVal v := argField_append tag (driveVal v)
  rw [driveValue, hval, driveVal, BitVec.extractLsb'_append_eq_right]

/-- R90: −1 and +1 both fit the 2-bit code, whatever the tag. -/
theorem driveValue_pm (tag : Byte) (x : Nat) : driveValue (tag ++ driveVal (pm x)) = pm x := by
  rw [driveValue_append]
  rcases pm_range x with h | h <;> rw [h] <;> rfl

/-- Settles O26: `pm` is +1 exactly off 0 and −1 otherwise, and the drive code keeps both values. -/
theorem pmRangeAndPairing : Obligations.PmRangeAndPairing := fun x =>
  ⟨pm_range x, pm_eq_one_iff x, driveValue_pm 0x30 x, driveValue_pm 0x40 x⟩

/-! ### The command (R89) -/

/-- The PM.D word of an operand: only the operand 0, over all 24 bits, has the code of −1. -/
theorem pmWord_eq (x : U24) :
    (0x30 : Byte) ++ driveVal (pm (valueOperand x)) = if x = 0 then 0x30000003 else 0x30000001 := by
  by_cases h : x = 0
  · rw [if_pos h, h]
    rfl
  · have hx : valueOperand x ≠ 0 := fun hz => h (BitVec.eq_of_toNat_eq hz)
    rw [if_neg h, pm_of_ne_zero hx]
    rfl

theorem exec_pmIn_idle {s : State} (x : U24) (hp : s.phase = .idle) :
    exec (.pmIn x) s = .next (emit 0x30 (driveVal (pm (valueOperand x))) s) := by
  rw [exec, execPmIn, whenIdle_idle hp]

theorem exec_pmIn_faulted {s : State} (x : U24) (hp : s.phase = .faulted) :
    exec (.pmIn x) s = .next (refuseFaulted s) := by
  rw [exec, execPmIn, whenIdle_faulted hp]

/-- Settles O25: in IDLE the PM.D word of the operand is all that PM.IN adds; FAULTED refuses it. -/
theorem pmInMapsTruthiness : Obligations.PmInMapsTruthiness := by
  refine ⟨fun x => decodeOfEncodeIsTheCommand (.pmIn x), fun x s hp => ?_,
    fun x _ => exec_pmIn_faulted x⟩
  rw [exec_pmIn_idle x hp, emit, pmWord_eq]

end Sys2Proof.Machine

/-! The executor's moves and the end of a PIPE.RUN (R93, R94, R100 to R103, R108). Each move has one
lemma per answer; pin states one after another run `driven` (`runSteps_pins`), so a run in OBSERVE
is its drive words and then the answer to the executor's last move. -/

namespace Sys2Proof.Machine

/-! ### PIPE.RUN: acceptance (R93, R94) -/

section
variable {s : State} {n : U24}

theorem exec_pipeRun_zero (hp : s.phase = .idle) :
    exec (.pipeRun 0) s = .next (enterFault .badN 0x40 s) := by
  rw [exec, execPipeRun, whenIdle_idle hp]
  rfl

theorem exec_pipeRun_capacity (hp : s.phase = .idle) (hn : n ≠ 0) (hcap : s.params.maxN < n.toNat) :
    exec (.pipeRun n) s = .next (enterFault .capacity 0x40 s) := by
  have hzero : valueOperand n ≠ 0 := fun h => hn (BitVec.eq_of_toNat_eq h)
  rw [exec, execPipeRun, whenIdle_idle hp, if_neg hzero, valueOperand, if_pos hcap]
  rfl

theorem exec_pipeRun_accepts (hp : s.phase = .idle) (hn : n ≠ 0) (hle : n.toNat ≤ s.params.maxN) :
    exec (.pipeRun n) s = .next (startRun n s) := by
  have hzero : valueOperand n ≠ 0 := fun h => hn (BitVec.eq_of_toNat_eq h)
  rw [exec, execPipeRun, whenIdle_idle hp, if_neg hzero, valueOperand, if_neg (not_lt.2 hle)]

theorem exec_pipeRun_faulted (hp : s.phase = .faulted) :
    exec (.pipeRun n) s = .next (refuseFaulted s) := by
  rw [exec, execPipeRun, whenIdle_faulted hp]

end

/-- Settles O37: the checks in order, then the start step, whose writes are its definition. -/
theorem pipeRunChecksAndStarts : Obligations.PipeRunChecksAndStarts :=
  ⟨fun n => decodeOfEncodeIsTheCommand (.pipeRun n), fun _ => exec_pipeRun_zero,
    fun _ _ => exec_pipeRun_capacity, fun _ _ => exec_pipeRun_accepts,
    fun _ _ => exec_pipeRun_faulted⟩

/-! ### The executor's moves, answer by answer (R100 to R102) -/

/-- The response word of a pin state, PIPE.DRIVE (R60, R100). -/
def driveWord (b : Bool) : Word := (0x40 : Byte) ++ driveVal (pm b.toNat)

theorem driveWord_eq (b : Bool) : driveWord b = if b then 0x40000001 else 0x40000003 := by
  cases b <;> rfl

/-- `s` after the pin states `pins` were taken: each emitted and counted (R100). -/
def driven (pins : List Bool) (s : State) : State :=
  respond (pins.map driveWord) { s with ticks := s.ticks + BitVec.ofNat 24 pins.length }

/-- `s` after the termination that completes the run (R101). -/
def completed (s : State) : State :=
  { setQe 0 (emit 0x41 s.total s) with execStarted := false, phase := .idle }

section
variable {s : State} {b : Bool}

theorem pinStep_counts (hp : s.phase = .observe) (hlt : s.ticks.toNat < s.total.toNat) :
    pinStep b s = .next (driven [b] s) := by
  have hne : s.ticks ≠ s.total := fun h => hlt.ne (congrArg BitVec.toNat h)
  have hfits : ¬ maxU24 < s.ticks.toNat + 1 := by
    rw [maxU24]
    omega
  simp only [pinStep, hp, if_neg hne, if_neg hfits]
  rfl

theorem pinStep_past_total (hp : s.phase = .observe) (h : s.ticks = s.total) :
    pinStep b s = .next (enterFault .execProtocol pipeOp s) := by
  simp only [pinStep, hp, if_pos h]
  rfl

theorem pinStep_refused (hp : s.phase ≠ .observe) : pinStep b s = .next s := by
  unfold pinStep
  split
  · exact absurd ‹_› hp
  all_goals rfl

theorem doneStep_completes (hp : s.phase = .observe) (h : s.ticks = s.total) :
    doneStep s = .next (completed s) := by
  simp only [doneStep, hp, h, ne_eq, not_true_eq_false, if_false]
  rfl

theorem doneStep_early (hp : s.phase = .observe) (h : s.ticks ≠ s.total) :
    doneStep s = .next (enterFault .execProtocol pipeOp s) := by
  simp only [doneStep, hp, if_pos h]
  rfl

theorem doneStep_refused (hp : s.phase ≠ .observe) : doneStep s = .next s := by
  unfold doneStep
  split
  · exact absurd ‹_› hp
  all_goals rfl

theorem execErrorStep_faults (hp : s.phase = .handoff ∨ s.phase = .observe) :
    execErrorStep s = .next (enterFault .execError pipeOp s) := by
  rcases hp with hp | hp <;> simp only [execErrorStep, hp] <;> rfl

theorem execErrorStep_refused (hh : s.phase ≠ .handoff) (ho : s.phase ≠ .observe) :
    execErrorStep s = .next s := by
  unfold execErrorStep
  split
  · exact absurd ‹_› hh
  · exact absurd ‹_› ho
  all_goals rfl

end

/-- Settles O42: each clause is one answer of the move's step, on the state without the move. -/
theorem executorMovesActInTheirPhases : Obligations.ExecutorMovesActInTheirPhases := by
  refine ⟨fun s b es henv hp h => ?_, fun s b es henv hp hlt => ?_, fun s b es henv hp => ?_,
    fun s es henv hp => ?_, fun s es henv hp => ?_, fun s es henv hh ho => ?_⟩ <;>
    rw [step_of_env_cons henv, eventStep]
  · exact pinStep_past_total (s := s.withEnv es) hp h
  · rw [← driveWord_eq]
    exact pinStep_counts (s := s.withEnv es) hp hlt
  · exact pinStep_refused (s := s.withEnv es) hp
  · exact doneStep_refused (s := s.withEnv es) hp
  · exact execErrorStep_faults (s := s.withEnv es) hp
  · exact execErrorStep_refused (s := s.withEnv es) hh ho

/-- Settles O43: the two answers of the completion step. -/
theorem terminationCompletesTheRun : Obligations.TerminationCompletesTheRun := by
  refine ⟨fun s es henv hp h => ?_, fun s es henv hp h => ?_⟩ <;>
    rw [step_of_env_cons henv, eventStep]
  · exact doneStep_completes (s := s.withEnv es) hp h
  · exact doneStep_early (s := s.withEnv es) hp h

/-! ### Several steps -/

section
variable {s t : State}

theorem runSteps_succ (h : step s = .next t) (k : Nat) : runSteps (k + 1) s = runSteps k t := by
  simp only [runSteps, h]

theorem runSteps_one (h : step s = .next t) : runSteps 1 s = .next t := runSteps_succ h 0

theorem runSteps_add {j : Nat} (h : runSteps j s = .next t) (k : Nat) :
    runSteps (j + k) s = runSteps k t := by
  induction j generalizing s with
  | zero => cases h; rw [Nat.zero_add]
  | succ j ih =>
    rw [Nat.succ_add]
    cases hstep : step s with
    | next u =>
      rw [runSteps_succ hstep] at h ⊢
      exact ih h
    | fault f => simp [runSteps, hstep] at h
    | refused r => simp [runSteps, hstep] at h

theorem runSteps_snoc {u : State} {j : Nat} (h : runSteps j s = .next t)
    (hstep : step t = .next u) : runSteps (j + 1) s = .next u :=
  (runSteps_add h 1).trans (runSteps_one hstep)

end

/-! ### A silent executor (R103) -/

/-- Settles O44, move by move: a quiet move is the CORE's wait, and HOST's two moves change one
stream each. -/
theorem silentExecutorHangsTheCore : Obligations.SilentExecutorHangsTheCore := by
  intro s k hp hsilent
  induction k generalizing s with
  | zero => simp [runSteps]
  | succ k ih =>
    cases henv : s.env with
    | nil =>
      have hwait : step s = .next s := (step_of_env_nil henv).trans (coreStep_observe hp)
      rw [runSteps_succ hwait, ih s hp hsilent]
      simp [henv]
    | cons e es =>
      have hrest := (List.forall_mem_cons.1 (henv ▸ hsilent)).2
      rcases hsilent e (henv ▸ List.mem_cons_self) with rfl | ⟨w, rfl⟩ | rfl
      · have hstep : step s = .next (s.withEnv es) :=
          (step_of_env_quiet henv).trans (coreStep_observe hp)
        rw [runSteps_succ hstep, ih (s.withEnv es) hp hrest]
        simp [State.withEnv]
      · have hstep : step s = .next (writeCommand w (s.withEnv es)) := step_of_env_cons henv
        rw [runSteps_succ hstep, ih (writeCommand w (s.withEnv es)) hp hrest]
        simp [State.withEnv, writeCommand]
      · have hstep : step s = .next (takeResponse (s.withEnv es)) := step_of_env_cons henv
        rw [runSteps_succ hstep, ih (takeResponse (s.withEnv es)) hp hrest]
        simp [State.withEnv, takeResponse]

/-! ### A run in OBSERVE (R100, R108) -/

theorem driven_driven (ps qs : List Bool) (s : State) :
    driven qs (driven ps s) = driven (ps ++ qs) s := by
  simp [driven, respond, BitVec.ofNat_add, BitVec.add_assoc]

theorem driven_nil (s : State) : driven [] s = s := by
  simp [driven, respond]

theorem driven_ticks {pins : List Bool} {s : State} (h : s.ticks = 0) :
    (driven pins s).ticks = BitVec.ofNat 24 pins.length := by
  simp [driven, respond, h]

/-- Pin states up to TOTAL, offered one after another, are all taken (R100). -/
theorem runSteps_pins {pins : List Bool} {es : List Event} {s : State} (hp : s.phase = .observe)
    (henv : s.env = pins.map Event.pin ++ es) (hle : s.ticks.toNat + pins.length ≤ s.total.toNat) :
    runSteps pins.length s = .next (driven pins (s.withEnv es)) := by
  induction pins generalizing s with
  | nil =>
    obtain rfl : s.env = es := henv
    rw [driven_nil]
    rfl
  | cons b pins ih =>
    rw [List.length_cons] at hle ⊢
    have hstep : step s = .next (driven [b] (s.withEnv (pins.map Event.pin ++ es))) :=
      (step_of_env_cons henv).trans (pinStep_counts hp (by omega : s.ticks.toNat < s.total.toNat))
    have hticks : (s.ticks + 1).toNat = s.ticks.toNat + 1 := by bv_omega
    have hcount : (s.ticks + 1).toNat + pins.length ≤ s.total.toNat := by omega
    rw [runSteps_succ hstep,
      ih (s := driven [b] (s.withEnv (pins.map Event.pin ++ es))) hp rfl hcount]
    exact congrArg Host.Outcome.next (driven_driven [b] pins (s.withEnv es))

/-- Pin states up to TOTAL from the start of OBSERVE, and then another move of the executor. -/
theorem runSteps_pins_then {pins : List Bool} {e : Event} {es : List Event} {s : State}
    (hp : s.phase = .observe) (hzero : s.ticks = 0) (henv : s.env = pins.map Event.pin ++ e :: es)
    (hle : pins.length ≤ s.total.toNat) :
    runSteps (pins.length + 1) s = eventStep e (driven pins (s.withEnv es)) := by
  have hpins := runSteps_pins hp henv (by simpa [hzero] using hle)
  rw [runSteps_add hpins]
  have hlast : step (driven pins (s.withEnv (e :: es))) =
      eventStep e (driven pins (s.withEnv es)) := step_of_env_cons rfl
  cases h : eventStep e (driven pins (s.withEnv es)) <;> simp only [runSteps, hlast, h]

/-- TICKS after pin states from the start of OBSERVE is TOTAL exactly when they are TOTAL many. -/
theorem driven_ticks_eq_total_iff {pins : List Bool} {s : State} (hzero : s.ticks = 0)
    (hle : pins.length ≤ s.total.toNat) :
    (driven pins s).ticks = (driven pins s).total ↔ pins.length = s.total.toNat := by
  have hlt : pins.length < 2 ^ 24 := hle.trans_lt s.total.isLt
  have htotal : (driven pins s).total = s.total := rfl
  rw [driven_ticks hzero, htotal, BitVec.toNat_eq, BitVec.toNat_ofNat, Nat.mod_eq_of_lt hlt]

/-! ### The result (R108, R138) -/

theorem respTag_driveWord (b : Bool) : respTag (driveWord b) = 0x40 := opField_append _ _

theorem respTag_done (total : U24) : respTag ((0x41 : Byte) ++ total) = 0x41 := opField_append _ _

/-- Drive words in front of a result are its first drive values. -/
theorem pipeResult_drives (pins : List Bool) (ws : List Word) :
    pipeResult (pins.map driveWord ++ ws) =
      (pipeResult ws).map (invert (pins.map Bool.toNat) ++ ·) := by
  induction pins with
  | nil => simp [invert]
  | cons b pins ih =>
    have hvalue : driveValue (driveWord b) = pm b.toNat := driveValue_pm 0x40 b.toNat
    rw [List.map_cons, List.cons_append, pipeResult, if_pos (respTag_driveWord b), ih, hvalue]
    cases pipeResult ws <;> rfl

/-- Drive words and then PIPE.DONE give their values (R108). -/
theorem pipeResult_completed (pins : List Bool) (total : U24) :
    pipeResult (pins.map driveWord ++ [(0x41 : Byte) ++ total]) =
      some (invert (pins.map Bool.toNat)) := by
  rw [pipeResult_drives, pipeResult, respTag_done]
  simp

/-- Without a PIPE.DONE there is no result (R138). -/
theorem pipeResult_of_no_done {ws : List Word} (h : ∀ w ∈ ws, respTag w ≠ 0x41) :
    pipeResult ws = none := by
  induction ws with
  | nil => rfl
  | cons w ws ih =>
    obtain ⟨hw, hws⟩ := List.forall_mem_cons.1 h
    rw [pipeResult, ih hws, if_neg hw]
    split <;> rfl

/-- TOTAL pin states and termination complete the run (R100, R101). -/
theorem runSteps_completed {pins : List Bool} {es : List Event} {s : State}
    (hp : s.phase = .observe) (hzero : s.ticks = 0) (hlen : pins.length = s.total.toNat)
    (henv : s.env = pins.map Event.pin ++ .done :: es) :
    runSteps (pins.length + 1) s = .next (completed (driven pins (s.withEnv es))) :=
  have hticks := (driven_ticks_eq_total_iff (s := s.withEnv es) hzero hlen.le).2 hlen
  (runSteps_pins_then hp hzero henv hlen.le).trans (doneStep_completes hp hticks)

/-- Settles O45: the pin states' drive words and PIPE.DONE are what the run adds to RSP. -/
theorem observedRunGivesItsResult : Obligations.ObservedRunGivesItsResult := by
  intro s pins es hinv hp hzero hlen henv
  refine ⟨completed (driven pins (s.withEnv es)), pins.map driveWord,
    runSteps_completed hp hzero hlen henv, rfl, rfl, (hinv.observe hp).rleDone, rfl, rfl,
    by rw [List.length_map, hlen], pipeResult_completed pins s.total, fun v hv => ?_⟩
  obtain ⟨x, -, rfl⟩ := List.mem_map.1 hv
  exact pm_range x

/-- The executor's last move of a run that fails with `c` after `pins` (R100 to R102). -/
def FailsAfter (pins : List Bool) (total : Nat) (e : Event) (c : Cause) : Prop :=
  (e = .execError ∧ pins.length ≤ total ∧ c = .execError) ∨
    ((∃ b, e = .pin b) ∧ pins.length = total ∧ c = .execProtocol) ∨
    (e = .done ∧ pins.length < total ∧ c = .execProtocol)

theorem FailsAfter.length_le {pins : List Bool} {total : Nat} {e : Event} {c : Cause}
    (h : FailsAfter pins total e c) : pins.length ≤ total := by
  rcases h with ⟨-, hle, -⟩ | ⟨-, heq, -⟩ | ⟨-, hlt, -⟩
  · exact hle
  · exact heq.le
  · exact hlt.le

/-- A run that fails keeps its drive words and enters FAULTED, writing nothing else (R118, R119). -/
theorem runSteps_fails {pins : List Bool} {e : Event} {c : Cause} {es : List Event} {s : State}
    (hp : s.phase = .observe) (hzero : s.ticks = 0) (henv : s.env = pins.map Event.pin ++ e :: es)
    (h : FailsAfter pins s.total.toNat e c) :
    runSteps (pins.length + 1) s = .next (enterFault c pipeOp (driven pins (s.withEnv es))) := by
  rw [runSteps_pins_then hp hzero henv h.length_le]
  have hticks := driven_ticks_eq_total_iff (pins := pins) (s := s.withEnv es) hzero h.length_le
  rcases h with ⟨rfl, -, rfl⟩ | ⟨⟨b, rfl⟩, heq, rfl⟩ | ⟨rfl, hlt, rfl⟩
  · exact execErrorStep_faults (.inr hp)
  · exact pinStep_past_total hp (hticks.2 heq)
  · exact doneStep_early hp (mt hticks.1 hlt.ne)

/-- The words of a run that fails have no PIPE.DONE among them. -/
theorem pipeResult_fails (pins : List Bool) (val : U24) :
    pipeResult (pins.map driveWord ++ [(0xFF : Byte) ++ val]) = none := by
  have htag : respTag ((0xFF : Byte) ++ val : Word) = 0xFF := opField_append _ _
  rw [pipeResult_drives, pipeResult, htag]
  rfl

/-- Settles O46: the run's drive words, then the FAULT word, and no PIPE.DONE. -/
theorem failedRunHasNoResult : Obligations.FailedRunHasNoResult := by
  refine ⟨fun s pins e c es hp hzero henv h => ?_, fun s es hp henv => ⟨?_, ?_⟩,
    fun ws => pipeResult_of_no_done⟩
  · have hwords : (fun b : Bool => if b then (0x40000001 : Word) else 0x40000003) = driveWord :=
      funext fun b => (driveWord_eq b).symm
    simp only [hwords]
    refine ⟨?_, pipeResult_fails pins _⟩
    rw [runSteps_fails hp hzero henv h]
    simp [enterFault, emit, driven, respond, State.withEnv, hzero, faultVal, pipeOp]
  · exact (step_of_env_cons henv).trans (execErrorStep_faults (.inl hp))
  · exact pipeResult_fails [] 0x004008

end Sys2Proof.Machine

/-! The CORE's steps of a PIPE.RUN in the states of the invariant (R95 to R99, R105). What the
sample steps have done so far is the stages over the samples so far (`StagesSoFar`): the
accumulator, the encoder's registers and the entries of SEG_BUF are those of the stages one after
the other. So after the flush step SEG_BUF holds the stages of the whole sequence, and the handoff
steps deliver them in reverse. -/

namespace Sys2Proof.Machine

/-! ### One step (R95 to R98) -/

section
variable {s t : State}

/-- While samples are left, the step with no move pending is the sample step (R95). -/
theorem step_sample (hp : s.phase = .compute) (henv : s.env = []) (hi : s.smpIdx ≤ s.smpN.toNat) :
    step s = sampleStep s := by
  rw [step_of_env_nil henv, coreStep_compute hp, computeStep, if_pos hi]

/-- After the last sample, the step with no move pending is the flush step (R96). -/
theorem step_flush (hp : s.phase = .compute) (henv : s.env = [])
    (hi : s.smpIdx = s.smpN.toNat + 1) : step s = flushStep s := by
  rw [step_of_env_nil henv, coreStep_compute hp, computeStep, if_neg (by omega), if_pos hi]

/-- While words are left, the step with no move pending is the handoff step (R98). -/
theorem step_handoff (hp : s.phase = .handoff) (henv : s.env = []) (hpos : 0 < s.hndIdx) :
    step s = handoffStep s := by
  rw [step_of_env_nil henv, coreStep_handoff hp, if_pos hpos]

/-- After the last word, the step with no move pending starts the executor (R99). -/
theorem step_launch (hp : s.phase = .handoff) (henv : s.env = []) (hzero : s.hndIdx = 0) :
    step s = .next { s with execStarted := true, execDur := s.total, phase := .observe } := by
  rw [step_of_env_nil henv, coreStep_handoff hp, if_neg (by omega)]
  rfl

/-- Everything that a sample step answers in the states of a run (R95, R105). -/
theorem sampleStep_answer (h : s.BaseInv) (hc : s.ComputeInv) (hi : s.smpIdx ≤ s.smpN.toNat) :
    (∃ q r, sampleStep s = .next (sampleWrites q r s)) ∨
      ∃ d q r, sampleStep s = .next (appendSeg d (sampleWrites q r s)) := by
  obtain ⟨x, c, q, e, r, -, -, -, -, hnone, hsome⟩ := sampleStep_of_inv h hc hi
  cases e with
  | none => exact .inl ⟨q, r, hnone rfl⟩
  | some n =>
    obtain ⟨d, -, hstep⟩ := hsome n rfl
    exact .inr ⟨d, q, r, hstep⟩

end

/-- Settles O38: the sample step of the states of a run, its writes written out. -/
theorem sampleStepAdvancesTheRun : Obligations.SampleStepAdvancesTheRun := by
  intro s hinv hp henv hi
  rw [step_sample hp henv hi]
  obtain ⟨x, c, q, e, r, hx, hd, -, hr, hnone, hsome⟩ :=
    sampleStep_of_inv hinv.base (hinv.compute hp) hi
  exact ⟨x, c, q, e, r, hx, hd, hr, hnone, hsome⟩

/-- Settles O39: the flush step of the states of a run; TOTAL is P_TSWITCH·(N + 1), which fits. -/
theorem flushStepFormsTotal : Obligations.FlushStepFormsTotal := by
  intro s hinv hp henv hi
  rw [step_flush hp henv hi]
  obtain ⟨d, ds, hd, hds, htotal, hstep⟩ := flushStep_of_inv hinv.base (hinv.compute hp) hi
  have hsum : totalSum s.params.tSwitch (ds ++ [d]) =
      (ds.map BitVec.toNat).sum + d.toNat + s.params.tSwitch.toNat * (s.segK + 1) := by
    rw [totalSum_append, totalSum, segReadAll_length hds]
    ring
  have hfits := totalTicks_lt hinv.base
  rw [← htotal, hsum] at hfits
  rw [hsum] at hstep
  exact ⟨d, ds, hd, hds, hfits, hstep⟩

/-! ### Only the executor makes a run fail (R105, R116) -/

section
variable {s t : State}

/-- The CORE's own steps of a PIPE.RUN do not fault in the states of a run (R105). -/
theorem coreStep_no_fault (h : s.Inv) (hbusy : s.busy = true) (ht : coreStep s = .next t) :
    t.phase ≠ .faulted := by
  cases hp : s.phase with
  | idle | faulted => simp [State.busy, hp] at hbusy
  | compute =>
    have hc := h.compute hp
    rw [coreStep_compute hp, computeStep] at ht
    split at ht
    · rcases sampleStep_answer h.base hc ‹_› with ⟨q, r, hs⟩ | ⟨d, q, r, hs⟩ <;>
        cases hs.symm.trans ht <;> simp [appendSeg, hp]
    · split at ht
      · obtain ⟨d, ds, -, -, -, hs⟩ := flushStep_of_inv h.base hc ‹_›
        cases hs.symm.trans ht
        simp [flushWrites]
      · cases ht
        simp [hp]
  | handoff =>
    rw [coreStep_handoff hp] at ht
    split at ht
    · obtain ⟨w, rfl⟩ := handoffStep_cases ht
      simp [hp]
    · cases ht
      simp
  | observe =>
    cases (coreStep_observe hp).symm.trans ht
    simp [hp]

/-- The fault that an outside move makes in a PIPE.RUN (R100 to R102). -/
theorem eventStep_fault {e : Event} (h : s.Inv) (hbusy : s.busy = true)
    (ht : eventStep e s = .next t) (hf : t.phase = .faulted) :
    (t.cause = .execError ∧ (s.phase = .handoff ∨ s.phase = .observe)) ∨
      (t.cause = .execProtocol ∧ s.phase = .observe) := by
  have hrunning : s.phase ≠ .faulted := fun hp => by simp [State.busy, hp] at hbusy
  cases e with
  | quiet => exact absurd hf (coreStep_no_fault h hbusy ht)
  | hostWrite | hostTake =>
    cases ht
    exact absurd hf hrunning
  | rst =>
    cases ht
    cases hf
  | pin b =>
    rcases pinStep_cases ht with ⟨-, rfl⟩ | ⟨hp, ⟨-, rfl⟩ | ⟨-, -, rfl⟩⟩
    · exact absurd hf hrunning
    · exact .inr ⟨rfl, hp⟩
    · exact absurd hf hrunning
  | done =>
    rcases doneStep_cases ht with ⟨-, rfl⟩ | ⟨hp, ⟨-, rfl⟩ | ⟨-, rfl⟩⟩
    · exact absurd hf hrunning
    · exact .inr ⟨rfl, hp⟩
    · cases hf
  | execError =>
    rcases execErrorStep_cases ht with ⟨-, -, rfl⟩ | ⟨hp, rfl⟩
    · exact absurd hf hrunning
    · exact .inl ⟨rfl, hp⟩

end

/-- Settles O32: the CORE's own step does not fault, and of the outside moves the executor's alone
do. -/
theorem acceptedRunFaultsOnlyByTheExecutor : Obligations.AcceptedRunFaultsOnlyByTheExecutor := by
  intro s t h hbusy ht hf
  cases henv : s.env with
  | nil =>
    rw [step_of_env_nil henv] at ht
    exact absurd hf (coreStep_no_fault h hbusy ht)
  | cons e es =>
    rw [step_of_env_cons henv] at ht
    exact eventStep_fault (s := s.withEnv es) (inv_of_streams h rfl) hbusy ht hf

/-! ### The handoff (R98, R99) -/

/-- In the states of HANDOFF, as many steps as words are left deliver them: EXEC_H is then the
reverse of all entries, and nothing else has changed (R98). -/
theorem runSteps_handoff {k : Nat} {s : State} (h : s.Inv) (hp : s.phase = .handoff)
    (henv : s.env = []) (hk : s.hndIdx = k) :
    ∃ ds, segReadAll s s.segK = .ok ds ∧
      runSteps k s = .next { s with hndIdx := 0, execH := ds.reverse } := by
  induction k generalizing s with
  | zero =>
    obtain ⟨ds, hds, -, hwords⟩ := (h.handoff hp).durations
    rw [hk, List.drop_zero] at hwords
    exact ⟨ds, hds, by rw [← hwords, runSteps, ← hk]⟩
  | succ k ih =>
    obtain ⟨-, w, -, -, -, -, hstep⟩ := handoffStep_of_inv (h.handoff hp) (by omega)
    have hinv := handoffStep_inv h hp (by omega) hstep
    obtain ⟨ds, hds, hrun⟩ := ih hinv hp henv (show s.hndIdx - 1 = k by omega)
    refine ⟨ds, segReadAll_of_eq hds rfl rfl, ?_⟩
    rw [runSteps_succ ((step_handoff hp henv (by omega)).trans hstep), hrun]
    rfl

/-- Settles O41: one handoff step, all of them, and the start step. -/
theorem handoffDeliversInReverseAndStarts : Obligations.HandoffDeliversInReverseAndStarts := by
  refine ⟨fun s h hp henv hpos => ?_, fun s h hp henv hall => ?_, fun s hp henv hzero => ?_⟩
  · obtain ⟨-, w, -, -, -, hread, hstep⟩ := handoffStep_of_inv (h.handoff hp) hpos
    exact ⟨w, hread, (step_handoff hp henv hpos).trans hstep⟩
  · obtain ⟨ds, hds, hrun⟩ := runSteps_handoff h hp henv hall
    exact ⟨ds, _, hds, hrun, rfl, hp, rfl⟩
  · exact ⟨_, step_launch hp henv hzero, rfl, rfl⟩

/-! ### The stages over one element more (R91) -/

theorem modulate_snoc {q r r' x : Int} {xs : List Int} {ys : List Bool} {c : Bool}
    (h : modulate q xs = some (ys, r)) (hx : dsmStep r x = some (c, r')) :
    modulate q (xs ++ [x]) = some (ys ++ [c], r') := by
  induction xs generalizing q ys with
  | nil =>
    cases h
    rw [List.nil_append, modulate_cons hx]
    rfl
  | cons y xs ih =>
    obtain ⟨d, q', zs, hd, hm, rfl⟩ := modulate_cons_some h
    rw [List.cons_append, modulate_cons hd, ih hm]
    rfl

theorem encodeRuns_snoc {st r r' : RleRegs} {c : Bool} {cs : List Bool} {ns : List U24}
    {e : Option U24} (h : encodeRuns st cs = some (ns, r)) (hc : rleStep r c = some (e, r')) :
    encodeRuns st (cs ++ [c]) = some (ns ++ e.toList, r') := by
  induction cs generalizing st ns with
  | nil =>
    cases h
    rw [List.nil_append, encodeRuns_cons hc]
    simp [encodeRuns]
  | cons b cs ih =>
    obtain ⟨e', st', ms, hr, hm, rfl⟩ := encodeRuns_cons_some h
    rw [List.cons_append, encodeRuns_cons hr, ih hm]
    simp

theorem padDurations_snoc {t : BitVec 8} {ns ds : List U24} {n d : U24}
    (h : padDurations t ns = some ds) (hd : lc t n = some d) :
    padDurations t (ns ++ [n]) = some (ds ++ [d]) := by
  rw [padDurations] at h ⊢
  rw [mapM_append_option, h, List.mapM_cons, List.mapM_nil, hd]
  rfl

/-! ### The samples taken so far (R95) -/

/-- What the sample steps have made of the samples taken is the stages over them, one after the
other: the symbols lead QE and the encoder's registers here, and the durations of the runs that
ended are the entries of SEG_BUF. -/
def StagesSoFar (s : State) : Prop :=
  ∃ (xs : List Sample) (v : List Bool) (ns ds : List U24),
    (List.range s.smpIdx).mapM (fun i => RefSource.sample s.params.ref i s.smpN.toNat) = some xs ∧
    modulate 0 (xs.map BitVec.toInt) = some (v, s.qe.toInt) ∧ v.length = s.smpIdx ∧
    encodeRuns RleRegs.clear v = some (ns, s.rle) ∧ padDurations s.params.tSwitch ns = some ds ∧
    segReadAll s s.segK = .ok ds

/-- What every step of a PIPE.RUN up to the start of the executor leaves (R94 to R98). -/
structure SameRun (s t : State) : Prop where
  params : t.params = s.params
  rsp : t.rsp = s.rsp
  smpN : t.smpN = s.smpN

theorem SameRun.trans {s t u : State} (h : SameRun s t) (h' : SameRun t u) : SameRun s u :=
  ⟨h'.params.trans h.params, h'.rsp.trans h.rsp, h'.smpN.trans h.smpN⟩

/-- A state of COMPUTE with no move pending, in which the stages agree so far. -/
structure Computing (s : State) : Prop where
  inv : s.Inv
  phase : s.phase = .compute
  env : s.env = []
  stages : StagesSoFar s

theorem startRun_computing {s : State} {n : U24} (h : s.Inv) (hp : s.phase = .idle)
    (henv : s.env = []) (hn : n ≠ 0) (hle : n.toNat ≤ s.params.maxN) :
    Computing (startRun n s) where
  inv := startRun_inv h hp (Nat.pos_of_ne_zero fun h0 => hn (BitVec.eq_of_toNat_eq h0)) hle
  phase := rfl
  env := henv
  stages := ⟨[], [], [], [], rfl, rfl, rfl, rfl, rfl, rfl⟩

/-- One sample more is one element more in each stage, and one entry more where a run ended (R95).
-/
theorem sampleStep_stages {s : State} (h : s.BaseInv) (hc : s.ComputeInv)
    (hi : s.smpIdx ≤ s.smpN.toNat) (hstages : StagesSoFar s) :
    ∃ t, sampleStep s = .next t ∧ StagesSoFar t ∧ SameRun s t ∧ t.smpIdx = s.smpIdx + 1 ∧
      t.phase = s.phase ∧ t.env = s.env := by
  obtain ⟨xs, v, ns, ds, hxs, hv, hlen, hns, hds, hseg⟩ := hstages
  obtain ⟨x, c, q, e, r, hx, hd, hq, hr, hnone, hsome⟩ := sampleStep_of_inv h hc hi
  have hqe : (BitVec.ofInt 32 q).toInt = q := qe_of_bounded hq
  have hxs' : (List.range (s.smpIdx + 1)).mapM
      (fun i => RefSource.sample s.params.ref i s.smpN.toNat) = some (xs ++ [x]) := by
    rw [List.range_succ, mapM_append_option, hxs, List.mapM_cons, List.mapM_nil, hx]
    rfl
  have hv' : modulate 0 ((xs ++ [x]).map BitVec.toInt) =
      some (v ++ [c], (BitVec.ofInt 32 q).toInt) := by
    rw [List.map_append, hqe]
    exact modulate_snoc hv hd
  have hlen' : (v ++ [c]).length = s.smpIdx + 1 := by simp [hlen]
  have hns' := encodeRuns_snoc hns hr
  cases e with
  | none =>
    rw [Option.toList_none, List.append_nil] at hns'
    exact ⟨_, hnone rfl, ⟨xs ++ [x], v ++ [c], ns, ds, hxs', hv', hlen', hns', hds,
      segReadAll_of_eq hseg rfl rfl⟩, ⟨rfl, rfl, rfl⟩, rfl, rfl, rfl⟩
  | some n =>
    obtain ⟨d, hlc, hstep⟩ := hsome n rfl
    have hroom : s.segK < s.params.maxSeg := segK_lt_maxSeg h hc (rleStep_ends hr).1
    have hseg' : segReadAll (appendSeg d (sampleWrites q r s)) (s.segK + 1) = .ok (ds ++ [d]) :=
      segReadAll_appendSeg (s := sampleWrites q r s) (segReadAll_of_eq hseg rfl rfl) hroom
    exact ⟨_, hstep, ⟨xs ++ [x], v ++ [c], ns ++ [n], ds ++ [d], hxs', hv', hlen', hns',
      padDurations_snoc hds hlc, hseg'⟩, ⟨rfl, rfl, rfl⟩, rfl, rfl, rfl⟩

/-- Sample steps one after another, up to the last sample (R95). -/
theorem runSteps_samples {j : Nat} {s : State} (h : Computing s)
    (hj : s.smpIdx + j ≤ s.smpN.toNat + 1) :
    ∃ t, runSteps j s = .next t ∧ Computing t ∧ SameRun s t ∧ t.smpIdx = s.smpIdx + j := by
  induction j with
  | zero => exact ⟨s, rfl, h, ⟨rfl, rfl, rfl⟩, rfl⟩
  | succ j ih =>
    obtain ⟨t, hrun, ht, hsame, hidx⟩ := ih (by omega)
    have hi : t.smpIdx ≤ t.smpN.toNat := by
      rw [hidx, hsame.smpN]
      omega
    obtain ⟨u, hstep, hstages, hsame', hidx', hphase, henv⟩ :=
      sampleStep_stages ht.inv.base (ht.inv.compute ht.phase) hi ht.stages
    exact ⟨u, runSteps_snoc hrun ((step_sample ht.phase ht.env hi).trans hstep),
      ⟨sampleStep_inv ht.inv ht.phase hi hstep, hphase.trans ht.phase, henv.trans ht.env, hstages⟩,
      hsame.trans hsame', by rw [hidx', hidx, Nat.add_assoc]⟩

/-! ### The whole sequence (R95 to R97, R105) -/

/-- The stages of a PIPE.RUN N over the whole sequence, one after the other: symbols, run lengths,
durations (R91). -/
structure Stages (p : Params) (N : Nat) (v : List Bool) (ns ds : List U24) : Prop where
  symbols : pipeSymbols p N = some v
  length : v.length = N + 1
  runs : runLengths v = some ns
  durations : padDurations p.tSwitch ns = some ds

theorem Stages.pipeDurations {p : Params} {N : Nat} {v : List Bool} {ns ds : List U24}
    (h : Stages p N v ns ds) : pipeDurations p N = some ds := by
  simp [Machine.pipeDurations, h.symbols, h.runs, h.durations]

/-- After the last sample the stages so far lack only the run still open. -/
theorem stages_of_stagesSoFar {s : State} (h : s.BaseInv) (hc : s.ComputeInv)
    (hi : s.smpIdx = s.smpN.toNat + 1) (hstages : StagesSoFar s) :
    ∃ v ns ds d, Stages s.params s.smpN.toNat v ns (ds ++ [d]) ∧ segReadAll s s.segK = .ok ds ∧
      lc s.params.tSwitch s.rleCount = some d := by
  obtain ⟨xs, v, ns, ds, hxs, hv, hlen, hns, hds, hseg⟩ := hstages
  rw [hi] at hxs hlen
  obtain ⟨d, hd⟩ := lc_total (t := s.params.tSwitch) (rleCount_le h hc)
  have hend : rleEnd s.rle = some (s.rleCount, RleRegs.clear) :=
    rleEnd_some_iff.2 ⟨rleStarted_at_flush hc hi, rfl, rfl⟩
  exact ⟨v, ns ++ [s.rleCount], ds, d,
    { symbols := by simp [pipeSymbols, sampleAll, hxs, hv]
      length := hlen
      runs := by simp [runLengths, hns, hend]
      durations := padDurations_snoc hds hd }, hseg, hd⟩

/-- The state in which a PIPE.RUN N, started with the parameters and responses of `s`, enters
HANDOFF with the durations `ds` (R96, R97). -/
structure Flushed (s t : State) (n : U24) (ds : List U24) : Prop where
  inv : t.Inv
  phase : t.phase = .handoff
  env : t.env = []
  same : SameRun (startRun n s) t
  hndIdx : t.hndIdx = t.segK
  entries : segReadAll t t.segK = .ok ds

/-- A PIPE.RUN N accepted in IDLE enters HANDOFF after N + 1 sample steps and the flush step, with
the stages' durations in SEG_BUF (R95 to R97, R105). -/
theorem runSteps_startRun {s : State} {n : U24} (h : s.Inv) (hp : s.phase = .idle)
    (henv : s.env = []) (hn : n ≠ 0) (hle : n.toNat ≤ s.params.maxN) :
    ∃ v ns ds t, Stages s.params n.toNat v ns ds ∧
      runSteps (n.toNat + 2) (startRun n s) = .next t ∧ Flushed s t n ds := by
  have hzero : (startRun n s).smpIdx + (n.toNat + 1) = n.toNat + 1 := Nat.zero_add _
  obtain ⟨t, hrun, ht, hsame, hidx⟩ :=
    runSteps_samples (startRun_computing h hp henv hn hle) hzero.le
  rw [hzero] at hidx
  have hi : t.smpIdx = t.smpN.toNat + 1 := by rw [hidx, hsame.smpN, startRun_smpN]
  have hc := ht.inv.compute ht.phase
  obtain ⟨v, ns, ds, d, hstages, hseg, hd⟩ := stages_of_stagesSoFar ht.inv.base hc hi ht.stages
  rw [hsame.params, hsame.smpN, startRun_params, startRun_smpN] at hstages
  obtain ⟨d', ds', hd', hseg', htotal, hflush⟩ := flushStep_of_inv ht.inv.base hc hi
  obtain rfl : d' = d := Option.some.inj (hd'.symm.trans hd)
  obtain rfl : ds' = ds := Except.ok.inj (hseg'.symm.trans hseg)
  have hroom := segK_lt_maxSeg ht.inv.base hc (rleStarted_at_flush hc hi)
  refine ⟨v, ns, ds' ++ [d'], _, hstages,
    runSteps_snoc hrun ((step_flush ht.phase ht.env hi).trans hflush), ?_⟩
  exact
    { inv := flushStep_inv ht.inv ht.phase hi hflush
      phase := rfl
      env := ht.env
      same := hsame.trans ⟨rfl, rfl, rfl⟩
      hndIdx := rfl
      entries := segReadAll_of_eq (s := appendSeg d' (setRle RleRegs.clear t))
        (segReadAll_appendSeg_setRle (s := t) RleRegs.clear hseg hroom) rfl rfl }

/-- Settles O40: the flush step's state, with the bounds that the invariant of HANDOFF gives. -/
theorem pipelineComputesTheStages : Obligations.PipelineComputesTheStages := by
  intro s s₀ n h hp henv hn hle hstart
  cases (exec_pipeRun_accepts hp hn hle).symm.trans hstart
  obtain ⟨v, ns, ds, t, hstages, hrun, hflushed⟩ := runSteps_startRun h hp henv hn hle
  have hh := hflushed.inv.handoff hflushed.phase
  have hlen : ds.length = t.segK := segReadAll_length hflushed.entries
  have hN : t.smpN = n := hflushed.same.smpN
  have hparams : t.params = s.params := hflushed.same.params
  exact ⟨v, ns, ds, t, hstages.symbols, hstages.length, hstages.runs, hstages.durations, hrun,
    hflushed.phase, hflushed.same.rsp, hlen.symm, hflushed.hndIdx.trans hlen.symm, hflushed.entries,
    hlen ▸ hh.segKPos, by rw [hlen, ← hN]; exact hh.segKBound, by rw [hh.total, hN, hparams]⟩

/-! ### End to end (R105) -/

/-- The state in which the executor is started, from the one in which HANDOFF was entered with the
durations `ds` (R98, R99). -/
def launched (ds : List U24) (t : State) : State :=
  { t with
    hndIdx := 0
    execH := ds.reverse
    execStarted := true
    execDur := t.total
    phase := .observe }

/-- After the flush step, SEG_K handoff steps and the start step (R98, R99). -/
theorem runSteps_launched {s t : State} {n : U24} {ds : List U24} (h : Flushed s t n ds) :
    runSteps (t.segK + 1) t = .next (launched ds t) := by
  obtain ⟨ds', hds', hrun⟩ := runSteps_handoff h.inv h.phase h.env h.hndIdx
  obtain rfl : ds' = ds := Except.ok.inj (hds'.symm.trans h.entries)
  exact runSteps_snoc hrun (step_launch h.phase h.env rfl)

/-- What a completed run has added to RSP is read as its result (R108). -/
theorem pipeResult_of_completed (pins : List Bool) (s : State) :
    pipeResult ((completed (driven pins s)).rsp.drop s.rsp.length) =
      some (invert (pins.map Bool.toNat)) := by
  have hrsp : (completed (driven pins s)).rsp =
      s.rsp ++ (pins.map driveWord ++ [(0x41 : Byte) ++ s.total]) := List.append_assoc _ _ _
  rw [hrsp, List.drop_left, pipeResult_completed]

/-- Settles O47: to HANDOFF, through it, and then the run in OBSERVE, one after another. -/
theorem pipeRunEndToEnd : Obligations.PipeRunEndToEnd := by
  intro s s₀ n h hp henv hn hle hstart
  cases (exec_pipeRun_accepts hp hn hle).symm.trans hstart
  obtain ⟨v, ns, ds, t, hstages, hrun, hflushed⟩ := runSteps_startRun h hp henv hn hle
  have hh := hflushed.inv.handoff hflushed.phase
  have hN : t.smpN = n := hflushed.same.smpN
  have hparams : t.params = s.params := hflushed.same.params
  have hrsp : t.rsp = s.rsp := hflushed.same.rsp
  have htotal : t.total.toNat = s.params.tSwitch.toNat * (n.toNat + 1) := by
    rw [hh.total, hN, hparams]
  refine ⟨ds, n.toNat + 2 + (t.segK + 1), launched ds t, hstages.pipeDurations,
    (runSteps_add hrun _).trans (runSteps_launched hflushed), rfl, rfl, htotal,
    fun pins hpins => ?_⟩
  have hdone := runSteps_completed (s := (launched ds t).withEnv (pins.map Event.pin ++ [.done]))
    (es := []) rfl hh.noTicks (hpins.trans htotal.symm) rfl
  refine ⟨_, hdone, rfl, ?_⟩
  rw [← hrsp]
  exact pipeResult_of_completed pins ((launched ds t).withEnv [])

end Sys2Proof.Machine

/-! The default reference by quarters (R92), and what it gives a default run (R106); the reference
executor (R107). With 4·n = q·N + r the unit sine is the quarter wave number q at r (`quarterWave`),
and the waves q and 3 − q mirror each other. REFEXEC holds each segment for P_TSWITCH ticks per
symbol of its run, so its levels are the symbols that the run lengths expand to. -/

namespace Sys2Proof.Machine

/-! ### The quarter waves (R92) -/

/-- The value of the default reference in its quarter q, at r of the N parts of the quarter. -/
def quarterWave (q r N : Nat) : Int :=
  match q % 4 with
  | 0 => (quarterSine r N : Int)
  | 1 => (quarterSine (N - r) N : Int)
  | 2 => -(quarterSine r N : Int)
  | _ => -(quarterSine (N - r) N : Int)

theorem unitSine_eq_quarterWave {n N q r : Nat} (h : 4 * n = N * q + r) (hr : r < N) :
    unitSine n N = quarterWave q r N := by
  have hN : 0 < N := Nat.zero_lt_of_lt hr
  have hmod : 4 * n % N = r := by rw [h, Nat.mul_add_mod, Nat.mod_eq_of_lt hr]
  have hdiv : 4 * n / N = q := by rw [h, Nat.mul_add_div hN, Nat.div_eq_of_lt hr, Nat.add_zero]
  rw [unitSine, hmod, hdiv]
  rfl

/-- Every n has its quarter and its place in the quarter. -/
theorem exists_quarter (n : Nat) {N : Nat} (hN : 1 ≤ N) : ∃ q r, 4 * n = N * q + r ∧ r < N :=
  ⟨4 * n / N, 4 * n % N, (Nat.div_add_mod _ _).symm, Nat.mod_lt _ hN⟩

theorem quarterSine_zero (N : Nat) : quarterSine 0 N = 0 := by
  rw [quarterSine, sineFixed, Nat.mul_zero, Nat.zero_div]
  decide

theorem quarterSine_self {N : Nat} (hN : 1 ≤ N) : quarterSine N N = 16384 := by
  rw [quarterSine, sineFixed, Nat.mul_div_cancel _ hN]
  decide

/-- At the start of a quarter the wave is 0, ONE, 0, −ONE in turn. -/
theorem quarterWave_zero (q : Nat) {N : Nat} (hN : 1 ≤ N) :
    quarterWave q 0 N = if q % 4 = 1 then 16384 else if q % 4 = 3 then -16384 else 0 := by
  have hq : q % 4 < 4 := Nat.mod_lt _ (by decide)
  rw [quarterWave, Nat.sub_zero, quarterSine_zero, quarterSine_self hN]
  generalize q % 4 = k at hq
  match k, hq with
  | 0, _ | 1, _ | 2, _ | 3, _ => rfl

/-- The quarters q and 3 − q mirror each other with the sign changed. -/
theorem quarterWave_mirror {q r N : Nat} (hq : q ≤ 3) (hr : r ≤ N) :
    quarterWave (3 - q) (N - r) N = -quarterWave q r N := by
  have hback : N - (N - r) = r := Nat.sub_sub_self hr
  match q, hq with
  | 0, _ => simp [quarterWave, hback]
  | 1, _ => simp [quarterWave]
  | 2, _ => simp [quarterWave, hback]
  | 3, _ => simp [quarterWave]

/-! ### The default reference (R92) -/

theorem unitSine_quarter {N k n : Nat} (hN : 1 ≤ N) (h : 4 * n = k * N) :
    unitSine n N = if k % 4 = 1 then 16384 else if k % 4 = 3 then -16384 else 0 := by
  rw [unitSine_eq_quarterWave (by rw [h, Nat.mul_comm, Nat.add_zero]) hN, quarterWave_zero k hN]

theorem unitSine_zero {N : Nat} (hN : 1 ≤ N) : unitSine 0 N = 0 :=
  unitSine_quarter (k := 0) hN (by rw [Nat.zero_mul, Nat.mul_zero])

theorem unitSine_self {N : Nat} (hN : 1 ≤ N) : unitSine N N = 0 :=
  unitSine_quarter (k := 4) hN rfl

/-- The second half mirrors the first: inside a quarter by `quarterWave_mirror`, at its start by the
exact values. -/
theorem unitSine_mirror {n N : Nat} (hN : 1 ≤ N) (hn : n ≤ N) :
    unitSine (N - n) N = -unitSine n N := by
  obtain ⟨q, r, h, hr⟩ := exists_quarter n hN
  rcases Nat.eq_zero_or_pos r with rfl | hpos
  · have hq : q ≤ 4 := Nat.le_of_mul_le_mul_left (by omega : N * q ≤ N * 4) hN
    have hmirror : 4 * (N - n) = (4 - q) * N := by
      rw [Nat.mul_sub, h, Nat.add_zero, Nat.sub_mul, Nat.mul_comm N q]
    rw [unitSine_quarter hN hmirror, unitSine_quarter (k := q) hN (by rw [h, Nat.mul_comm]; rfl)]
    match q, hq with
    | 0, _ | 1, _ | 2, _ | 3, _ | 4, _ => rfl
  · have hq : q ≤ 3 := by
      have : N * q < N * 4 := by omega
      exact Nat.le_of_lt_succ (Nat.lt_of_mul_lt_mul_left this)
    have hmirror : 4 * (N - n) = N * (3 - q) + (N - r) := by
      have : N * (3 - q) = N * 3 - N * q := Nat.mul_sub ..
      have : N * q ≤ N * 3 := Nat.mul_le_mul_left N hq
      omega
    rw [unitSine_eq_quarterWave hmirror (by omega), unitSine_eq_quarterWave h hr,
      quarterWave_mirror hq hr.le]

/-- Settles O50: the default source reads the unit sine, and each clause is a lemma about it. -/
theorem defaultReferenceIsExactAtTheQuarters : Obligations.DefaultReferenceIsExactAtTheQuarters :=
  ⟨fun n N _ _ => ⟨_, rfl, unitSine_sample_toInt n N⟩, fun _ _ _ => unitSine_quarter,
    fun _ hN => ⟨unitSine_zero hN, unitSine_self hN⟩, unitSine_range, fun _ _ => unitSine_mirror⟩

/-! ### A default run (R106) -/

/-- The default source lists the unit sine (R91, R92). -/
theorem sampleAll_unitSine (N : Nat) :
    sampleAll .unitSine N =
      some ((List.range (N + 1)).map fun n => BitVec.ofInt 16 (unitSine n N)) :=
  List.mapM_pure

/-- The samples of a default run, as integers (R92). -/
theorem sampleAll_unitSine_toInt (N : Nat) :
    ((List.range (N + 1)).map fun n => (BitVec.ofInt 16 (unitSine n N) : Sample)).map BitVec.toInt =
      unitSine 0 N :: (List.range N).map fun n => unitSine (n + 1) N := by
  rw [List.map_map, List.range_succ_eq_map, List.map_cons, List.map_map]
  simp only [Function.comp_def, unitSine_sample_toInt, Nat.succ_eq_add_one]

/-- Settles O48: the first sample is 0, whose symbol is −1 (R71), and no later sample overflows. -/
theorem defaultRunStartsWithMinusOne : Obligations.DefaultRunStartsWithMinusOne := by
  intro p N _ href hN _
  have hrest : ∀ x ∈ (List.range N).map (fun n => unitSine (n + 1) N),
      -Config.one ≤ x ∧ x ≤ Config.one := fun x hx => by
    obtain ⟨n, -, rfl⟩ := List.mem_map.1 hx
    exact unitSine_range (n + 1) N
  obtain ⟨v, r, hv, -⟩ := modulate_bounded hrest (q := 16384) (by decide) (by decide)
  have hfirst : dsmStep 0 (unitSine 0 N) = some (false, 16384) := by
    rw [unitSine_zero hN]
    rfl
  refine ⟨v, ?_⟩
  rw [pipeSymbols, href, sampleAll_unitSine]
  simp only [sampleAll_unitSine_toInt]
  rw [modulate_cons hfirst, hv]
  rfl

/-! ### The reference executor (R107) -/

/-- The run lengths of a sequence are the encoder's counts from the first symbol's run. -/
theorem runLengths_cons_some {c : Bool} {v : List Bool} {ns : List U24}
    (h : runLengths (c :: v) = some ns) :
    ∃ ms r, encodeRuns (firstRun c) v = some (ms, r) ∧ ns = ms ++ [r.count] := by
  rw [runLengths, encodeRuns_clear_cons] at h
  cases hm : encodeRuns (firstRun c) v with
  | none => simp [hm] at h
  | some p =>
    obtain ⟨ms, r⟩ := p
    have hend : rleEnd r = some (r.count, RleRegs.clear) :=
      rleEnd_some_iff.2 ⟨encodeRuns_started rfl hm, rfl, rfl⟩
    simp only [hm, hend, Option.map_some, Option.some.injEq] at h
    exact ⟨ms, r, rfl, h.symm⟩

/-- REFEXEC holds each symbol of the runs for P_TSWITCH ticks (R104, R107). -/
theorem refexecLevels_padDurations {t : BitVec 8} {ns ds : List U24} (hns : ∀ n ∈ ns, 1 ≤ n.toNat)
    (h : padDurations t ns = some ds) (c : Bool) :
    refexecLevels t c ds =
      (expandRuns c (ns.map BitVec.toNat)).flatMap (List.replicate t.toNat) := by
  induction ns generalizing ds c with
  | nil => cases h; rfl
  | cons n ns ih =>
    obtain ⟨hn, hns⟩ := List.forall_mem_cons.1 hns
    obtain ⟨d, es, hd, hes, rfl⟩ := padDurations_cons_some h
    have hrun : List.replicate (d.toNat + t.toNat) c =
        (List.replicate n.toNat c).flatMap (List.replicate t.toNat) := by
      rw [lc_add_switch hd hn, List.flatMap_replicate, List.flatten_replicate_replicate,
        Nat.mul_comm]
    rw [refexecLevels, hrun, ih hns hes (!c), List.map_cons, expandRuns, List.flatMap_append]

/-- REFEXEC's pin states are as many as the durations and P_TSWITCH per segment (R97, R107). -/
theorem refexecLevels_length (t : BitVec 8) (c : Bool) (ds : List U24) :
    (refexecLevels t c ds).length = totalSum t ds := by
  induction ds generalizing c with
  | nil => simp [refexecLevels, totalSum]
  | cons d ds ih =>
    rw [refexecLevels, List.length_append, List.length_replicate, ih]
    simp only [totalSum, List.map_cons, List.sum_cons, List.length_cons]
    ring

/-- Settles O49: no run is empty, and the run lengths expand to the symbols. -/
theorem referenceExecutorReplaysTheSymbols : Obligations.ReferenceExecutorReplaysTheSymbols := by
  intro t v ns ds hruns hds
  obtain ⟨ms, r, hm, rfl⟩ := runLengths_cons_some hruns
  have hpos : ∀ n ∈ ms ++ [r.count], 1 ≤ n.toNat := encodeRuns_pos rfl le_rfl hm
  have hexpand : expandRuns false ((ms ++ [r.count]).map BitVec.toNat) = false :: v :=
    expandRuns_encodeRuns rfl hm
  rw [refexecPins, List.reverse_reverse]
  exact ⟨by rw [refexecLevels_padDurations hpos hds, hexpand], refexecLevels_length t false ds⟩

end Sys2Proof.Machine

/-! The accuracy of the computed sine (R92, log 3), in units of 2^−60: 13 terms of the series, each
at most 3 away from its value (`sineTail_error`), the rest of the series at most 1, the argument at
most 2; so `sineFixed` is at most 42 away, and its rounding to Q2.14 at most 1/2 + 2^−30
(`quarterSine_error`). The four quarters of the wave are the sine's own symmetries
(`quarterWave_error`). -/

namespace Sys2Proof.Machine

/-- The term x^k / k! of the sine series. -/
noncomputable def sineTerm (x : ℝ) (k : Nat) : ℝ := x ^ k / (k.factorial : ℝ)

/-- The alternating sum of m terms of the series from the one of x^k on. -/
noncomputable def sinePartial (x : ℝ) (k m : Nat) : ℝ :=
  ∑ i ∈ Finset.range m, (-1) ^ i * sineTerm x (k + 2 * i)

/-! ### The series -/

theorem sineTerm_nonneg {x : ℝ} (hx : 0 ≤ x) (k : Nat) : 0 ≤ sineTerm x k := by
  unfold sineTerm
  positivity

theorem sineTerm_one (x : ℝ) : sineTerm x 1 = x := by simp [sineTerm]

/-- Each term is the one two powers before, times x² and divided. -/
theorem sineTerm_add_two (x : ℝ) (k : Nat) :
    sineTerm x (k + 2) = sineTerm x k * x ^ 2 / ((k + 1) * (k + 2)) := by
  have hfact : ((k + 2).factorial : ℝ) = (k + 2) * (k + 1) * k.factorial := by
    rw [Nat.factorial_succ, Nat.factorial_succ]
    push_cast
    ring
  rw [sineTerm, sineTerm, hfact]
  field_simp
  ring

/-- The terms do not grow while x² ≤ 6. -/
theorem sineTerm_add_two_le {x : ℝ} (hx : 0 ≤ x) (hsq : x ^ 2 ≤ 6) {k : Nat} (hk : 1 ≤ k) :
    sineTerm x (k + 2) ≤ sineTerm x k := by
  have hterm := sineTerm_nonneg hx k
  have hk' : (1 : ℝ) ≤ k := by exact_mod_cast hk
  have hden : (6 : ℝ) ≤ (k + 1) * (k + 2) := by nlinarith
  rw [sineTerm_add_two, div_le_iff₀ (by linarith)]
  exact mul_le_mul_of_nonneg_left (hsq.trans hden) hterm

theorem sinePartial_succ (x : ℝ) (k m : Nat) :
    sinePartial x k (m + 1) = sineTerm x k - sinePartial x (k + 2) m := by
  have hshift : ∀ i, k + 2 * (i + 1) = k + 2 + 2 * i := fun i => by ring
  simp only [sinePartial, Finset.sum_range_succ', hshift, pow_succ]
  simp [Finset.sum_neg_distrib, sub_eq_add_neg, add_comm]

/-- The series stopped is as far from the sine as the next term, at most. -/
theorem sinePartial_error {x : ℝ} (hx : 0 ≤ x) (hsq : x ^ 2 ≤ 6) (m : Nat) :
    |Real.sin x - sinePartial x 1 m| ≤ sineTerm x (1 + 2 * m) := by
  have hsum : Real.sin x = ∑' i : Nat, (-1) ^ i * sineTerm x (1 + 2 * i) := by
    rw [Real.sin_eq_tsum]
    exact tsum_congr fun i => by rw [sineTerm, add_comm 1, mul_div_assoc]
  have hanti : Antitone fun i : Nat => sineTerm x (1 + 2 * i) :=
    antitone_nat_of_succ_le fun i => sineTerm_add_two_le hx hsq (Nat.le_add_right 1 _)
  have hsummable : Summable fun i : Nat => sineTerm x (1 + 2 * i) :=
    (Real.summable_pow_div_factorial x).comp_injective fun i j hij => by
      simpa using hij
  rw [hsum]
  exact alternating_series_error_bound _ hanti hsummable m

/-! ### The fixed-point terms (log 3) -/

/-- Division of naturals rounds down by less than 1. -/
theorem abs_natDiv_sub_le (a b : Nat) : |((a / b : Nat) : ℝ) - a / b| ≤ 1 := by
  have hfloor : ((a / b : Nat) : ℝ) = (⌊(a / b : ℝ)⌋₊ : ℝ) := by rw [Nat.floor_div_eq_div]
  have hpos : (0 : ℝ) ≤ a / b := by positivity
  rw [hfloor, abs_sub_comm, abs_le]
  constructor <;> linarith [Nat.floor_le hpos, Nat.lt_floor_add_one (a / b : ℝ)]

/-- `z` is the value `y` in units of 2^−60, up to `e` units. -/
def Approx (z : ℝ) (e y : ℝ) : Prop := |z - 2 ^ sineBits * y| ≤ e

theorem two_pow_sineBits : (2 : ℝ) ^ sineBits = 1152921504606846976 := by norm_num [sineBits]

section
variable {z z' e d y : ℝ}

theorem Approx.mono (h : Approx z e y) (he : e ≤ d) : Approx z d y := le_trans h he

/-- Distances add up. -/
theorem approx_of_close (h : |z - z'| ≤ d) (h' : Approx z' e y) : Approx z (d + e) y :=
  (abs_sub_le z z' _).trans (add_le_add h h')

/-- Rounding a quotient down costs 1 unit. -/
theorem approx_natDiv {a b : Nat} (h : Approx (a / b) e y) : Approx (a / b : Nat) (1 + e) y :=
  approx_of_close (abs_natDiv_sub_le a b) h

theorem approx_div {c : ℝ} (hc : 0 < c) (h : Approx z e y) : Approx (z / c) (e / c) (y / c) := by
  rw [Approx, ← mul_div_assoc, ← sub_div, abs_div, abs_of_pos hc]
  exact div_le_div_of_nonneg_right h hc.le

/-- A value that is close is close in units. -/
theorem approx_of_abs_sub_le (h : 2 ^ sineBits * |y - z| ≤ e) : Approx (2 ^ sineBits * y) e z := by
  rwa [Approx, ← mul_sub, abs_mul, abs_of_pos (by positivity)]

end

/-- The argument and its square in fixed point, in the range of the quarter wave. -/
structure FixedArg (x : ℝ) (x2 : Nat) : Prop where
  nonneg : 0 ≤ x
  le : x ≤ 8 / 5
  sq : Approx x2 1 (x ^ 2)

section
variable {x : ℝ} {x2 : Nat}

theorem FixedArg.sq_le (h : FixedArg x x2) : x ^ 2 ≤ 64 / 25 := by
  nlinarith [h.nonneg, h.le]

theorem FixedArg.fixed_sq_le (h : FixedArg x x2) : (x2 : ℝ) / 2 ^ sineBits ≤ 3 := by
  have hsq := (abs_le.1 h.sq).2
  have hle := h.sq_le
  rw [div_le_iff₀ (by positivity)]
  rw [two_pow_sineBits] at hsq ⊢
  linarith

/-- A product with x² in fixed point: the factors' errors, each times the other factor. -/
theorem approx_mul_sq (h : FixedArg x x2) {z y : ℝ} (hy : 0 ≤ y) (hy' : y ≤ 2) (hz : Approx z 3 y) :
    Approx (z * x2 / 2 ^ sineBits) 11 (y * x ^ 2) := by
  have hsplit : z * x2 / 2 ^ sineBits - 2 ^ sineBits * (y * x ^ 2) =
      (z - 2 ^ sineBits * y) * (x2 / 2 ^ sineBits) + y * (x2 - 2 ^ sineBits * x ^ 2) := by
    field_simp
    ring
  have hleft : |(z - 2 ^ sineBits * y) * (x2 / 2 ^ sineBits)| ≤ 3 * 3 := by
    rw [abs_mul, abs_of_nonneg (by positivity : (0 : ℝ) ≤ x2 / 2 ^ sineBits)]
    exact mul_le_mul hz h.fixed_sq_le (by positivity) (by norm_num)
  have hright : |y * (x2 - 2 ^ sineBits * x ^ 2)| ≤ 2 * 1 := by
    rw [abs_mul, abs_of_nonneg hy]
    exact mul_le_mul hy' h.sq (abs_nonneg _) (by norm_num)
  rw [Approx, hsplit]
  exact (abs_add_le _ _).trans (by linarith)

/-- A fixed-point term at most 3 units away gives a next one that is: the product is at most 12 away
after its floor, divided by 6 or more at most 2, and after the last floor 3. -/
theorem approx_next (h : FixedArg x x2) {k t : Nat} (hk : 1 ≤ k) (hterm : sineTerm x k ≤ 2)
    (ht : Approx t 3 (sineTerm x k)) :
    Approx (t * x2 / 2 ^ sineBits / ((k + 1) * (k + 2)) : Nat) 3 (sineTerm x (k + 2)) := by
  have hden : (6 : ℝ) ≤ (k + 1) * (k + 2) := by
    have hk' : (1 : ℝ) ≤ k := by exact_mod_cast hk
    nlinarith
  have hprod := approx_mul_sq h (sineTerm_nonneg h.nonneg k) hterm ht
  have hfloor : Approx (t * x2 / 2 ^ sineBits : Nat) (1 + 11) (sineTerm x k * x ^ 2) :=
    approx_natDiv (by push_cast; exact hprod)
  have hquot := approx_div (c := (k + 1) * (k + 2)) (by linarith) hfloor
  rw [← sineTerm_add_two] at hquot
  have hsmall : (1 + 11) / (((k : ℝ) + 1) * (k + 2)) ≤ 2 := by
    rw [div_le_iff₀ (by linarith)]
    linarith
  exact (approx_natDiv (by push_cast at hquot ⊢; exact hquot.mono hsmall)).mono (by norm_num)

/-- The fixed-point series is at most 3 units per term away from the series. -/
theorem sineTail_error (h : FixedArg x x2) {fuel k t : Nat} (hk : 1 ≤ k) (hterm : sineTerm x k ≤ 2)
    (ht : Approx t 3 (sineTerm x k)) :
    Approx (sineTail x2 fuel k t) (3 * fuel) (sinePartial x k fuel) := by
  induction fuel generalizing k t with
  | zero => simp [Approx, sineTail, sinePartial]
  | succ fuel ih =>
    have hsq : x ^ 2 ≤ 6 := by linarith [h.sq_le]
    have hrest := ih (by omega) ((sineTerm_add_two_le h.nonneg hsq hk).trans hterm)
      (approx_next h hk hterm ht)
    unfold Approx at *
    rw [sineTail, sinePartial_succ]
    push_cast
    rw [abs_le] at *
    constructor <;> linarith [ht.1, ht.2, hrest.1, hrest.2]

end

/-- π/2 in fixed point is rounded down (log 3). -/
theorem halfPi_approx : Approx halfPi 1 (Real.pi / 2) := by
  have hlo := Real.pi_gt_d20
  have hhi := Real.pi_lt_d20
  rw [Approx, abs_le]
  norm_num [halfPi, sineBits] at *
  constructor <;> linarith

/-- The fixed-point argument is at most 2 units away from (π/2)·r/N. -/
theorem fixedArg_approx {r N : Nat} (hN : 1 ≤ N) (hr : r ≤ N) :
    Approx (halfPi * r / N : Nat) 2 (Real.pi / 2 * (r / N)) := by
  have hfrac : (r / N : ℝ) ≤ 1 := by
    rw [div_le_one (by exact_mod_cast hN)]
    exact_mod_cast hr
  have hfrac' : (0 : ℝ) ≤ r / N := by positivity
  have hscale : Approx ((halfPi * r : Nat) / N) 1 (Real.pi / 2 * (r / N)) := by
    rw [Approx, Nat.cast_mul, mul_div_assoc, ← mul_assoc, ← sub_mul, abs_mul, abs_of_nonneg hfrac']
    exact mul_le_one₀ halfPi_approx hfrac' hfrac
  exact (approx_natDiv hscale).mono (by norm_num)

/-- The argument as a real, with its square in fixed point. -/
theorem fixedArg_of_le {a : Nat} (ha : a ≤ halfPi) :
    FixedArg (a / 2 ^ sineBits) (a * a / 2 ^ sineBits) where
  nonneg := by positivity
  le := by
    have : (a : ℝ) ≤ 1811004864519280710 := by exact_mod_cast ha
    rw [div_le_iff₀ (by positivity), two_pow_sineBits]
    linarith
  sq := by
    have hdiv := abs_natDiv_sub_le (a * a) (2 ^ sineBits)
    have hsq : (2 : ℝ) ^ sineBits * (a / 2 ^ sineBits) ^ 2 = a * a / 2 ^ sineBits := by
      field_simp
    push_cast at hdiv
    rwa [Approx, hsq]

/-- Dropping a negative fixed-point value does not move it away from one that is not negative. -/
theorem approx_toNat {z : Int} {e y : ℝ} (h : Approx z e y) (hy : 0 ≤ y) : Approx z.toNat e y := by
  have hB : (0 : ℝ) ≤ 2 ^ sineBits * y := by positivity
  rcases le_total 0 z with hz | hz
  · have : (z.toNat : ℝ) = z := by exact_mod_cast Int.toNat_of_nonneg hz
    rwa [this]
  · have hz' : (z : ℝ) ≤ 0 := by exact_mod_cast hz
    rw [Int.toNat_of_nonpos hz]
    unfold Approx at *
    rw [abs_le] at *
    constructor <;> push_cast <;> linarith [h.1, h.2]

/-- What the series leaves out after 13 terms is less than 1 unit. -/
theorem sinePartial_approx {x : ℝ} (hx : 0 ≤ x) (hle : x ≤ 8 / 5) :
    Approx (2 ^ sineBits * sinePartial x 1 13) 1 (Real.sin x) := by
  have hsq : x ^ 2 ≤ 6 := by nlinarith
  have hnext : sineTerm x (1 + 2 * 13) ≤ (8 / 5) ^ 27 / Nat.factorial 27 := by
    unfold sineTerm
    gcongr
  refine approx_of_abs_sub_le ?_
  rw [abs_sub_comm]
  calc (2 : ℝ) ^ sineBits * |Real.sin x - sinePartial x 1 13|
      ≤ 2 ^ sineBits * ((8 / 5) ^ 27 / Nat.factorial 27) := by
        gcongr
        exact (sinePartial_error hx hsq 13).trans hnext
    _ ≤ 1 := by norm_num [sineBits, Nat.factorial]

/-- The 13 terms in fixed point, at an argument of the quarter wave. -/
theorem sineTail_approx {a : Nat} (ha : a ≤ halfPi) :
    Approx (sineTail (a * a / 2 ^ sineBits) 13 1 a).toNat 40 (Real.sin (a / 2 ^ sineBits)) := by
  have harg := fixedArg_of_le ha
  have hle := harg.le
  have hpos : 0 ≤ Real.sin (a / 2 ^ sineBits) :=
    Real.sin_nonneg_of_nonneg_of_le_pi harg.nonneg (by linarith [Real.pi_gt_three])
  have hfirst : Approx a 3 (sineTerm (a / 2 ^ sineBits) 1) := by
    rw [sineTerm_one, Approx, mul_div_cancel₀ _ (by positivity)]
    norm_num
  have hseries := sineTail_error harg (fuel := 13) le_rfl (by rw [sineTerm_one]; linarith) hfirst
  have hsine := approx_of_close hseries (sinePartial_approx harg.nonneg hle)
  exact approx_toNat (hsine.mono (by norm_num)) hpos

/-- The quarter wave before its rounding (log 3). -/
theorem sineFixed_error {r N : Nat} (hN : 1 ≤ N) (hr : r ≤ N) :
    Approx (sineFixed r N) 42 (Real.sin (Real.pi / 2 * (r / N))) := by
  have ha : halfPi * r / N ≤ halfPi := Nat.div_le_of_le_mul (by
    rw [Nat.mul_comm N]
    exact Nat.mul_le_mul_left _ hr)
  have harg := fixedArg_approx hN hr
  have hunit : ((halfPi * r / N : Nat) : ℝ) =
      2 ^ sineBits * ((halfPi * r / N : Nat) / 2 ^ sineBits) := by field_simp
  rw [hunit, Approx, ← mul_sub, abs_mul, abs_of_pos (by positivity)] at harg
  have hlip := Real.abs_sin_sub_sin_le ((halfPi * r / N : Nat) / 2 ^ sineBits)
    (Real.pi / 2 * (r / N))
  have hmove : Approx (2 ^ sineBits * Real.sin ((halfPi * r / N : Nat) / 2 ^ sineBits)) 2
      (Real.sin (Real.pi / 2 * (r / N))) :=
    approx_of_abs_sub_le ((mul_le_mul_of_nonneg_left hlip (by positivity)).trans harg)
  exact (approx_of_close (sineTail_approx ha) hmove).mono (by norm_num)

/-! ### The rounded quarter wave (R92) -/

/-- `roundHalfUp` is at most 1/2 away from the quotient. -/
theorem roundHalfUp_error (num : Nat) {den : Nat} (hden : 0 < den) :
    |(roundHalfUp num den : ℝ) - num / den| ≤ 1 / 2 := by
  have hfloor : (roundHalfUp num den : ℚ) = ⌊(num / den + 1 / 2 : ℚ)⌋ := by
    exact_mod_cast congrArg (Int.cast : Int → ℚ) (roundHalfUp_eq_floor num hden)
  have hrat : |(roundHalfUp num den : ℚ) - num / den| ≤ 1 / 2 := by
    rw [hfloor, abs_le]
    constructor <;> linarith [Int.floor_le (num / den + 1 / 2 : ℚ),
      Int.lt_floor_add_one (num / den + 1 / 2 : ℚ)]
  have hcast := (Rat.cast_le (K := ℝ)).2 hrat
  push_cast at hcast
  exact hcast

/-- The bound ONE is the sine's own, so it does not move a value away from the sine. -/
theorem abs_min_sub_le {a b y e : ℝ} (h : |a - y| ≤ e) (hy : y ≤ b) : |min b a - y| ≤ e := by
  rcases le_total b a with hle | hle
  · rw [min_eq_left hle]
    rw [abs_le] at *
    constructor <;> linarith [h.1, h.2]
  · rwa [min_eq_right hle]

theorem quarterSine_error {r N : Nat} (hN : 1 ≤ N) (hr : r ≤ N) :
    |(quarterSine r N : ℝ) - Real.sin (Real.pi / 2 * (r / N)) * 16384| ≤ 1 / 2 + 1 / 2 ^ 30 := by
  have hround := roundHalfUp_error (sineFixed r N * 16384) (den := 2 ^ sineBits) (by positivity)
  have hfixed := sineFixed_error hN hr
  have hscaled : |(sineFixed r N * 16384 / 2 ^ sineBits : ℝ) -
      Real.sin (Real.pi / 2 * (r / N)) * 16384| ≤ 1 / 2 ^ 30 := by
    have hunit : (sineFixed r N * 16384 / 2 ^ sineBits : ℝ) -
        Real.sin (Real.pi / 2 * (r / N)) * 16384 =
        (sineFixed r N - 2 ^ sineBits * Real.sin (Real.pi / 2 * (r / N))) *
          (16384 / 2 ^ sineBits) := by
      field_simp
    rw [hunit, abs_mul, abs_of_pos (by positivity : (0 : ℝ) < 16384 / 2 ^ sineBits)]
    calc _ ≤ 42 * (16384 / 2 ^ sineBits : ℝ) := mul_le_mul_of_nonneg_right hfixed (by positivity)
      _ ≤ 1 / 2 ^ 30 := by norm_num [sineBits]
  rw [quarterSine]
  push_cast at hround ⊢
  refine abs_min_sub_le ?_ (by linarith [Real.sin_le_one (Real.pi / 2 * (r / N))])
  linarith [abs_sub_le (roundHalfUp (sineFixed r N * 16384) (2 ^ sineBits) : ℝ)
    (sineFixed r N * 16384 / 2 ^ sineBits) (Real.sin (Real.pi / 2 * (r / N)) * 16384)]

/-! ### The four quarters (R92) -/

/-- The wave of the quarter q is the sine's: by symmetry, one of ±sin and ±cos of the place in the
quarter. -/
theorem quarterWave_error {r N : Nat} (hN : 1 ≤ N) (hr : r ≤ N) (q : Nat) :
    |(quarterWave q r N : ℝ) - Real.sin (Real.pi / 2 * q + Real.pi / 2 * (r / N)) * 16384| ≤
      1 / 2 + 1 / 2 ^ 30 := by
  have hN' : (N : ℝ) ≠ 0 := by exact_mod_cast (Nat.ne_of_gt hN)
  have hsin := quarterSine_error hN hr
  have hcos := quarterSine_error hN (Nat.sub_le N r)
  have hback : Real.pi / 2 * (((N - r : Nat) : ℝ) / N) =
      Real.pi / 2 - Real.pi / 2 * (r / N) := by
    rw [Nat.cast_sub hr]
    field_simp
  rw [hback, Real.sin_pi_div_two_sub] at hcos
  generalize Real.pi / 2 * (r / N : ℝ) = φ at hsin hcos ⊢
  have hq : Real.pi / 2 * (q : ℝ) + φ =
      (Real.pi / 2 * ((q % 4 : Nat) : ℝ) + φ) + (q / 4 : Nat) * (2 * Real.pi) := by
    have : (q : ℝ) = 4 * (q / 4 : Nat) + (q % 4 : Nat) := by
      exact_mod_cast (Nat.div_add_mod q 4).symm
    rw [this]
    ring
  have hlt : q % 4 < 4 := Nat.mod_lt _ (by decide)
  rw [hq, Real.sin_add_nat_mul_two_pi, quarterWave]
  generalize q % 4 = k at hlt
  match k, hlt with
  | 0, _ => simpa using hsin
  | 1, _ =>
    rw [Nat.cast_one, mul_one, add_comm, Real.sin_add_pi_div_two]
    simpa using hcos
  | 2, _ =>
    rw [show Real.pi / 2 * ((2 : Nat) : ℝ) + φ = φ + Real.pi by push_cast; ring, Real.sin_add_pi]
    rw [← abs_neg] at hsin
    convert hsin using 2
    push_cast
    ring
  | 3, _ =>
    rw [show Real.pi / 2 * ((3 : Nat) : ℝ) + φ = φ + Real.pi / 2 + Real.pi by push_cast; ring,
      Real.sin_add_pi, Real.sin_add_pi_div_two]
    rw [← abs_neg] at hcos
    convert hcos using 2
    push_cast
    ring

/-- Settles O51: n lies in its quarter, and 2π·n/N is (π/2)·q more than the angle in it. -/
theorem defaultReferenceRoundsTheSine : Obligations.DefaultReferenceRoundsTheSine := by
  intro n N hN _
  obtain ⟨q, r, h, hr⟩ := exists_quarter n hN
  have hN' : (N : ℝ) ≠ 0 := by exact_mod_cast (Nat.ne_of_gt hN)
  have hangle : 2 * Real.pi * n / N = Real.pi / 2 * q + Real.pi / 2 * (r / N) := by
    have h' : (4 * n : ℝ) = N * q + r := by exact_mod_cast h
    field_simp
    linear_combination h'
  rw [unitSine_eq_quarterWave h hr, hangle]
  exact quarterWave_error hN hr.le q

end Sys2Proof.Machine

/-! The control and status commands (R110 to R115): what NOP and the four reads answer, the fields of
STATUS and CONFIG, what the host recovers from QE.RD, and when the command port is read. -/

namespace Sys2Proof.Machine

/-! ### NOP and the reads, performed in IDLE and in FAULTED (R110) -/

section
variable {s : State}

theorem exec_nop_accepted (h : s.phase = .idle ∨ s.phase = .faulted) : exec .nop s = .next s := by
  rw [exec, execNop, whenIdleOrFaulted_accepts h]

theorem exec_statRd_accepted (h : s.phase = .idle ∨ s.phase = .faulted) :
    exec .statRd s = .next (emit 0xF0 s.statusWord s) := by
  rw [exec, execStatRd, whenIdleOrFaulted_accepts h]

theorem exec_cfgRd_accepted (h : s.phase = .idle ∨ s.phase = .faulted) :
    exec .cfgRd s = .next (emit 0xF1 (configWord s.params) s) := by
  rw [exec, execCfgRd, whenIdleOrFaulted_accepts h]

theorem exec_qeRd_accepted (h : s.phase = .idle ∨ s.phase = .faulted) :
    exec .qeRd s = .next (emit 0xF2 s.qeLow s) := by
  rw [exec, execQeRd, whenIdleOrFaulted_accepts h]

theorem exec_cntRd_accepted (h : s.phase = .idle ∨ s.phase = .faulted) :
    exec .cntRd s = .next (emit 0xF3 s.rleCount s) := by
  rw [exec, execCntRd, whenIdleOrFaulted_accepts h]

end

/-- NOP's row leaves no ARG bit free: a word of OP 0 that is not NOP sets a reserved bit (R53, R111). -/
theorem decode_nop_reserved {w : Word} (hop : opField w = 0x00) (hw : w ≠ 0) :
    decode w = .error (.reservedBits 0x00) := by
  have harg : argField w ≠ 0 := fun h => hw (by rw [word_eq_fields w, hop, h]; rfl)
  rw [word_eq_fields w, hop, decode_fields, if_neg fun h => harg h.2]
  simp [formatOf]

/-- Settles O5: NOP's row is one word, and NOP is performed in both phases. -/
theorem nopDoesNothing : Obligations.NopDoesNothing :=
  ⟨decodeOfEncodeIsTheCommand .nop, fun _ => decode_nop_reserved, fun _ => exec_nop_accepted⟩

/-! ### The fields of STATUS and CONFIG (R29, R30) -/

/-- Each field of STATUS is read off once the fields below it are (R29). -/
theorem statusWord_fields (s : State) :
    s.statusWord.getLsbD 0 = s.faultBit ∧ s.statusWord.getLsbD 1 = s.rleStarted ∧
    s.statusWord.getLsbD 2 = s.rleLast ∧ s.statusWord.getLsbD 3 = false ∧
    s.statusWord.extractLsb' 4 3 = s.phase.code ∧ s.statusWord.getLsbD 7 = false ∧
    s.statusWord.extractLsb' 8 8 = s.cause.code ∧ s.statusWord.extractLsb' 16 8 = s.fop := by
  unfold State.statusWord
  refine ⟨?fault, ?started, ?last, ?reserved3, ?phase, ?reserved7, ?cause, ?fop⟩
  case fault | started | last | reserved3 | reserved7 =>
    repeat rw [BitVec.getLsbD_append]
    simp
  case phase | cause =>
    repeat rw [BitVec.extractLsb'_append_eq_of_le (by decide)]
    rw [BitVec.extractLsb'_append_eq_right]
  case fop =>
    repeat rw [BitVec.extractLsb'_append_eq_of_le (by decide)]
    exact BitVec.extractLsb'_eq_self

/-- The fields of CONFIG (R30). -/
theorem configWord_fields (p : Params) :
    (configWord p).extractLsb' 0 8 = p.tSwitch ∧
    (configWord p).extractLsb' 8 5 = BitVec.ofNat 5 p.maxNLog2 ∧
    (configWord p).extractLsb' 13 3 = 0 ∧ (configWord p).extractLsb' 16 4 = Config.fracBits ∧
    (configWord p).extractLsb' 20 4 = Config.specRev := by
  unfold configWord
  refine ⟨BitVec.extractLsb'_append_eq_right, ?_, ?_, ?_, ?_⟩
  case refine_1 =>
    rw [BitVec.extractLsb'_append_eq_of_le (by decide), BitVec.extractLsb'_append_eq_right]
  all_goals
    repeat rw [BitVec.extractLsb'_append_eq_of_le (by decide)]
    decide

/-- Settles O6: STAT.RD emits the STATUS word, whose fields stand at their bits. -/
theorem statRdEmitsStatus : Obligations.StatRdEmitsStatus :=
  ⟨decodeOfEncodeIsTheCommand .statRd, fun s hp =>
    ⟨s.statusWord, exec_statRd_accepted hp, statusWord_fields s⟩⟩

/-- Settles O7: CFG.RD emits the CONFIG word, in which a legal MAXN_LOG2, at most 16, is not cut. -/
theorem cfgRdEmitsConfig : Obligations.CfgRdEmitsConfig := by
  refine ⟨decodeOfEncodeIsTheCommand .cfgRd, fun s hp => ?_, fun s hp hdefault => ?_⟩
  · obtain ⟨htSwitch, hmaxN, hfixed⟩ := configWord_fields s.params
    refine ⟨configWord s.params, exec_cfgRd_accepted hp, htSwitch, fun hwf => ?_, hfixed⟩
    simp only [Params.wf, Bool.and_eq_true, decide_eq_true_eq] at hwf
    obtain ⟨⟨-, hle⟩, -⟩ := hwf
    rw [hmaxN, BitVec.toNat_ofNat, Nat.mod_eq_of_lt (by omega)]
  · have hword : (0xF1 : Byte) ++ configWord s.params = (0xF11E0C03 : Word) := by
      rw [hdefault]
      decide
    rw [exec_cfgRd_accepted hp, emit, hword]

/-! ### What the host recovers from QE.RD (R114, R139) -/

theorem qeFromResponse_eq_iff (q : Acc) :
    qeFromResponse ((0xF2 : Byte) ++ q.extractLsb' 0 24) = q.toInt ↔
      -2 ^ 23 ≤ q.toInt ∧ q.toInt < 2 ^ 23 := by
  have hval : respVal ((0xF2 : Byte) ++ q.extractLsb' 0 24) = q.extractLsb' 0 24 :=
    argField_append _ _
  have hread : (q.extractLsb' 0 24).toInt = q.toInt.bmod (2 ^ 24) := by
    rw [BitVec.toInt_extractLsb', Nat.shiftRight_zero, BitVec.toInt_eq_toNat_bmod,
      Int.bmod_bmod_of_dvd (by decide)]
  rw [qeFromResponse, hval, hread, Int.bmod_eq_iff (by decide)]
  omega

/-- Settles O8: bounded samples from a clear keep QE in [−ONE, ONE] (R74), which is in int24. -/
theorem qeRdEmitsTheLowBits : Obligations.QeRdEmitsTheLowBits := by
  refine ⟨decodeOfEncodeIsTheCommand .qeRd, fun s => exec_qeRd_accepted, qeFromResponse_eq_iff,
    fun xs s t hp hq hxs ht => ?_⟩
  have hzero : s.qe.toInt = 0 := by rw [hq]; rfl
  obtain ⟨u, hexec, -, -, hlo, hhi⟩ :=
    boundedSamplesKeepTheAccumulatorBounded xs s hp (by omega) (by omega) hxs
  cases hexec.symm.trans ht
  rw [qeFromResponse_eq_iff]
  omega

/-- Settles O9: the encoder's registers are clear with no sequence started (R17). -/
theorem cntRdEmitsTheRunCount : Obligations.CntRdEmitsTheRunCount :=
  ⟨decodeOfEncodeIsTheCommand .cntRd, fun _ => exec_cntRd_accepted,
    fun _ hinv hs => congrArg RleRegs.count (hinv.base.rleFresh hs)⟩

/-! ### The command port (R45, R110, R135) -/

/-- Settles O27: with no outside move pending, IDLE and FAULTED perform the first word. -/
theorem stepRunsTheDecodedCommand : Obligations.StepRunsTheDecodedCommand := by
  intro s w ws i henv hp hcmd hd
  rw [step_of_env_nil henv, coreStep_accepts hp, commandStep_cons hcmd, runWord, hd]

section
variable {s t : State}

theorem computeStep_cmd (h : computeStep s = .next t) : t.cmd = s.cmd := by
  unfold computeStep at h
  split at h
  · rcases sampleStep_cases h with ⟨c, rfl⟩ | ⟨q, r, rfl⟩ | ⟨d, q, r, rfl⟩ <;> rfl
  · split at h
    · rcases flushStep_cases h with ⟨c, rfl⟩ | ⟨d, total, rfl⟩ <;> rfl
    · cases h
      rfl

/-- The CORE's own steps of a PIPE.RUN leave the command port alone (R110). -/
theorem coreStep_cmd (hbusy : s.busy = true) (h : coreStep s = .next t) : t.cmd = s.cmd := by
  cases hp : s.phase with
  | idle | faulted => simp [State.busy, hp] at hbusy
  | compute => exact computeStep_cmd (coreStep_compute hp ▸ h)
  | handoff =>
    rw [coreStep_handoff hp] at h
    split at h
    · obtain ⟨w, rfl⟩ := handoffStep_cases h
      rfl
    · cases h
      rfl
  | observe =>
    cases (coreStep_observe hp).symm.trans h
    rfl

/-- Of the outside moves only HOST's write and a reset touch the command port (R36, R110, R131). -/
theorem eventStep_cmd {e : Event} (hbusy : s.busy = true) (hrst : e ≠ .rst)
    (h : eventStep e s = .next t) :
    t.cmd = s.cmd ∨ ∃ w, e = .hostWrite w ∧ t.cmd = s.cmd ++ [w] := by
  cases e with
  | quiet => exact .inl (coreStep_cmd hbusy h)
  | hostWrite w =>
    cases h
    exact .inr ⟨w, rfl, rfl⟩
  | hostTake =>
    cases h
    exact .inl rfl
  | rst => exact absurd rfl hrst
  | pin b => rcases pinStep_cases h with ⟨-, rfl⟩ | ⟨-, ⟨-, rfl⟩ | ⟨-, -, rfl⟩⟩ <;> exact .inl rfl
  | done => rcases doneStep_cases h with ⟨-, rfl⟩ | ⟨-, ⟨-, rfl⟩ | ⟨-, rfl⟩⟩ <;> exact .inl rfl
  | execError => rcases execErrorStep_cases h with ⟨-, -, rfl⟩ | ⟨-, rfl⟩ <;> exact .inl rfl

end

/-- Settles O29: the step is the CORE's own, which leaves the port alone in a busy PHASE, or the first
pending move's, of which only HOST's write adds a word. -/
theorem busyPortAcceptsNothing : Obligations.BusyPortAcceptsNothing := by
  intro s t hbusy h hrst
  cases henv : s.env with
  | nil => exact .inl (coreStep_cmd hbusy (step_of_env_nil henv ▸ h))
  | cons e es =>
    rw [henv, List.head?_cons, ne_eq, Option.some.injEq] at hrst
    rw [step_of_env_cons henv] at h
    simpa using eventStep_cmd (s := s.withEnv es) hbusy hrst h

end Sys2Proof.Machine

/-! Illegal words, fault entry, and what FAULTED keeps (R110, R117, R118, R122). A fault is always the
one operation `raise`, with a cause of R116, on the state before the command or step, and no other
answer enters FAULTED (`FaultsPrecisely`). In FAULTED a command can only respond. -/

namespace Sys2Proof.Machine

/-! ### Illegal words (R110, R117) -/

section
variable {s : State} {w : Word}

theorem runWord_illegal {e : Illegal} (h : decode w = .error e) : runWord w s = illegalWord w s := by
  rw [runWord, h]

theorem illegalWord_idle (hp : s.phase = .idle) :
    illegalWord w s = .next (enterFault .illegalCommand (opField w) s) :=
  whenIdle_idle hp

theorem illegalWord_faulted (hp : s.phase = .faulted) : illegalWord w s = .next (refuseFaulted s) :=
  whenIdle_faulted hp

end

/-- Settles O28: the word is taken, and `illegalWord` answers by PHASE. -/
theorem illegalWordsFault : Obligations.IllegalWordsFault := by
  intro s w ws e henv hcmd hd
  refine ⟨fun hp => ?idle, fun hp => ?faulted⟩
  case idle =>
    rw [step_of_env_nil henv, coreStep_accepts (.inl hp), commandStep_cons hcmd, runWord_illegal hd]
    exact illegalWord_idle (s := { s with cmd := ws }) hp
  case faulted =>
    rw [step_of_env_nil henv, coreStep_accepts (.inr hp), commandStep_cons hcmd, runWord_illegal hd]
    exact illegalWord_faulted (s := { s with cmd := ws }) hp

/-! ### Steps in FAULTED (R110, R122) -/

/-- `t` is `s` but for RSP, the command port and the outside world's coming moves. -/
def KeepsRegisters (s t : State) : Prop := t = { s with rsp := t.rsp, cmd := t.cmd, env := t.env }

section
variable {s t : State}

theorem exec_dsmClr_faulted (hp : s.phase = .faulted) : exec .dsmClr s = .next (refuseFaulted s) := by
  rw [exec, execDsmClr, whenIdle_faulted hp]

/-- In FAULTED a command responds, and does nothing else (R110, R122). -/
theorem exec_responds (i : Instr) (hp : s.phase = .faulted) :
    ∃ ws, exec i s = .next (respond ws s) := by
  cases i with
  | nop => exact ⟨[], by simp [exec_nop_accepted (.inr hp), respond]⟩
  | statRd => exact ⟨_, exec_statRd_accepted (.inr hp)⟩
  | cfgRd => exact ⟨_, exec_cfgRd_accepted (.inr hp)⟩
  | qeRd => exact ⟨_, exec_qeRd_accepted (.inr hp)⟩
  | cntRd => exact ⟨_, exec_cntRd_accepted (.inr hp)⟩
  | dsmClr => exact ⟨_, exec_dsmClr_faulted hp⟩
  | dsmIn x => exact ⟨_, exec_dsmIn_faulted hp⟩
  | rleClr => exact ⟨_, exec_rleClr_faulted hp⟩
  | rleIn c => exact ⟨_, exec_rleIn_faulted hp⟩
  | rleEnd => exact ⟨_, exec_rleEnd_faulted hp⟩
  | lcIn n => exact ⟨_, exec_lcIn_faulted hp⟩
  | pmIn x => exact ⟨_, exec_pmIn_faulted x hp⟩
  | pipeRun n => exact ⟨_, exec_pipeRun_faulted hp⟩

theorem runWord_responds (w : Word) (hp : s.phase = .faulted) :
    ∃ ws, runWord w s = .next (respond ws s) := by
  cases hd : decode w with
  | ok i =>
    rw [runWord, hd]
    exact exec_responds i hp
  | error e => exact ⟨_, (runWord_illegal hd).trans (illegalWord_faulted hp)⟩

/-- In FAULTED the CORE takes a word and responds, or waits for one (R110). -/
theorem coreStep_faulted (hp : s.phase = .faulted) (h : coreStep s = .next t) :
    KeepsRegisters s t := by
  rw [coreStep_accepts (.inr hp)] at h
  cases hcmd : s.cmd with
  | nil =>
    cases (commandStep_nil hcmd).symm.trans h
    rfl
  | cons w ws =>
    obtain ⟨rs, hrun⟩ := runWord_responds (s := { s with cmd := ws }) w hp
    cases hrun.symm.trans ((commandStep_cons hcmd).symm.trans h)
    rfl

/-- In FAULTED nothing that EXEC offers is taken, and HOST moves words of its streams only (R34, R36,
R100 to R102). -/
theorem eventStep_faulted {e : Event} (hp : s.phase = .faulted) (hrst : e ≠ .rst)
    (h : eventStep e s = .next t) : KeepsRegisters s t := by
  have hobserve : s.phase ≠ .observe := by simp [hp]
  have hhandoff : s.phase ≠ .handoff := by simp [hp]
  cases e with
  | quiet => exact coreStep_faulted hp h
  | hostWrite | hostTake =>
    cases h
    rfl
  | rst => exact absurd rfl hrst
  | pin b =>
    cases (pinStep_refused hobserve).symm.trans h
    rfl
  | done =>
    cases (doneStep_refused hobserve).symm.trans h
    rfl
  | execError =>
    cases (execErrorStep_refused hhandoff hobserve).symm.trans h
    rfl

end

/-- Settles O30: the step is the CORE's own or the first pending move's. -/
theorem onlyResetLeavesFaulted : Obligations.OnlyResetLeavesFaulted := by
  intro s t hp h hrst
  cases henv : s.env with
  | nil => exact coreStep_faulted hp (step_of_env_nil henv ▸ h)
  | cons e es =>
    rw [henv, List.head?_cons, ne_eq, Option.some.injEq] at hrst
    rw [step_of_env_cons henv] at h
    exact eventStep_faulted (s := s.withEnv es) hp hrst h

/-! ### Fault entry (R118, R119) -/

/-- Where the answer `o` to a command or step on `s` ends in FAULTED, it is fault entry on `s` itself,
with a cause of R116: none of the other writes is performed (R118). -/
def FaultsPrecisely (op : Byte) (s : State) (o : Outcome) : Prop :=
  ∀ t, o = .next t → t.phase = .faulted → ∃ c, c ≠ Cause.none ∧ t = enterFault c op s

section
variable {op : Byte} {s t : State} {o : Outcome}

theorem faultsPrecisely_raise {c : Cause} (h : o = raise c op s) (hc : c ≠ .none) :
    FaultsPrecisely op s o := by
  intro u hu _
  exact ⟨c, hc, (raise_next_iff ..).1 (h.symm.trans hu)⟩

theorem faultsPrecisely_next (h : o = .next t) (ht : t.phase ≠ .faulted) :
    FaultsPrecisely op s o := by
  intro u hu hf
  cases h.symm.trans hu
  exact absurd hf ht

theorem faultsPrecisely_stop (f : Fault) : FaultsPrecisely op s (.fault f) := nofun

theorem exec_dsmClr (hp : s.phase = .idle) : exec .dsmClr s = .next (setQe 0 s) := by
  rw [exec, execDsmClr, whenIdle_idle hp]

/-- Every fault of a command in IDLE records the command's OP (R27, R118). -/
theorem exec_faultsPrecisely (i : Instr) (hp : s.phase = .idle) :
    FaultsPrecisely i.op s (exec i s) := by
  have hrunning : s.phase ≠ .faulted := by simp [hp]
  cases i with
  | nop => exact faultsPrecisely_next (exec_nop_accepted (.inl hp)) hrunning
  | statRd => exact faultsPrecisely_next (exec_statRd_accepted (.inl hp)) hrunning
  | cfgRd => exact faultsPrecisely_next (exec_cfgRd_accepted (.inl hp)) hrunning
  | qeRd => exact faultsPrecisely_next (exec_qeRd_accepted (.inl hp)) hrunning
  | cntRd => exact faultsPrecisely_next (exec_cntRd_accepted (.inl hp)) hrunning
  | dsmClr => exact faultsPrecisely_next (exec_dsmClr hp) hrunning
  | rleClr => exact faultsPrecisely_next (exec_rleClr hp) hrunning
  | pmIn x => exact faultsPrecisely_next (exec_pmIn_idle x hp) hrunning
  | dsmIn x =>
    rcases hd : dsmStep s.qe.toInt x.toInt with _ | ⟨c, q⟩
    · exact faultsPrecisely_raise (exec_dsmIn_none hp hd) nofun
    · exact faultsPrecisely_next (exec_dsmIn_some hp hd) hrunning
  | rleIn c =>
    rcases hr : rleStep s.rle c with _ | ⟨n, r⟩
    · exact faultsPrecisely_raise (exec_rleIn_none hp hr) nofun
    · exact faultsPrecisely_next (exec_rleIn_some hp hr) hrunning
  | rleEnd =>
    cases hs : s.rleStarted with
    | false => exact faultsPrecisely_raise (exec_rleEnd_empty hp hs) nofun
    | true => exact faultsPrecisely_next (exec_rleEnd_started hp hs) hrunning
  | lcIn n =>
    cases hd : lc s.params.tSwitch n with
    | none => exact faultsPrecisely_raise (exec_lcIn_none hp hd) nofun
    | some d => exact faultsPrecisely_next (exec_lcIn_some hp hd) hrunning
  | pipeRun n =>
    by_cases hn : n = 0
    · subst hn
      exact faultsPrecisely_raise (exec_pipeRun_zero hp) nofun
    · rcases lt_or_ge s.params.maxN n.toNat with hcap | hle
      · exact faultsPrecisely_raise (exec_pipeRun_capacity hp hn hcap) nofun
      · exact faultsPrecisely_next (exec_pipeRun_accepts hp hn hle) nofun

/-- The checks of the sample step come before its writes (R95). -/
theorem sampleStep_faultsPrecisely (hp : s.phase ≠ .faulted) :
    FaultsPrecisely pipeOp s (sampleStep s) := by
  unfold sampleStep
  split
  · exact faultsPrecisely_stop _
  split
  · exact faultsPrecisely_raise rfl nofun
  split
  · exact faultsPrecisely_raise rfl nofun
  · exact faultsPrecisely_next rfl hp
  split
  · exact faultsPrecisely_raise rfl nofun
  split
  · exact faultsPrecisely_stop _
  · rename_i happend
    obtain ⟨-, rfl⟩ := segAppend_ok_iff.1 happend
    exact faultsPrecisely_next rfl hp

/-- A fault in forming TOTAL undoes the whole flush step (R96, R97). -/
theorem flushStep_faultsPrecisely : FaultsPrecisely pipeOp s (flushStep s) := by
  unfold flushStep
  split
  · exact faultsPrecisely_raise rfl nofun
  split
  · exact faultsPrecisely_raise rfl nofun
  split
  · exact faultsPrecisely_stop _
  split
  · exact faultsPrecisely_stop _
  split
  · exact faultsPrecisely_raise rfl nofun
  · exact faultsPrecisely_next rfl nofun

theorem coreStep_faultsPrecisely (hbusy : s.busy = true) :
    FaultsPrecisely pipeOp s (coreStep s) := by
  cases hp : s.phase with
  | idle | faulted => simp [State.busy, hp] at hbusy
  | compute =>
    rw [coreStep_compute hp, computeStep]
    split
    · exact sampleStep_faultsPrecisely (by simp [hp])
    · split
      · exact flushStep_faultsPrecisely
      · exact faultsPrecisely_next rfl (by simp [hp])
  | handoff =>
    rw [coreStep_handoff hp]
    split
    · intro u h hf
      obtain ⟨w, rfl⟩ := handoffStep_cases h
      exact absurd (hp.symm.trans hf) nofun
    · exact faultsPrecisely_next rfl nofun
  | observe =>
    rw [coreStep_observe hp]
    exact faultsPrecisely_next rfl (by simp [hp])

/-- Of the outside moves in a PIPE.RUN only those of EXEC fault (R100 to R102). -/
theorem eventStep_faultsPrecisely (e : Event) (hbusy : s.busy = true) :
    FaultsPrecisely pipeOp s (eventStep e s) := by
  have hrunning : s.phase ≠ .faulted := fun hp => by simp [State.busy, hp] at hbusy
  cases e with
  | quiet => exact coreStep_faultsPrecisely hbusy
  | hostWrite | hostTake => exact faultsPrecisely_next rfl hrunning
  | rst => exact faultsPrecisely_next rfl nofun
  | pin b =>
    intro u h hf
    rcases pinStep_cases h with ⟨-, rfl⟩ | ⟨-, ⟨-, rfl⟩ | ⟨-, -, rfl⟩⟩
    · exact absurd hf hrunning
    · exact ⟨.execProtocol, nofun, rfl⟩
    · exact absurd hf hrunning
  | done =>
    intro u h hf
    rcases doneStep_cases h with ⟨-, rfl⟩ | ⟨-, ⟨-, rfl⟩ | ⟨-, rfl⟩⟩
    · exact absurd hf hrunning
    · exact ⟨.execProtocol, nofun, rfl⟩
    · cases hf
  | execError =>
    intro u h hf
    rcases execErrorStep_cases h with ⟨-, -, rfl⟩ | ⟨-, rfl⟩
    · exact absurd hf hrunning
    · exact ⟨.execError, nofun, rfl⟩

end

/-- Settles O31: `FaultsPrecisely` of every command in IDLE, of the CORE's steps of a PIPE.RUN and of the
outside moves in one; a pending move is used up, so the list of moves is that of the answer. -/
theorem faultEntryIsPrecise : Obligations.FaultEntryIsPrecise := by
  refine ⟨fun i s t hp h hf => exec_faultsPrecisely i hp t h hf, fun s t hbusy h hf => ?_⟩
  cases henv : s.env with
  | nil =>
    rw [step_of_env_nil henv] at h
    obtain ⟨c, hc, rfl⟩ := coreStep_faultsPrecisely hbusy t h hf
    exact ⟨c, hc, rfl⟩
  | cons e es =>
    rw [step_of_env_cons henv] at h
    obtain ⟨c, hc, rfl⟩ := eventStep_faultsPrecisely (s := s.withEnv es) e hbusy t h hf
    exact ⟨c, hc, rfl⟩

end Sys2Proof.Machine

/-! Reset (R131, R132): one step from any state to the cold reset of the instance, with no word left
in the command port, so that HOST's next word comes first. -/

namespace Sys2Proof.Machine

/-- One step of a run, however the machine answers it. -/
theorem runSteps_one_eq_step (s : State) : runSteps 1 s = step s := by
  cases h : step s with
  | next t => exact runSteps_one h
  | fault f => simp only [runSteps, h]
  | refused r => simp only [runSteps, h]

/-- The reset move is accepted in every state (R131). -/
theorem step_of_env_rst {s : State} {es : List Event} (h : s.env = .rst :: es) :
    step s = .next { State.reset with params := s.params, env := es } := by
  rw [step_of_env_cons h]
  rfl

/-- Settles O33: the three steps are the reset, HOST's write into the emptied port, and the command in
the IDLE that the reset gave. -/
theorem resetFromEveryState : Obligations.ResetFromEveryState := by
  obtain ⟨hostWrites, -⟩ := hostMovesOnlyTouchTheStreams
  refine ⟨fun _ _ => step_of_env_rst, fun s w i henv hd => ?_⟩
  calc runSteps 3 s
      _ = runSteps 2 { State.reset with params := s.params, env := [.hostWrite w] } :=
        runSteps_succ (step_of_env_rst henv) 2
      _ = runSteps 1 { State.reset with params := s.params, cmd := [w] } :=
        runSteps_succ (hostWrites _ w [] rfl) 1
      _ = step { State.reset with params := s.params, cmd := [w] } := runSteps_one_eq_step _
      _ = exec i { State.reset with params := s.params } :=
        stepRunsTheDecodedCommand _ w [] i rfl (.inl rfl) rfl hd

end Sys2Proof.Machine
